-- ==== Sys2Proof/Word.lean ====
section
/-! DEFINITION. The widths the core works in (spec/00_scope.md R7, R9, R10): 64-bit words, 32-bit parameter
values, bytes, and the block of 128 words. -/

namespace Sys2Proof

/-- A matrix word, an ARG or RES register, a bus value (R9). Arithmetic on it wraps modulo 2^64 (R11). -/
abbrev Word := BitVec 64

/-- A parameter or geometry register value (R9). -/
abbrev Half := BitVec 32

/-- One byte of MSG, OBUF, H0 or a hash input (R10). -/
abbrev Byte := BitVec 8

/-- A block: 128 words `w[0] .. w[127]`, 1024 bytes (R7, R10). -/
abbrev Block := Vector Word 128

end Sys2Proof
end

