-- ==== Sys2Proof/Syntax.lean ====
section
/-! DEFINITION. The syntax of everything that reaches the core: the 23 commands (spec/30_encoding.md R112), the
host's accesses and the other inputs (10_state.md R30, R32; 70_reset_and_hazards.md R341), and the statements of
a host program (30_encoding.md R122, R123). A command has no operand field (R110): its operands are in ARG
registers (R113). -/

namespace Sys2Proof

/-- The commands: one constructor per row of spec/opcode_table.json (R112). -/
inductive Instr where
  | nop | config | derive | zeroize
  | hprime
  | bxor | bclear | btobytes | bfrombytes
  | blamka | gmix | pround | fblock | fblockx
  | ainit | anext | aword
  | refindex | fseg | fmatrix
  | h0 | seed | final
deriving DecidableEq, Repr

/-- How many of ARG0, ARG1, .. a command reads (R113). -/
def Instr.operandCount : Instr → Nat
  | .nop | .config | .derive | .zeroize | .anext | .fmatrix | .h0 | .seed | .final => 0
  | .bclear | .aword => 1
  | .btobytes | .bfrombytes | .blamka | .pround => 2
  | .hprime | .bxor | .fblock | .fblockx | .ainit | .fseg => 3
  | .gmix => 4
  | .refindex => 5

/-- The ten parameter registers (10_state.md R32, R48). -/
inductive ParamReg where
  | type | version | iter | memKib | lanes | outLen | pwdLen | saltLen | secretLen | adLen
deriving DecidableEq, Repr

/-- The working blocks WB0 .. WB7 by name (10_state.md R52). -/
inductive WbReg where
  | zero | ain | ablk | fin | t0 | t1 | t2 | t3
deriving DecidableEq, Repr

/-- What a valid block selector names (R116): matrix block k, or a working block. -/
inductive BlockRef where
  | mtx (k : Nat)
  | wb (r : WbReg)
deriving DecidableEq, Repr

/-- One host access to the window (20_memory.md R84): a byte offset, a width in bytes and, for a write, the
64-bit value on the bus. -/
inductive HostAccess where
  | read (off width : Nat)
  | write (off width : Nat) (value : Word)
deriving DecidableEq, Repr

/-- One input of the machine: a host access, a turn of the core (which performs the latched command, if there
is one), or an assertion of the reset input (70_reset_and_hazards.md R341). -/
inductive Event where
  | host (a : HostAccess)
  | core
  | reset
deriving DecidableEq, Repr

/-- A statement of a host program: a command with its operands (R122), and the pseudo-instructions of R123. -/
inductive Stmt where
  | command (i : Instr) (ops : List Word)
  | wait
  | bcopy (dst src : Word)
  | setp (p : ParamReg) (v : Word)
  | clrst
  | loadmsg (off : Nat) (bytes : List Byte)
  | readout (off n : Nat)
deriving DecidableEq, Repr

end Sys2Proof
end

