-- ==== Sys2Proof/WellFormed.lean ====
section
/-! DEFINITION. What is well formed, as Bool checks: a value written to CMD (spec/30_encoding.md R110, R111), a
command, a host access (20_memory.md R84, R88) and a host statement (30_encoding.md R113, R122, R123). -/

namespace Sys2Proof

/-- The assigned values of OPC, bits [7:0] of the command word (R112). -/
def assignedOpcodes : List Nat :=
  [0x00, 0x01, 0x02, 0x03, 0x10, 0x20, 0x21, 0x22, 0x23, 0x30, 0x31, 0x32, 0x33, 0x34] ++
  [0x40, 0x41, 0x42, 0x50, 0x51, 0x52, 0x60, 0x61, 0x62]

/-- Bits [63:8] of a value written to CMD are zero (R110). -/
def cmdReservedBitsZero (v : Word) : Bool := v >>> 8 == 0

/-- A legal CMD value (R111): reserved bits zero and an assigned opcode. -/
def cmdWellFormed (v : Word) : Bool :=
  cmdReservedBitsZero v && assignedOpcodes.contains (v.toNat % 256)

/-- A command has no operand field (R110, R121), so no term of `Instr` is ill formed. -/
def Instr.wellFormed (_ : Instr) : Bool := true

/-- The offset of a host access. -/
def HostAccess.offset : HostAccess → Nat
  | .read off _ => off
  | .write off _ _ => off

/-- The width of a host access in bytes. -/
def HostAccess.width : HostAccess → Nat
  | .read _ w => w
  | .write _ w _ => w

/-- A naturally aligned 8-byte access, the only kind the core specifies (R84). -/
def HostAccess.aligned (a : HostAccess) : Bool := a.width == 8 && a.offset % 8 == 0

/-- An access inside the window 0x00000 .. 0x2FFFF the core decodes (R88). -/
def HostAccess.inWindow (a : HostAccess) : Bool := a.offset < 0x30000

/-- A host access the core has a meaning for (R84, R88). -/
def HostAccess.wellFormed (a : HostAccess) : Bool := a.aligned && a.inWindow

/-- A statement the assembler accepts: a command has exactly the operands R113 lists, and LOADMSG's offset is a
multiple of 8 (R123) and its bytes lie in the MSG window, as READOUT's lie in the OBUF window: 0x10000 bytes each
(10_state.md R32). -/
def Stmt.wellFormed : Stmt → Bool
  | .command i ops => ops.length == i.operandCount
  | .loadmsg off bytes => off % 8 == 0 && decide (off + bytes.length ≤ 0x10000)
  | .readout off n => decide (off + n ≤ 0x10000)
  | .wait | .bcopy _ _ | .setp _ _ | .clrst => true

end Sys2Proof
end

