-- ==== Sys2Proof/Decode.lean ====
section
/-! DEFINITION. Decoding of the 64-bit value written to CMD and the encoder back (spec/30_encoding.md R110, R111,
R112, R121). Decoding is total: every value is one of the 23 commands or is rejected by name. -/

namespace Sys2Proof

/-- Why a value is no command (R111): a nonzero bit in [63:8], or an OPC that R112 does not list. -/
inductive DecodeError where
  | reservedBits
  | unassignedOpcode
deriving DecidableEq, Repr

/-- What the decoder answers. -/
inductive Decoded where
  | command (i : Instr)
  | illegal (e : DecodeError)
deriving DecidableEq, Repr

/-- The opcode map of R112, read from OPC. -/
def decodeOpcode (opc : Nat) : Option Instr :=
  match opc with
  | 0x00 => some .nop
  | 0x01 => some .config
  | 0x02 => some .derive
  | 0x03 => some .zeroize
  | 0x10 => some .hprime
  | 0x20 => some .bxor
  | 0x21 => some .bclear
  | 0x22 => some .btobytes
  | 0x23 => some .bfrombytes
  | 0x30 => some .blamka
  | 0x31 => some .gmix
  | 0x32 => some .pround
  | 0x33 => some .fblock
  | 0x34 => some .fblockx
  | 0x40 => some .ainit
  | 0x41 => some .anext
  | 0x42 => some .aword
  | 0x50 => some .refindex
  | 0x51 => some .fseg
  | 0x52 => some .fmatrix
  | 0x60 => some .h0
  | 0x61 => some .seed
  | 0x62 => some .final
  | _ => none

/-- The reserved bits [63:8] and the opcode [7:0] of a CMD value (R110). -/
def cmdReserved (v : Word) : BitVec 56 := v.extractLsb' 8 56

/-- The OPC field, bits [7:0] (R110). -/
def cmdOpc (v : Word) : Byte := v.extractLsb' 0 8

/-- Decode a value written to CMD (R111): the reserved bits first, then the opcode. -/
def decode (v : Word) : Decoded :=
  if cmdReserved v = 0 then
    match decodeOpcode (cmdOpc v).toNat with
    | some i => .command i
    | none => .illegal .unassignedOpcode
  else .illegal .reservedBits

/-- The opcode of a command (R112, spec/opcode_table.json). -/
def opcode : Instr → Byte
  | .nop => 0x00
  | .config => 0x01
  | .derive => 0x02
  | .zeroize => 0x03
  | .hprime => 0x10
  | .bxor => 0x20
  | .bclear => 0x21
  | .btobytes => 0x22
  | .bfrombytes => 0x23
  | .blamka => 0x30
  | .gmix => 0x31
  | .pround => 0x32
  | .fblock => 0x33
  | .fblockx => 0x34
  | .ainit => 0x40
  | .anext => 0x41
  | .aword => 0x42
  | .refindex => 0x50
  | .fseg => 0x51
  | .fmatrix => 0x52
  | .h0 => 0x60
  | .seed => 0x61
  | .final => 0x62

/-- The value a host writes to CMD to issue a command: OPC in [7:0], zero above (R110). -/
def encode (i : Instr) : Word := (opcode i).setWidth 64

/-- The CMD value that a table word of `nbits` bits stands for: the bits above `nbits` are zero. -/
def tableValue (nbits w : Nat) : Nat := w % 2 ^ nbits

/-- The command this decoder reads from a table word (bit 0 the least significant; the command word is delivered
whole by one CMD write, R121). A word that does not fit the 64-bit CMD value is no command. -/
def decodeTableWord (nbits w : Nat) : Option Instr :=
  if tableValue nbits w < 2 ^ 64 then
    match decode (BitVec.ofNat 64 (tableValue nbits w)) with
    | .command i => some i
    | .illegal _ => none
  else none

end Sys2Proof
end

