-- ==== Sys2Proof/Machine/Bytes.lean ====
section
/-! DEFINITION. Bit fields, byte order and the Block functions every other file uses (spec/00_scope.md R11, R12;
20_memory.md R80, R83; 41_block.md R160). Every order of bytes in the model is decided here, and is
little-endian (R80, R81). -/

namespace Sys2Proof.Machine

/-- `lo32` of R11. -/
def lo32 (x : Word) : Word := x &&& 0xFFFFFFFF#64

/-- `hi32` of R11. -/
def hi32 (x : Word) : Word := x >>> 32

/-- `rotr64` of R11. -/
def rotr64 (x : Word) (n : Nat) : Word := (x >>> n) ||| (x <<< (64 - n))

/-- The n low bytes of a natural number, least significant first. -/
def leBytes : Nat → Nat → List Byte
  | 0, _ => []
  | n + 1, x => BitVec.ofNat 8 x :: leBytes n (x / 256)

/-- `LE32` of R12. -/
def le32 (n : Nat) : List Byte := leBytes 4 n

/-- `LE64` of R12. -/
def le64 (w : Word) : List Byte := leBytes 8 w.toNat

/-- The natural number a byte string stands for, byte 0 the least significant. -/
def leNat : List Byte → Nat
  | [] => 0
  | b :: bs => b.toNat + 256 * leNat bs

/-- The word of at most 8 bytes, missing bytes zero (R12, R82). -/
def leWord (bs : List Byte) : Word := BitVec.ofNat 64 (leNat bs)

/-- `lenPrefixed(s)` of R12. -/
def lenPrefixed (s : List Byte) : List Byte := le32 s.length ++ s

/-- `ToBytes(B)` of R12, R160: 1024 bytes. -/
def toBytes (B : Block) : List Byte := B.toList.flatMap le64

/-- `FromBytes(s)` of R12, R160: word k is bytes 8k .. 8k+7 of s. -/
def fromBytes (s : List Byte) : Block := Vector.ofFn fun k => leWord ((s.drop (8 * k.val)).take 8)

/-- `XorInto(A, B)` of R160. -/
def xorInto (A B : Block) : Block := Vector.ofFn fun k => A[k] ^^^ B[k]

/-- `Clear()` of R160: 128 zero words. -/
def zeroBlock : Block := Vector.replicate 128 0

/-- Word i of a block, the index taken modulo 128 (R214, R216). -/
def wordOf (B : Block) (i : Nat) : Word := B[i % 128]'(Nat.mod_lt _ (by decide))

end Sys2Proof.Machine
end

