-- ==== Sys2Proof/Config.lean ====
section
/-! DEFINITION. What is fixed for one implementation of the core, and the free values: the constants the source
fixes (spec/00_scope.md R7), the implementation parameters (R8, R14), the draws (10_state.md R61, 20_memory.md R92)
and what a register of unspecified contents holds after reset (R61, 70_reset_and_hazards.md R340). A parameter or a free value has no body, so nothing can be proved about its value beyond
the bounds its type states. -/

namespace Sys2Proof

/-- Which memory value the initial hash absorbs (R8, 45_engine.md R282). -/
inductive H0MemField where
  | rounded
  | raw
deriving DecidableEq, Repr, Inhabited

namespace Config

/-! ### Constants of R7 -/

/-- SYNC_POINTS: slices in a lane. -/
abbrev syncPoints : Nat := 4
/-- ADDRESSES_IN_BLOCK: pseudo-random words in one address block. -/
abbrev addressesInBlock : Nat := 128
/-- BLOCK_BYTES. -/
abbrev blockBytes : Nat := 1024
/-- MAX_LANES. -/
abbrev maxLanes : Nat := 16777216
/-- MIN_OUTLEN. -/
abbrev minOutLen : Nat := 4

/-! ### Implementation parameters of R8 (free, DESIGN CHOICE of the form only: notes/assumptions/5.md) -/

/-- MAX_BLOCKS - 8, so that 8 <= MAX_BLOCKS <= 2^32 - 1. -/
opaque maxBlocksOverMin : Fin 4294967288
/-- MSG_BYTES - 1024, so that 1024 <= MSG_BYTES <= 65536. -/
opaque msgBytesOverMin : Fin 64513
/-- OBUF_BYTES - 1024, so that 1024 <= OBUF_BYTES <= 65536. -/
opaque obufBytesOverMin : Fin 64513

/-- MAX_BLOCKS: the capacity of the matrix bank in blocks (R8, U11). -/
def maxBlocks : Nat := maxBlocksOverMin.val + 8
/-- MSG_BYTES: the capacity of the message buffer (R8, U12). -/
def msgBytes : Nat := msgBytesOverMin.val + 1024
/-- OBUF_BYTES: the capacity of the output buffer (R8, U12). -/
def obufBytes : Nat := obufBytesOverMin.val + 1024

/-- H0_MEM_FIELD (R8, U13, D20): left open by the spec (notes/assumptions/7.md). -/
opaque h0MemField : H0MemField

/-- The external digest function (R14, U14): the unkeyed Blake2b digest of a byte string, for a digest length.
Free: no law of it is assumed but the number of bytes `blake2b` returns (notes/assumptions/6.md). -/
opaque blake2bDigest : List Byte → Nat → Vector Byte 64

/-! ### Free values -/

/-- The n-th draw of a value the spec leaves open: a host read of unspecified bytes (R61, U3), or of RES, MSG or
OBUF while BUSY = 1 (R92, U4). Applied to a counter of State, so each read has a draw of its own. -/
opaque draw : Nat → Word

/-- What WBn, n = 1 .. 7, holds after the reset of a given number, until it is written: "some value the spec does not
fix. A model must not pick one" (R61; notes/assumptions/20.md). -/
opaque blockAtReset : (reset n : Nat) → Block

/-- What H0 holds after the reset of a given number, until it is written (R61; notes/assumptions/20.md). -/
opaque h0AtReset : (reset : Nat) → Vector Byte 64

end Config

/-- `Blake2b(input, n)` of R14: exactly n bytes, for 1 <= n <= 64. -/
def blake2b (input : List Byte) (n : Nat) : List Byte :=
  (Config.blake2bDigest input n).toList.take n

end Sys2Proof
end

