-- ==== Sys2Proof/Machine/State.lean ====
section
/-! DEFINITION. The state of the core as plain data (spec/10_state.md), why a step can stop, and the state after
reset (70_reset_and_hazards.md R340).

UNSPECIFIED STATE. R61 makes "unspecified" a condition a block, H0 or a buffer byte is in until it is written:
"A model must not pick one. A core read of unspecified state in a command's computation is a model fault,
UNSPEC_READ." In the memories MTX, MSG and OBUF it is an index that is not listed (notes/assumptions/3.md). The registers
WB1 .. WB7 and H0 hold a value from reset on, a free one, and a mark beside it says whether it has been specified; a
command that reads an unmarked one goes on with the value held, and the UNSPEC_READ is recorded in the state
(notes/assumptions/20.md). Every register of R32 holds the reset value R340 gives it. -/

namespace Sys2Proof.Machine

/-- A memory that starts unspecified: (index, value) pairs, indices strictly rising; an index that is not listed
is unspecified (R61). With bytes it is a list of `Host.Cell`. -/
abbrev Memory (α : Type) := List (Nat × α)

/-- The canonical form: strictly rising indices. An unlisted index has no value, so no entry can equal what an
unlisted index reads as, and equal memories are equal lists. -/
abbrev Memory.wf {α : Type} (m : Memory α) : Prop := m.Pairwise (fun x y => x.1 < y.1)

/-- The codes of STATUS.ERRCODE (60_exceptions.md R311). "Every other code value is reserved and never written." -/
inductive ErrCode where
  | none
  | illegalCmd | badOperand | notConfigured
  | cfgLanes | cfgMemory | cfgIter | cfgOutlen | cfgVersion | cfgType
  | resMatrix | resMsg | resObuf
deriving DecidableEq, Repr

/-- The parameter registers (R32, R36-R42), 32 bits each (R49). -/
structure Params where
  type : Half
  version : Half
  iter : Half
  memKib : Half
  lanes : Half
  outLen : Half
  pwdLen : Half
  saltLen : Half
  secretLen : Half
  adLen : Half
deriving DecidableEq, Repr

/-- The geometry registers MEMBLOCKS, SEGLEN and LANELEN (R43). -/
structure Geometry where
  memBlocks : Half
  segLen : Half
  laneLen : Half
deriving DecidableEq, Repr

/-- The capability registers (R33): the implementation parameters of 00_scope.md R8. No step changes them. -/
structure Caps where
  maxBlocks : Nat
  msgBytes : Nat
  obufBytes : Nat
deriving DecidableEq, Repr

/-- A register that R340 leaves unspecified at reset: the value it holds, and whether it has been specified (R61). -/
structure Held (α : Type) where
  value : α
  specified : Bool
deriving DecidableEq, Repr

/-- A register that a command has written: "It becomes specified when a command or the host writes it" (R61). -/
def Held.written {α : Type} (v : α) : Held α := { value := v, specified := true }

/-- A register after reset: it holds some value, which is not specified (R61, R340). -/
def Held.unspecified {α : Type} (v : α) : Held α := { value := v, specified := false }

/-- The working blocks WB1 .. WB7 (R52). WB0 is hardwired to zero (R53) and needs no storage. -/
structure Working where
  ain : Held Block
  ablk : Held Block
  fin : Held Block
  t0 : Held Block
  t1 : Held Block
  t2 : Held Block
  t3 : Held Block
deriving DecidableEq, Repr

/-- The state of the machine. -/
structure State where
  /-- CTRL.IE (R34). -/
  ie : Bool
  /-- STATUS.DONE (R35). -/
  done : Bool
  /-- STATUS.ERR (R35). -/
  err : Bool
  /-- STATUS.WIGN (R35). -/
  wign : Bool
  /-- STATUS.CFG (R35). -/
  cfg : Bool
  /-- STATUS.ERRCODE (R35, R311). -/
  errCode : ErrCode
  /-- The command latch (R59): the value of the CMD write that issued the outstanding command. It is valid
  exactly when STATUS.BUSY = 1, so BUSY is `latch.isSome`. -/
  latch : Option Word
  /-- TYPE .. ADLEN. -/
  params : Params
  /-- MEMBLOCKS, SEGLEN, LANELEN. -/
  geom : Geometry
  /-- ARG0 .. ARG5 (R46). -/
  args : Vector Word 6
  /-- RES0 .. RES3 (R47). -/
  res : Vector Word 4
  /-- CAP_BLOCKS, CAP_MSG, CAP_OBUF (R33). -/
  caps : Caps
  /-- The matrix bank MTX (R50). -/
  mtx : Memory Block
  /-- The working block file (R52). -/
  wb : Working
  /-- H0 (R54). -/
  h0 : Held (Vector Byte 64)
  /-- The message buffer MSG (R55). -/
  msg : Memory Byte
  /-- The output buffer OBUF (R56). -/
  obuf : Memory Byte
  /-- The model's own: the inputs still to come, in the order in which host, core and reset move (R91, R270;
  notes/assumptions/1.md). -/
  agenda : List Event
  /-- The model's own: the value the last host read returned (notes/assumptions/11.md). -/
  rdata : Word
  /-- The model's own: the number of the next draw (notes/assumptions/4.md). -/
  draws : Nat
  /-- The recorded UNSPEC_READ fault: "The model records a fault, and the faulted run is never a valid end of run"
  (60_exceptions.md R327, R355). It is set by a command that reads a working block or H0 while unspecified, and
  nothing clears it (notes/assumptions/20.md). -/
  unspecRead : Bool
deriving DecidableEq, Repr

/-- Where a command read an unspecified memory. -/
inductive UnspecSource where
  | mtx (k : Nat)
  | msg (k : Nat)
deriving DecidableEq, Repr

/-- Why the machine stops. -/
inductive Fault where
  /-- UNSPEC_READ (R61, 60_exceptions.md R327, U2): raised by a command whose computation reads a matrix block or a
  MSG byte, memory that nothing has written since reset. Safe: "The hardware returns some value and computes on. The
  model does not follow it." -/
  | unspecRead (src : UnspecSource)
deriving DecidableEq, Repr

/-- Why the model has no step. -/
inductive Refusal where
  /-- No meaning yet for the instruction: raised by an arm of `exec`. Safe. -/
  | notModelled (mnemonic : String)
  /-- A host access that is not 8 bytes wide or not aligned (20_memory.md R84, R327, U5): raised by a host
  access. Safe: "A model refuses such an access." -/
  | hostAccessShape
  /-- A host access beyond 0x2FFFF (20_memory.md R88, U6): raised by a host access. Safe: a model of the core
  alone refuses it. -/
  | hostAccessBeyondWindow
deriving DecidableEq, Repr

/-- What a step or a meaning answers. -/
abbrev Step := Host.Outcome State Fault Refusal

/-- All parameter registers zero (R340). -/
def Params.reset : Params :=
  { type := 0, version := 0, iter := 0, memKib := 0, lanes := 0, outLen := 0
    pwdLen := 0, saltLen := 0, secretLen := 0, adLen := 0 }

/-- All geometry registers zero: their value at reset (R340) and whenever CFG = 0 (R43). -/
def Geometry.zero : Geometry := { memBlocks := 0, segLen := 0, laneLen := 0 }

/-- The capability registers hold the implementation parameters (R33, R340). -/
def Caps.reset : Caps :=
  { maxBlocks := Config.maxBlocks, msgBytes := Config.msgBytes, obufBytes := Config.obufBytes }

/-- WB1 .. WB7 unspecified (R340), after the reset of a given number. -/
def Working.atReset (reset : Nat) : Working :=
  { ain := .unspecified (Config.blockAtReset reset 1)
    ablk := .unspecified (Config.blockAtReset reset 2)
    fin := .unspecified (Config.blockAtReset reset 3)
    t0 := .unspecified (Config.blockAtReset reset 4)
    t1 := .unspecified (Config.blockAtReset reset 5)
    t2 := .unspecified (Config.blockAtReset reset 6)
    t3 := .unspecified (Config.blockAtReset reset 7) }

/-- The machine right after reset: the table of R340. The fields of the model's own start empty, at zero or unset
(notes/assumptions/1.md, 4.md, 11.md, 20.md). -/
def State.reset : State :=
  { ie := false
    done := false
    err := false
    wign := false
    cfg := false
    errCode := .none
    latch := none
    params := Params.reset
    geom := Geometry.zero
    args := Vector.replicate 6 0
    res := Vector.replicate 4 0
    caps := Caps.reset
    mtx := []
    wb := Working.atReset 0
    h0 := .unspecified (Config.h0AtReset 0)
    msg := []
    obuf := []
    agenda := []
    rdata := 0
    draws := 0
    unspecRead := false }

end Sys2Proof.Machine
end

