-- ==== Sys2Proof/Machine/Ops.lean ====
section
/-! DEFINITION. The named operations over memory and registers: reads and writes of the memories, the one read and
the one write of a block, the issue of a command, its two ends (completion and error entry), the return from an
error, and loops. Taking a core error is ONE operation, `State.raiseError` (spec/60_exceptions.md R318), and its
return stands beside it (R319). -/

namespace Sys2Proof.Machine

/-! ### Memories -/

/-- The value at an index; `none` where it is unspecified (R61). -/
def Memory.read {α : Type} : Memory α → Nat → Option α
  | [], _ => none
  | (k, v) :: m, a => if k = a then some v else Memory.read m a

/-- Write one index, keeping the indices strictly rising. -/
def Memory.write {α : Type} : Memory α → Nat → α → Memory α
  | [], a, v => [(a, v)]
  | (k, w) :: m, a, v =>
    if a < k then (a, v) :: (k, w) :: m
    else if a = k then (a, v) :: m
    else (k, w) :: Memory.write m a v

/-- The n values from an index on (`MemRead` of R13), or the first index that is unspecified. -/
def Memory.readRange {α : Type} (m : Memory α) : Nat → Nat → Except Nat (List α)
  | _, 0 => .ok []
  | a, n + 1 =>
    match m.read a with
    | none => .error a
    | some v =>
      match Memory.readRange m (a + 1) n with
      | .error k => .error k
      | .ok vs => .ok (v :: vs)

/-- Write the values from an index on (`MemWrite` of R13). -/
def Memory.writeRange {α : Type} : Memory α → Nat → List α → Memory α
  | m, _, [] => m
  | m, a, v :: vs => Memory.writeRange (m.write a v) (a + 1) vs

/-- Write one value to every index below n. -/
def Memory.fillBelow {α : Type} (m : Memory α) (n : Nat) (v : α) : Memory α :=
  m.writeRange 0 (List.replicate n v)

/-! ### Reads that a command's computation makes (R61: an unspecified memory is UNSPEC_READ) -/

/-- A value, or the fault UNSPEC_READ: "A model must not pick one. A core read of unspecified state in a command's
computation is a model fault" (R61; 60_exceptions.md R327; 93_implementation_defined.md U2). -/
def orUnspec {α : Type} (src : UnspecSource) : Option α → Except Fault α
  | some v => .ok v
  | none => .error (.unspecRead src)

/-- `MTX[k]` (R50). -/
def State.readMtx (s : State) (k : Nat) : Except Fault Block := orUnspec (.mtx k) (s.mtx.read k)

/-- What a working register holds; WB0 always reads as zero (R53). -/
def Working.held (w : Working) : WbReg → Held Block
  | .zero => .written zeroBlock
  | .ain => w.ain
  | .ablk => w.ablk
  | .fin => w.fin
  | .t0 => w.t0
  | .t1 => w.t1
  | .t2 => w.t2
  | .t3 => w.t3

/-- Write a working register, which is specified from then on (R61); WB0 discards writes (R53). -/
def Working.set (w : Working) (r : WbReg) (B : Block) : Working :=
  match r with
  | .zero => w
  | .ain => { w with ain := .written B }
  | .ablk => { w with ablk := .written B }
  | .fin => { w with fin := .written B }
  | .t0 => { w with t0 := .written B }
  | .t1 => { w with t1 := .written B }
  | .t2 => { w with t2 := .written B }
  | .t3 => { w with t3 := .written B }

/-- WB1 .. WB7 all zero (R296, R300). -/
def Working.cleared : Working :=
  { ain := .written zeroBlock, ablk := .written zeroBlock, fin := .written zeroBlock
    t0 := .written zeroBlock, t1 := .written zeroBlock, t2 := .written zeroBlock, t3 := .written zeroBlock }

/-- `WB[n]` (R52, R53): the value the register holds, whether it is specified or not (notes/assumptions/20.md). -/
def State.readWb (s : State) (r : WbReg) : Block := (s.wb.held r).value

/-- `BlkRead(sel)` of R13, for the block a valid selector names (R116). -/
def State.readBlock (s : State) : BlockRef → Except Fault Block
  | .mtx k => s.readMtx k
  | .wb r => .ok (s.readWb r)

/-- `MemRead(MSG, off, n)` of R13. "Reading MSG bytes never written since reset is a model fault" (40_vlhash.md R142,
41_block.md R163, 45_engine.md R282). -/
def State.readMsg (s : State) (off n : Nat) : Except Fault (List Byte) :=
  match s.msg.readRange off n with
  | .ok bs => .ok bs
  | .error k => .error (.unspecRead (.msg k))

/-- The 64 bytes of H0 (R54): the value the register holds, whether it is specified or not. -/
def State.readH0 (s : State) : Vector Byte 64 := s.h0.value

/-! ### The record of a read of an unspecified register (R61, R327: "The model records a fault") -/

/-- Record the read of a register that is specified or not. -/
def State.note (s : State) (specified : Bool) : State := { s with unspecRead := s.unspecRead || !specified }

/-- Record a command's read of a working register. -/
def State.noteWb (s : State) (r : WbReg) : State := s.note (s.wb.held r).specified

/-- Record a command's read of the block a selector names. An unspecified matrix block has stopped it before. -/
def State.noteBlock (s : State) : BlockRef → State
  | .mtx _ => s
  | .wb r => s.noteWb r

/-- Record a command's read of H0. -/
def State.noteH0 (s : State) : State := s.note s.h0.specified

/-! ### Writes -/

/-- `MTX[k] <- B` (R50). -/
def State.writeMtx (s : State) (k : Nat) (B : Block) : State := { s with mtx := s.mtx.write k B }

/-- `WB[n] <- B` (R52). -/
def State.writeWb (s : State) (r : WbReg) (B : Block) : State := { s with wb := s.wb.set r B }

/-- `BlkWrite(sel, B)` of R13. -/
def State.writeBlock (s : State) (r : BlockRef) (B : Block) : State :=
  match r with
  | .mtx k => s.writeMtx k B
  | .wb w => s.writeWb w B

/-- `MemWrite(OBUF, off, n, bytes)` of R13. -/
def State.writeObuf (s : State) (off : Nat) (bs : List Byte) : State :=
  { s with obuf := s.obuf.writeRange off bs }

/-- `H0 <- bytes` (R54). -/
def State.writeH0 (s : State) (h : Vector Byte 64) : State := { s with h0 := .written h }

/-- `RES[n] <- v` (R47). -/
def State.writeRes (s : State) (n : Fin 4) (v : Word) : State := { s with res := s.res.set n v }

/-- A validated configuration: the geometry registers and CFG <- 1 (45_engine.md R272). -/
def State.configure (s : State) (g : Geometry) : State := { s with geom := g, cfg := true }

/-- CFG <- 0 and the geometry registers <- 0 (R48, R274). -/
def State.clearConfig (s : State) : State := { s with geom := Geometry.zero, cfg := false }

/-- The inputs still to come (notes/assumptions/1.md). -/
def State.setAgenda (s : State) (l : List Event) : State := { s with agenda := l }

/-! ### The life of a command (45_engine.md R270) -/

/-- STATUS.BUSY: the latch is valid exactly when BUSY = 1 (R59). -/
def State.busy (s : State) : Bool := s.latch.isSome

/-- Issue, of a command word while BUSY = 0 (R270). -/
def State.issue (s : State) (v : Word) : State :=
  { s with latch := some v, done := false, err := false, errCode := .none }

/-- Completion: DONE <- 1, BUSY <- 0 (R270). -/
def State.complete (s : State) : State := { s with done := true, latch := none }

/-- Error entry (60_exceptions.md R318): ERR <- 1, ERRCODE <- code, BUSY <- 0, and nothing else. "Nothing else is
saved. There is no trap vector, handler address, saved program counter, mode change, mask change or stack." -/
def State.raiseError (s : State) (e : ErrCode) : State :=
  { s with err := true, errCode := e, latch := none }

/-- Error return, and the other W1C bits (R35, R319): the host writes v to STATUS. A 1 in bit 1 clears DONE, in
bit 2 clears ERR and ERRCODE, in bit 3 clears WIGN; a 0 leaves the bit unchanged. -/
def State.writeStatus (s : State) (v : Word) : State :=
  { s with
    done := s.done && !v.getLsbD 1
    err := s.err && !v.getLsbD 2
    errCode := if v.getLsbD 2 then .none else s.errCode
    wign := s.wign && !v.getLsbD 3 }

/-- End a command whose checks have passed: its effect and completion, or the fault UNSPEC_READ (R61, R270). -/
def finish : Except Fault State → Step
  | .ok s => .next s.complete
  | .error f => .fault f

/-- End a command in a core error: an ordinary next state (R327). -/
def failWith (s : State) (e : ErrCode) : Step := .next (s.raiseError e)

/-! ### Loops -/

/-- `for v = a .. a+n-1: body` (R13), ended by a fault. -/
def forRange {σ : Type} (a : Nat) : Nat → (Nat → σ → Except Fault σ) → σ → Except Fault σ
  | 0, _, s => .ok s
  | n + 1, body, s =>
    match body a s with
    | .error f => .error f
    | .ok s' => forRange (a + 1) n body s'

/-! ### Reset (70_reset_and_hazards.md R340, R341) -/

/-- The reset input: the table of R340. The capability registers are constants; the inputs still to come, the
host's last read value, the draw counter and the recorded fault are not the core's (notes/assumptions/13.md). What the
unspecified registers hold is free again, under the next number of the draw counter: not "their values from before the
reset" (R340). -/
def State.hardReset (s : State) : State :=
  { State.reset with
    caps := s.caps, agenda := s.agenda, rdata := s.rdata
    wb := Working.atReset (s.draws + 1), h0 := .unspecified (Config.h0AtReset (s.draws + 1))
    draws := s.draws + 1, unspecRead := s.unspecRead }

end Sys2Proof.Machine
end

