-- ==== Sys2Proof/Machine/Flags.lean ====
section
/-! DEFINITION. The STATUS word, the error codes and the interrupt output (spec/10_state.md R35, R60; 60_exceptions.md
R311, R320). "No flags or condition codes exist beyond the STATUS bits of rule R35" (R62). -/

namespace Sys2Proof.Machine

/-- The 8-bit code of R311. -/
def ErrCode.code : ErrCode → Byte
  | .none => 0x00
  | .illegalCmd => 0x01
  | .badOperand => 0x02
  | .notConfigured => 0x03
  | .cfgLanes => 0x10
  | .cfgMemory => 0x11
  | .cfgIter => 0x12
  | .cfgOutlen => 0x13
  | .cfgVersion => 0x14
  | .cfgType => 0x15
  | .resMatrix => 0x20
  | .resMsg => 0x21
  | .resObuf => 0x22

/-- STATUS as the host reads it (R32, R35): BUSY [0], DONE [1], ERR [2], WIGN [3], CFG [4], ERRCODE [15:8]; the
reserved bits [7:5] and [63:16] read zero. -/
def State.statusWord (s : State) : Word :=
  0#48 ++ s.errCode.code ++ 0#3 ++ BitVec.ofBool s.cfg ++ BitVec.ofBool s.wign ++
    BitVec.ofBool s.err ++ BitVec.ofBool s.done ++ BitVec.ofBool s.busy

/-- CTRL as the host reads it (R34): IE in bit 0, the reserved bits zero. -/
def State.ctrlWord (s : State) : Word := (BitVec.ofBool s.ie).setWidth 64

/-- The IRQ output: `CTRL.IE & (STATUS.DONE | STATUS.ERR)` (R60, R320). -/
def State.irq (s : State) : Bool := s.ie && (s.done || s.err)

end Sys2Proof.Machine
end

