-- ==== Sys2Proof/Machine/Operands.lean ====
section
/-! DEFINITION. Operand assembly (spec/30_encoding.md R113, R115-R119): ARG registers, block selectors, byte
ranges and scalar limits. Every operand is the full 64-bit unsigned value of its ARG register (R115). -/

namespace Sys2Proof.Machine

/-! ### Register values as natural numbers -/

/-- The operand register ARGn (R46, R113). -/
def State.arg (s : State) (n : Fin 6) : Word := s.args[n]

/-- ARGn as an unsigned number (R115). -/
def State.argNat (s : State) (n : Fin 6) : Nat := (s.arg n).toNat

/-- MEMBLOCKS (R43). -/
def State.memBlocks (s : State) : Nat := s.geom.memBlocks.toNat
/-- LANELEN, q (R43). -/
def State.laneLen (s : State) : Nat := s.geom.laneLen.toNat
/-- SEGLEN, seg (R43). -/
def State.segLen (s : State) : Nat := s.geom.segLen.toNat
/-- LANES, p (R40). -/
def State.lanes (s : State) : Nat := s.params.lanes.toNat
/-- ITER, t (R38). -/
def State.iter (s : State) : Nat := s.params.iter.toNat
/-- TYPE, y (R36). -/
def State.type (s : State) : Nat := s.params.type.toNat
/-- OUTLEN (R41). -/
def State.outLen (s : State) : Nat := s.params.outLen.toNat

/-! ### Block selectors (R116, R117) -/

/-- The number of a working block (R52, R116). -/
def wbNumber : WbReg → Nat
  | .zero => 0 | .ain => 1 | .ablk => 2 | .fin => 3 | .t0 => 4 | .t1 => 5 | .t2 => 6 | .t3 => 7

/-- The working block of a number `sel[2:0]` (R116). -/
def wbOfNumber (n : BitVec 3) : WbReg :=
  match n with
  | 0#3 => .zero | 1#3 => .ain | 2#3 => .ablk | 3#3 => .fin
  | 4#3 => .t0 | 5#3 => .t1 | 6#3 => .t2 | 7#3 => .t3

/-- The block a selector names, for a given MEMBLOCKS; `none` where the selector is not valid (R116). -/
def blockOfSelector (memBlocks : Nat) (sel : Word) : Option BlockRef :=
  if sel.getLsbD 63 = false then
    if sel.toNat < memBlocks then some (.mtx sel.toNat) else none
  else if sel.extractLsb' 3 60 = 0 then some (.wb (wbOfNumber (sel.extractLsb' 0 3)))
  else none

/-- A source selector in ARGn: any valid selector, WB0 too (R116, R117). -/
def State.sourceBlock (s : State) (n : Fin 6) : Option BlockRef := blockOfSelector s.memBlocks (s.arg n)

/-- A destination selector in ARGn: a valid selector that does not name WB0 (R117). -/
def State.destBlock (s : State) (n : Fin 6) : Option BlockRef :=
  match s.sourceBlock n with
  | some (.wb .zero) => none
  | r => r

/-- The selector value the assembler writes for a block (R116): k for `M[k]`, 2^63 + n for `WBn`. -/
def selectorOf : BlockRef → Word
  | .mtx k => BitVec.ofNat 64 k
  | .wb r => BitVec.ofNat 64 (2 ^ 63 + wbNumber r)

/-! ### Byte ranges and scalars (R118, R119) -/

/-- A byte range inside a buffer; the sum is unbounded (R118). -/
def rangeOk (off len cap : Nat) : Bool := off + len ≤ cap

/-- HPRIME's output length: 1 <= T <= OBUF_BYTES (R119). -/
def State.hprimeLenOk (s : State) (T : Nat) : Bool := 1 ≤ T && T ≤ s.caps.obufBytes

/-- pass < ITER (R119). -/
def State.passOk (s : State) (pass : Nat) : Bool := pass < s.iter
/-- slice < 4 (R119). -/
def sliceOk (slice : Nat) : Bool := slice < Config.syncPoints
/-- lane < LANES (R119). -/
def State.laneOk (s : State) (lane : Nat) : Bool := lane < s.lanes
/-- i < SEGLEN, and i >= 2 when pass = 0 and slice = 0 (R119). -/
def State.indexOk (s : State) (pass slice i : Nat) : Bool :=
  i < s.segLen && !(pass == 0 && slice == 0 && i < 2)
/-- g < 16 (R119). -/
def groupOk (g : Nat) : Bool := g < 16

/-! ### Order of checks (R120) -/

/-- Step 2 of R120: a command that needs CFG = 1 fails with NOT_CONFIGURED while CFG = 0 (R112, R312). -/
def requireConfigured (s : State) (body : Step) : Step :=
  if s.cfg then body else failWith s .notConfigured

/-- Step 3 of R120: BAD_OPERAND unless every operand check passes (R312). The checks all give the same error, so
their order cannot be seen. -/
def requireOperands (s : State) (ok : Bool) (body : Step) : Step :=
  if ok then body else failWith s .badOperand

end Sys2Proof.Machine
end

