-- ==== Sys2Proof/Machine/Bus.lean ====
section
/-! DEFINITION. What one host access does (spec/10_state.md R31-R49, R55, R56; 20_memory.md R82, R84, R87, R88, R92). -/

namespace Sys2Proof.Machine

/-- What a host offset names (R32). -/
inductive HostReg where
  | ctrl | status | cmd
  | param (p : ParamReg)
  | memBlocks | segLen | laneLen
  | arg (n : Fin 6)
  | res (n : Fin 4)
  | capBlocks | capMsg | capObuf
  | reserved
  | msg (k : Nat)
  | obuf (k : Nat)
deriving DecidableEq, Repr

/-- The register map below 0xE8, by word number, offset / 8 (R32). -/
def lowReg (n : Nat) : HostReg :=
  match n with
  | 0 => .ctrl
  | 1 => .status
  | 2 => .cmd
  | 3 => .param .type
  | 4 => .param .version
  | 5 => .param .iter
  | 6 => .param .memKib
  | 7 => .param .lanes
  | 8 => .param .outLen
  | 9 => .param .pwdLen
  | 10 => .param .saltLen
  | 11 => .param .secretLen
  | 12 => .param .adLen
  | 13 => .memBlocks
  | 14 => .segLen
  | 15 => .laneLen
  | 16 => .arg 0
  | 17 => .arg 1
  | 18 => .arg 2
  | 19 => .arg 3
  | 20 => .arg 4
  | 21 => .arg 5
  | 22 => .res 0
  | 23 => .res 1
  | 24 => .res 2
  | 25 => .res 3
  | 26 => .capBlocks
  | 27 => .capMsg
  | 28 => .capObuf
  | _ => .reserved

/-- The register map of R32, for an aligned offset inside the window. -/
def hostReg (off : Nat) : HostReg :=
  if 0x20000 ≤ off then .obuf (off - 0x20000)
  else if 0x10000 ≤ off then .msg (off - 0x10000)
  else lowReg (off / 8)

/-- The value of a parameter register. -/
def Params.get (p : Params) : ParamReg → Half
  | .type => p.type
  | .version => p.version
  | .iter => p.iter
  | .memKib => p.memKib
  | .lanes => p.lanes
  | .outLen => p.outLen
  | .pwdLen => p.pwdLen
  | .saltLen => p.saltLen
  | .secretLen => p.secretLen
  | .adLen => p.adLen

/-- A parameter register written. -/
def Params.set (p : Params) (r : ParamReg) (v : Half) : Params :=
  match r with
  | .type => { p with type := v }
  | .version => { p with version := v }
  | .iter => { p with iter := v }
  | .memKib => { p with memKib := v }
  | .lanes => { p with lanes := v }
  | .outLen => { p with outLen := v }
  | .pwdLen => { p with pwdLen := v }
  | .saltLen => { p with saltLen := v }
  | .secretLen => { p with secretLen := v }
  | .adLen => { p with adLen := v }

/-! ### Reads -/

/-- Byte lane j of a buffer read at k: the buffer's byte, zero beyond the capacity (R82), the draw's byte where
the buffer's byte is unspecified (R61, U3; notes/assumptions/4.md). -/
def windowByte (m : Memory Byte) (cap k : Nat) (draw : Word) (j : Nat) : Byte :=
  if cap ≤ k + j then 0
  else match m.read (k + j) with
    | some b => b
    | none => draw.extractLsb' (8 * j) 8

/-- An 8-byte read of a buffer window at byte k (R82). -/
def windowRead (m : Memory Byte) (cap k : Nat) (draw : Word) : Word :=
  leWord ((List.range 8).map (windowByte m cap k draw))

/-- What a host read of a register returns, given the draw of this read (R32, R49, R82, R92). -/
def State.regValue (s : State) (draw : Word) : HostReg → Word
  | .ctrl => s.ctrlWord
  | .status => s.statusWord
  | .cmd => 0
  | .param p => (s.params.get p).setWidth 64
  | .memBlocks => s.geom.memBlocks.setWidth 64
  | .segLen => s.geom.segLen.setWidth 64
  | .laneLen => s.geom.laneLen.setWidth 64
  | .arg n => s.arg n
  | .res n => if s.busy then draw else s.res[n]
  | .capBlocks => BitVec.ofNat 64 s.caps.maxBlocks
  | .capMsg => BitVec.ofNat 64 s.caps.msgBytes
  | .capObuf => BitVec.ofNat 64 s.caps.obufBytes
  | .reserved => 0
  | .msg k => if s.busy then draw else windowRead s.msg s.caps.msgBytes k draw
  | .obuf k => if s.busy then draw else windowRead s.obuf s.caps.obufBytes k draw

/-- A host read (R87): no effect but the value returned. Each read has a draw of its own. -/
def State.hostRead (s : State) (off : Nat) : State :=
  { s with rdata := s.regValue (Config.draw s.draws) (hostReg off), draws := s.draws + 1 }

/-! ### Writes -/

/-- An 8-byte write of a buffer window at byte k: bytes at or beyond the capacity are ignored (R82). -/
def windowWrite (m : Memory Byte) (cap k : Nat) (v : Word) : Memory Byte :=
  m.writeRange k ((le64 v).take (cap - k))

/-- CTRL written: IE from bit 0 (R34). -/
def State.writeCtrl (s : State) (v : Word) : State := { s with ie := v.getLsbD 0 }

/-- A parameter register written: bits [31:0] (R49), and CFG and the geometry cleared (R48). -/
def State.writeParam (s : State) (p : ParamReg) (v : Word) : State :=
  { s with params := s.params.set p (v.setWidth 32) }.clearConfig

/-- ARGn written by the host (R46). -/
def State.writeArg (s : State) (n : Fin 6) (v : Word) : State := { s with args := s.args.set n v }

/-- A write ignored because BUSY = 1: WIGN <- 1 (R92). -/
def State.ignoreWrite (s : State) : State := { s with wign := true }

/-- A host write while BUSY = 0 (R32). Read-only and reserved registers ignore it. -/
def State.writeIdle (s : State) (v : Word) : HostReg → State
  | .ctrl => s.writeCtrl v
  | .status => s.writeStatus v
  | .cmd => s.issue v
  | .param p => s.writeParam p v
  | .arg n => s.writeArg n v
  | .msg k => { s with msg := windowWrite s.msg s.caps.msgBytes k v }
  | .obuf k => { s with obuf := windowWrite s.obuf s.caps.obufBytes k v }
  | .memBlocks | .segLen | .laneLen | .res _ | .capBlocks | .capMsg | .capObuf | .reserved => s

/-- A host write while BUSY = 1 (R92): CTRL and STATUS as usual, any other offset is ignored and sets WIGN. -/
def State.writeBusy (s : State) (v : Word) : HostReg → State
  | .ctrl => s.writeCtrl v
  | .status => s.writeStatus v
  | .cmd | .param _ | .arg _ | .msg _ | .obuf _ => s.ignoreWrite
  | .memBlocks | .segLen | .laneLen | .res _ | .capBlocks | .capMsg | .capObuf | .reserved => s.ignoreWrite

/-- A host write (R92). -/
def State.hostWrite (s : State) (off : Nat) (v : Word) : State :=
  if s.busy then s.writeBusy v (hostReg off) else s.writeIdle v (hostReg off)

/-- One host access: refused unless it is 8 bytes wide, aligned (R84) and inside the window (R88). -/
def State.hostAccess (s : State) (a : HostAccess) : Step :=
  if !a.aligned then .refused .hostAccessShape
  else if !a.inWindow then .refused .hostAccessBeyondWindow
  else match a with
    | .read off _ => .next (s.hostRead off)
    | .write off _ v => .next (s.hostWrite off v)

end Sys2Proof.Machine
end

