-- ==== Sys2Proof/Machine/Compressor.lean ====
section
/-! DEFINITION. The compressor: BlaMka, G, the round function P, the index groups and F (spec/42_compressor.md
R180-R185), and the commands BLAMKA, GMIX, PROUND, FBLOCK and FBLOCKX (R186-R190). -/

namespace Sys2Proof.Machine

/-- `BlaMka(a, b)` of R180, modulo 2^64. -/
def blaMka (a b : Word) : Word := a + b + 2 * (lo32 a * lo32 b)

/-- The four words G returns. -/
structure Quad where
  a : Word
  b : Word
  c : Word
  d : Word
deriving DecidableEq, Repr

/-- `G(a, b, c, d)` of R181. -/
def mixG (a b c d : Word) : Quad :=
  let a := blaMka a b
  let d := rotr64 (d ^^^ a) 32
  let c := blaMka c d
  let b := rotr64 (b ^^^ c) 24
  let a := blaMka a b
  let d := rotr64 (d ^^^ a) 16
  let c := blaMka c d
  let b := rotr64 (b ^^^ c) 63
  { a := a, b := b, c := c, d := d }

/-- G on four words of a vector, in place. -/
def mixAt {n : Nat} (v : Vector Word n) (a b c d : Fin n) : Vector Word n :=
  let q := mixG v[a] v[b] v[c] v[d]
  (((v.set a q.a).set b q.b).set c q.c).set d q.d

/-- The round function P of R182 on the 16 words that `idx` names: eight calls of G, each updating its four
words in place. -/
def roundOn {n : Nat} (idx : Fin 16 → Fin n) (v : Vector Word n) : Vector Word n :=
  let v := mixAt v (idx 0) (idx 4) (idx 8) (idx 12)
  let v := mixAt v (idx 1) (idx 5) (idx 9) (idx 13)
  let v := mixAt v (idx 2) (idx 6) (idx 10) (idx 14)
  let v := mixAt v (idx 3) (idx 7) (idx 11) (idx 15)
  let v := mixAt v (idx 0) (idx 5) (idx 10) (idx 15)
  let v := mixAt v (idx 1) (idx 6) (idx 11) (idx 12)
  let v := mixAt v (idx 2) (idx 7) (idx 8) (idx 13)
  mixAt v (idx 3) (idx 4) (idx 9) (idx 14)

/-- The number `idx_g[j]` of R183: rows g = 0..7, then columns g = 8..15. -/
def groupIndex (g j : Nat) : Nat :=
  if g < 8 then 16 * g + j else 2 * (g - 8) + 16 * (j / 2) + j % 2

/-- Word j of group g as an index of a block. For g < 16 and j < 16, `groupIndex` is below 128. -/
def groupWord (g : Nat) (j : Fin 16) : Fin 128 := Fin.ofNat 128 (groupIndex g j.val)

/-- Apply index group g to a block (R183). -/
def applyGroup (g : Nat) (Z : Block) : Block := roundOn (groupWord g) Z

/-- `F(X, Y)` of R184: groups 0 .. 15 in order on R = X ^ Y, then XOR with R. -/
def compressF (X Y : Block) : Block :=
  let R := xorInto X Y
  xorInto R ((List.range 16).foldl (fun Z g => applyGroup g Z) R)

/-- `Fx(X, Y, D)` of R185. -/
def compressFx (X Y D : Block) : Block := xorInto (compressF X Y) D

/-- BLAMKA (R186): RES0 <- BlaMka(ARG0, ARG1). -/
def execBlamka (s : State) : Step :=
  finish (.ok (s.writeRes 0 (blaMka (s.arg 0) (s.arg 1))))

/-- GMIX (R187): RES0 .. RES3 <- G(ARG0 .. ARG3). -/
def execGmix (s : State) : Step :=
  let q := mixG (s.arg 0) (s.arg 1) (s.arg 2) (s.arg 3)
  finish (.ok ((((s.writeRes 0 q.a).writeRes 1 q.b).writeRes 2 q.c).writeRes 3 q.d))

/-- PROUND (R188): ARG0 = block, read and written; ARG1 = group. -/
def execPround (s : State) : Step :=
  match s.destBlock 0 with
  | some d =>
    requireOperands s (groupOk (s.argNat 1))
      (finish do
        let Z ← s.readBlock d
        return (s.noteBlock d).writeBlock d (applyGroup (s.argNat 1) Z))
  | none => failWith s .badOperand

/-- FBLOCK (R189): ARG0 = destination, ARG1 = X, ARG2 = Y. -/
def execFblock (s : State) : Step :=
  match s.destBlock 0, s.sourceBlock 1, s.sourceBlock 2 with
  | some d, some x, some y =>
    finish do
      let X ← s.readBlock x
      let Y ← s.readBlock y
      return ((s.noteBlock x).noteBlock y).writeBlock d (compressF X Y)
  | _, _, _ => failWith s .badOperand

/-- FBLOCKX (R190): ARG0 = destination, read too; ARG1 = X, ARG2 = Y; all read before the write. -/
def execFblockx (s : State) : Step :=
  match s.destBlock 0, s.sourceBlock 1, s.sourceBlock 2 with
  | some d, some x, some y =>
    finish do
      let X ← s.readBlock x
      let Y ← s.readBlock y
      let D ← s.readBlock d
      return (((s.noteBlock x).noteBlock y).noteBlock d).writeBlock d (compressFx X Y D)
  | _, _, _ => failWith s .badOperand

end Sys2Proof.Machine
end

