-- ==== Sys2Proof/Machine/Address.lean ====
section
/-! DEFINITION. The pseudo-random address generator (spec/43_address.md R210, R211, R216) and its commands AINIT, ANEXT
and AWORD (R212-R214). Its state is WB1 (AIN) and WB2 (ABLK) and nothing else (10_state.md R57). -/

namespace Sys2Proof.Machine

/-- The input block of R210, for one segment, with counter 0. -/
def inputBlock (pass lane slice memBlocks iter type : Nat) : Block :=
  Vector.ofFn fun k =>
    match k.val with
    | 0 => BitVec.ofNat 64 pass
    | 1 => BitVec.ofNat 64 lane
    | 2 => BitVec.ofNat 64 slice
    | 3 => BitVec.ofNat 64 memBlocks
    | 4 => BitVec.ofNat 64 iter
    | 5 => BitVec.ofNat 64 type
    | _ => 0

/-- WB1 <- the input block of a segment (R210, R212). -/
def State.seedAddress (s : State) (pass lane slice : Nat) : State :=
  s.writeWb .ain (inputBlock pass lane slice s.memBlocks s.iter s.type)

/-- The input block with its counter, word 6, incremented modulo 2^64 (R211). -/
def bumpCounter (A : Block) : Block := A.set 6 (A[6] + 1)

/-- The address block of an input block: `F(ZERO, F(ZERO, A))` (R211). -/
def addressBlock (A : Block) : Block := compressF zeroBlock (compressF zeroBlock A)

/-- `Generate()` of R211: the counter first, then ABLK. -/
def State.generate (s : State) : State :=
  let A := bumpCounter (s.readWb .ain)
  (s.writeWb .ain A).writeWb .ablk (addressBlock A)

/-- AINIT (R212): ARG0 = pass, ARG1 = lane, ARG2 = slice. -/
def execAinit (s : State) : Step :=
  requireConfigured s
    (requireOperands s (s.passOk (s.argNat 0) && s.laneOk (s.argNat 1) && sliceOk (s.argNat 2))
      (finish (.ok (s.seedAddress (s.argNat 0) (s.argNat 1) (s.argNat 2)))))

/-- ANEXT (R213): one generation. Its read of AIN, and AWORD's of ABLK, is recorded where it is unspecified. -/
def execAnext (s : State) : Step := finish (.ok (s.noteWb .ain).generate)

/-- AWORD (R214): RES0 <- ABLK.w[ARG0 mod 128]. -/
def execAword (s : State) : Step :=
  finish (.ok ((s.noteWb .ablk).writeRes 0 (wordOf (s.readWb .ablk) (s.argNat 0))))

end Sys2Proof.Machine
end

