-- ==== Sys2Proof/Machine/BlockOps.lean ====
section
/-! DEFINITION. The block commands BXOR, BCLEAR, BTOBYTES and BFROMBYTES (spec/41_block.md R161-R164). Every operand
block is read before the destination is written (00_scope.md R15). -/

namespace Sys2Proof.Machine

/-- BXOR (R161): ARG0 = destination, ARG1 and ARG2 = sources. -/
def execBxor (s : State) : Step :=
  match s.destBlock 0, s.sourceBlock 1, s.sourceBlock 2 with
  | some d, some a, some b =>
    finish do
      let A ← s.readBlock a
      let B ← s.readBlock b
      return ((s.noteBlock a).noteBlock b).writeBlock d (xorInto A B)
  | _, _, _ => failWith s .badOperand

/-- BCLEAR (R164): ARG0 = destination. -/
def execBclear (s : State) : Step :=
  match s.destBlock 0 with
  | some d => finish (.ok (s.writeBlock d zeroBlock))
  | none => failWith s .badOperand

/-- BTOBYTES (R162): ARG0 = source, ARG1 = OBUF offset. -/
def execBtobytes (s : State) : Step :=
  match s.sourceBlock 0 with
  | some a =>
    requireOperands s (rangeOk (s.argNat 1) Config.blockBytes s.caps.obufBytes)
      (finish do
        let B ← s.readBlock a
        return (s.noteBlock a).writeObuf (s.argNat 1) (toBytes B))
  | none => failWith s .badOperand

/-- BFROMBYTES (R163): ARG0 = destination, ARG1 = MSG offset. -/
def execBfrombytes (s : State) : Step :=
  match s.destBlock 0 with
  | some d =>
    requireOperands s (rangeOk (s.argNat 1) Config.blockBytes s.caps.msgBytes)
      (finish do
        let bs ← s.readMsg (s.argNat 1) Config.blockBytes
        return s.writeBlock d (fromBytes bs))
  | none => failWith s .badOperand

end Sys2Proof.Machine
end

