-- ==== Sys2Proof/Machine/Filler.lean ====
section
/-! DEFINITION. The memory-matrix filler (spec/44_filler.md R230-R243) and its commands REFINDEX, FSEG and FMATRIX
(R244, R245, R247). In the index functions p = LANES, q = LANELEN, seg = SEGLEN. -/

namespace Sys2Proof.Machine

/-! ### Index arithmetic -/

/-- `startIndex(pass, slice)` (R231). -/
def startIndex (pass slice : Nat) : Nat := if pass = 0 ∧ slice = 0 then 2 else 0

/-- The column of the block at segment index i (R232). -/
def currentColumn (seg slice i : Nat) : Nat := slice * seg + i

/-- The column of the previous block, wrapping within the lane (R232). -/
def previousColumn (q seg slice i : Nat) : Nat :=
  if currentColumn seg slice i > 0 then currentColumn seg slice i - 1 else q - 1

/-- The flat index of a lane and a column (10_state.md R51). -/
def flatIndex (q lane col : Nat) : Nat := lane * q + col

/-- The reference lane (R234). -/
def referenceLane (p pass slice lane : Nat) (J : Word) : Nat :=
  if pass = 0 ∧ slice = 0 then lane else (hi32 J).toNat % p

/-- The reference-area size A (R235). -/
def areaSize (q seg pass slice i : Nat) (sameLane : Bool) : Nat :=
  if pass = 0 then
    if slice = 0 then i - 1
    else if sameLane then slice * seg + i - 1
    else slice * seg - (if i = 0 then 1 else 0)
  else
    if sameLane then q - seg + i - 1
    else q - seg - (if i = 0 then 1 else 0)

/-- The start position of the reference area (R236). -/
def areaStart (seg pass slice : Nat) : Nat :=
  if pass = 0 then 0 else if slice = 3 then 0 else (slice + 1) * seg

/-- The relative position (R237): `A - 1 - ((A * ((J1 * J1) >> 32)) >> 32)`. -/
def relativePosition (A J1 : Nat) : Nat := A - 1 - (A * ((J1 * J1) / 2 ^ 32)) / 2 ^ 32

/-- The coordinates of a reference block (R234-R238). -/
structure Reference where
  lane : Nat
  area : Nat
  col : Nat
  flat : Nat
deriving DecidableEq, Repr

/-- The reference block of the block at segment index i of segment (pass, slice, lane), for J (R234-R238). -/
def reference (p q seg pass slice lane i : Nat) (J : Word) : Reference :=
  let refLane := referenceLane p pass slice lane J
  let A := areaSize q seg pass slice i (refLane == lane)
  let col := (areaStart seg pass slice + relativePosition A (lo32 J).toNat) % q
  { lane := refLane, area := A, col := col, flat := flatIndex q refLane col }

/-! ### Filling -/

/-- The addressing mode of a segment is data-independent (R230). -/
def State.dataIndependent (s : State) (pass slice : Nat) : Bool :=
  s.type == 1 || (s.type == 2 && pass == 0 && slice < 2)

/-- `XorPolicy(pass)` (R243). -/
def State.xorPolicy (s : State) (pass : Nat) : Bool := 0 < pass && s.params.version == 0x13

/-- The generation step before the block at index i (R240). AIN is specified here, since the segment has seeded it. -/
def State.regenerate (s : State) (pass slice i : Nat) : State :=
  if s.dataIndependent pass slice && (i == startIndex pass slice || i % Config.addressesInBlock == 0)
  then s.generate else s

/-- The pseudo-random value J of the block at index i (R233). ABLK is specified where it is read here, since the
generation step at the segment's first index has written it. -/
def State.pseudoRandom (s : State) (pass slice lane i : Nat) : Except Fault Word :=
  if s.dataIndependent pass slice then .ok (wordOf (s.readWb .ablk) i)
  else do
    let B ← s.readMtx (flatIndex s.laneLen lane (previousColumn s.laneLen s.segLen slice i))
    return wordOf B 0

/-- The reference block of a position, with the geometry and LANES of the state. -/
def State.referenceOf (s : State) (pass slice lane i : Nat) (J : Word) : Reference :=
  reference s.lanes s.laneLen s.segLen pass slice lane i J

/-- Compute the block at segment index i of segment (pass, slice, lane) (R241): the previous, the reference and,
under the XOR policy, the current block are read before the write. -/
def State.fillBlock (s : State) (pass slice lane i : Nat) : Except Fault State := do
  let s := s.regenerate pass slice i
  let J ← s.pseudoRandom pass slice lane i
  let cur := flatIndex s.laneLen lane (currentColumn s.segLen slice i)
  let prev := flatIndex s.laneLen lane (previousColumn s.laneLen s.segLen slice i)
  let X ← s.readMtx prev
  let Y ← s.readMtx (s.referenceOf pass slice lane i J).flat
  if s.xorPolicy pass then
    let D ← s.readMtx cur
    return s.writeMtx cur (compressFx X Y D)
  else
    return s.writeMtx cur (compressF X Y)

/-- The state a segment's loop starts from: AIN seeded, if the segment is data-independent (R240). -/
def State.enterSegment (s : State) (pass slice lane : Nat) : State :=
  if s.dataIndependent pass slice then s.seedAddress pass lane slice else s

/-- Fill segment (pass, slice, lane): indices startIndex .. SEGLEN-1 in increasing order (R239, R245). -/
def State.fillSegment (s : State) (pass slice lane : Nat) : Except Fault State :=
  forRange (startIndex pass slice) (s.segLen - startIndex pass slice)
    (fun i s => s.fillBlock pass slice lane i) (s.enterSegment pass slice lane)

/-- One slice of one pass: every lane's segment, in ascending lane order (R247, D35). -/
def State.fillSlice (s : State) (pass slice : Nat) : Except Fault State :=
  forRange 0 s.lanes (fun lane s => s.fillSegment pass slice lane) s

/-- One pass: the four slices in order (R93, R247). -/
def State.fillPass (s : State) (pass : Nat) : Except Fault State :=
  forRange 0 Config.syncPoints (fun slice s => s.fillSlice pass slice) s

/-- The whole filler: ITER passes (R247). -/
def State.fillMatrix (s : State) : Except Fault State :=
  forRange 0 s.iter (fun pass s => s.fillPass pass) s

/-- The seed blocks, columns 0 and 1 of every lane, must be specified, "Otherwise FMATRIX is a model fault" (R247).
The state is unchanged. -/
def State.checkSeeds (s : State) : Except Fault State :=
  forRange 0 s.lanes
    (fun lane s => do
      let _ ← s.readMtx (flatIndex s.laneLen lane 0)
      let _ ← s.readMtx (flatIndex s.laneLen lane 1)
      return s) s

/-! ### Commands -/

/-- REFINDEX (R244): ARG0 = J, ARG1 = pass, ARG2 = slice, ARG3 = lane, ARG4 = i; RES0 = reference lane, RES1 =
reference column, RES2 = flat index, RES3 = A. -/
def execRefindex (s : State) : Step :=
  requireConfigured s
    (requireOperands s
      (s.passOk (s.argNat 1) && sliceOk (s.argNat 2) && s.laneOk (s.argNat 3) &&
        s.indexOk (s.argNat 1) (s.argNat 2) (s.argNat 4))
      (let r := s.referenceOf (s.argNat 1) (s.argNat 2) (s.argNat 3) (s.argNat 4) (s.arg 0)
       finish (.ok ((((s.writeRes 0 (BitVec.ofNat 64 r.lane)).writeRes 1 (BitVec.ofNat 64 r.col)).writeRes 2
        (BitVec.ofNat 64 r.flat)).writeRes 3 (BitVec.ofNat 64 r.area)))))

/-- FSEG (R245): ARG0 = pass, ARG1 = slice, ARG2 = lane. -/
def execFseg (s : State) : Step :=
  requireConfigured s
    (requireOperands s (s.passOk (s.argNat 0) && sliceOk (s.argNat 1) && s.laneOk (s.argNat 2))
      (finish (s.fillSegment (s.argNat 0) (s.argNat 1) (s.argNat 2))))

/-- FMATRIX (R247). -/
def execFmatrix (s : State) : Step :=
  requireConfigured s
    (finish do
      let s ← s.checkSeeds
      s.fillMatrix)

end Sys2Proof.Machine
end

