-- ==== Sys2Proof/Machine/Vlhash.lean ====
section
/-! DEFINITION. The variable-length hash H' over Blake2b (spec/40_vlhash.md R140-R143) and its command HPRIME. -/

namespace Sys2Proof.Machine

/-- r of R141: the number of 32-byte chunks emitted before the last, for T > 64. -/
def hprimeChunks (T : Nat) : Nat := (T + 31) / 32 - 2

/-- The chain of R141 from a 64-byte digest V on: V's first 32 bytes, then `more` further digests of 64 bytes of
which 32 are emitted, then one digest of `last` bytes, emitted whole. -/
def hprimeChain : Nat → Nat → List Byte → List Byte
  | 0, last, V => V.take 32 ++ blake2b V last
  | more + 1, last, V => V.take 32 ++ hprimeChain more last (blake2b V 64)

/-- `Hprime(X, T)` of R141. -/
def hprime (X : List Byte) (T : Nat) : List Byte :=
  if T ≤ 64 then blake2b (le32 T ++ X) T
  else hprimeChain (hprimeChunks T - 1) (T - 32 * hprimeChunks T) (blake2b (le32 T ++ X) 64)

/-- HPRIME (R142): ARG0 = MSG offset, ARG1 = length, ARG2 = T; the output goes to OBUF[0 : T). -/
def execHprime (s : State) : Step :=
  requireOperands s (rangeOk (s.argNat 0) (s.argNat 1) s.caps.msgBytes && s.hprimeLenOk (s.argNat 2))
    (finish do
      let X ← s.readMsg (s.argNat 0) (s.argNat 1)
      return s.writeObuf 0 (hprime X (s.argNat 2)))

end Sys2Proof.Machine
end

