-- ==== Sys2Proof/Machine/Engine.lean ====
section
/-! DEFINITION. The engine: NOP, CONFIG, H0, SEED, FINAL, DERIVE and ZEROIZE (spec/45_engine.md R271-R300). -/

namespace Sys2Proof.Machine

/-! ### Configuration -/

/-- SEGLEN = floor(MEMKIB / (4 * LANES)) of R276, in unbounded integers. -/
def segLenOf (p : Params) : Nat := p.memKib.toNat / (4 * p.lanes.toNat)

/-- MEMBLOCKS = 4p * floor(MEMKIB / (4p)) of R276, in unbounded integers. -/
def memBlocksOf (p : Params) : Nat := 4 * p.lanes.toNat * segLenOf p

/-- The geometry of R276. -/
def geometryOf (p : Params) : Geometry :=
  { memBlocks := BitVec.ofNat 32 (memBlocksOf p)
    laneLen := BitVec.ofNat 32 (4 * segLenOf p)
    segLen := BitVec.ofNat 32 (segLenOf p) }

/-- `CheckConfig()` of R273: the first failing row gives the error; `none` when all nine pass. The checks are
computed in unbounded integers (R272). -/
def checkConfig (p : Params) (c : Caps) : Option ErrCode :=
  if ¬ (1 ≤ p.lanes.toNat ∧ p.lanes.toNat ≤ Config.maxLanes) then some .cfgLanes
  else if ¬ (8 * p.lanes.toNat ≤ p.memKib.toNat) then some .cfgMemory
  else if ¬ (1 ≤ p.iter.toNat) then some .cfgIter
  else if ¬ (Config.minOutLen ≤ p.outLen.toNat) then some .cfgOutlen
  else if ¬ (p.version = 0x10 ∨ p.version = 0x13) then some .cfgVersion
  else if ¬ (p.type = 0 ∨ p.type = 1 ∨ p.type = 2) then some .cfgType
  else if ¬ (memBlocksOf p ≤ c.maxBlocks) then some .resMatrix
  else if ¬ (p.pwdLen.toNat + p.saltLen.toNat + p.secretLen.toNat + p.adLen.toNat ≤ c.msgBytes) then some .resMsg
  else if ¬ (p.outLen.toNat ≤ c.obufBytes) then some .resObuf
  else none

/-- A CheckConfig failure: CFG and the geometry cleared, besides the error (R274). -/
def failConfig (s : State) (e : ErrCode) : Step := failWith s.clearConfig e

/-! ### The bodies of the derivation steps -/

/-- The memory value H0 absorbs (R282, D20). -/
def State.h0MemValue (s : State) : Nat :=
  match Config.h0MemField with
  | .rounded => s.memBlocks
  | .raw => s.params.memKib.toNat

/-- The byte string H0 is the digest of (R282), for the four input strings. -/
def State.h0Input (s : State) (pwd salt secret ad : List Byte) : List Byte :=
  le32 s.lanes ++ le32 s.outLen ++ le32 s.h0MemValue ++ le32 s.iter ++
    le32 s.params.version.toNat ++ le32 s.type ++
    lenPrefixed pwd ++ lenPrefixed salt ++ lenPrefixed secret ++ lenPrefixed ad

/-- The H0 body (R282): the four strings lie one after another in MSG (10_state.md R55). -/
def State.deriveH0 (s : State) : Except Fault State := do
  let pwdLen := s.params.pwdLen.toNat
  let saltLen := s.params.saltLen.toNat
  let secretLen := s.params.secretLen.toNat
  let pwd ← s.readMsg 0 pwdLen
  let salt ← s.readMsg pwdLen saltLen
  let secret ← s.readMsg (pwdLen + saltLen) secretLen
  let ad ← s.readMsg (pwdLen + saltLen + secretLen) s.params.adLen.toNat
  return s.writeH0 (Config.blake2bDigest (s.h0Input pwd salt secret ad) 64)

/-- A seed block: `FromBytes(Hprime(H0 ‖ LE32(n) ‖ LE32(l), 1024))` (R288). -/
def seedBlock (h : Vector Byte 64) (n lane : Nat) : Block :=
  fromBytes (hprime (h.toList ++ le32 n ++ le32 lane) Config.blockBytes)

/-- The two seed blocks of one lane (R288). -/
def State.seedLane (s : State) (h : Vector Byte 64) (lane : Nat) : State :=
  (s.writeMtx (flatIndex s.laneLen lane 0) (seedBlock h 0 lane)).writeMtx
    (flatIndex s.laneLen lane 1) (seedBlock h 1 lane)

/-- The SEED body (R288). With LANES = 0, which no validated configuration has, no lane is seeded. -/
def State.seedMatrix (s : State) : Except Fault State :=
  let h := s.readH0
  forRange 0 s.lanes (fun lane s => .ok (s.seedLane h lane)) s

/-- The XOR of the last column over lanes 0 .. LANES-1 (R292). -/
def State.lastColumn (s : State) : Except Fault Block := do
  let B ← s.readMtx (flatIndex s.laneLen 0 (s.laneLen - 1))
  forRange 1 (s.lanes - 1)
    (fun lane B => do
      let C ← s.readMtx (flatIndex s.laneLen lane (s.laneLen - 1))
      return xorInto B C) B

/-- The FINAL body (R292). -/
def State.finalize (s : State) : Except Fault State := do
  let B ← s.lastColumn
  return (s.writeWb .fin B).writeObuf 0 (hprime (toBytes B) s.outLen)

/-- DERIVE's cleanup, step 7 (R296): MTX[0 .. MEMBLOCKS), WB1 .. WB7 and H0 zero. -/
def State.cleanup (s : State) : State :=
  { s with
    mtx := s.mtx.fillBelow s.memBlocks zeroBlock
    wb := Working.cleared
    h0 := .written (Vector.replicate 64 0) }

/-- Steps 2 to 7 of DERIVE (R296). -/
def State.deriveBody (s : State) : Except Fault State := do
  let s ← s.deriveH0
  let s ← s.seedMatrix
  let s ← s.fillMatrix
  let s ← s.finalize
  return s.cleanup

/-- What ZEROIZE clears (R300): MTX, WB1 .. WB7, H0, MSG, OBUF, ARG and RES. -/
def State.zeroize (s : State) : State :=
  { s with
    mtx := s.mtx.fillBelow s.caps.maxBlocks zeroBlock
    wb := Working.cleared
    h0 := .written (Vector.replicate 64 0)
    msg := s.msg.fillBelow s.caps.msgBytes 0
    obuf := s.obuf.fillBelow s.caps.obufBytes 0
    args := Vector.replicate 6 0
    res := Vector.replicate 4 0 }

/-! ### Commands -/

/-- NOP (R271). -/
def execNop (s : State) : Step := finish (.ok s)

/-- CONFIG (R272). -/
def execConfig (s : State) : Step :=
  match checkConfig s.params s.caps with
  | some e => failConfig s e
  | none => finish (.ok (s.configure (geometryOf s.params)))

/-- H0 (R282). -/
def execH0 (s : State) : Step := requireConfigured s (finish s.deriveH0)

/-- SEED (R288). Its read of H0 is recorded where H0 is unspecified; in DERIVE step 2 has specified it. -/
def execSeed (s : State) : Step := requireConfigured s (finish s.noteH0.seedMatrix)

/-- FINAL (R292). -/
def execFinal (s : State) : Step := requireConfigured s (finish s.finalize)

/-- DERIVE (R296). -/
def execDerive (s : State) : Step :=
  match checkConfig s.params s.caps with
  | some e => failConfig s e
  | none => finish (s.configure (geometryOf s.params)).deriveBody

/-- ZEROIZE (R300). -/
def execZeroize (s : State) : Step := finish (.ok s.zeroize)

end Sys2Proof.Machine
end

