-- ==== Sys2Proof/Machine/Dispatch.lean ====
section
/-! DEFINITION. The meaning of every command, one arm each (spec/30_encoding.md R112). -/

namespace Sys2Proof.Machine

def exec (i : Instr) (s : State) : Host.Outcome State Fault Refusal :=
  match i with
  | .nop => Sys2Proof.Machine.execNop s
  | .config => Sys2Proof.Machine.execConfig s
  | .derive => Sys2Proof.Machine.execDerive s
  | .zeroize => Sys2Proof.Machine.execZeroize s
  | .hprime => Sys2Proof.Machine.execHprime s
  | .bxor => Sys2Proof.Machine.execBxor s
  | .bclear => Sys2Proof.Machine.execBclear s
  | .btobytes => Sys2Proof.Machine.execBtobytes s
  | .bfrombytes => Sys2Proof.Machine.execBfrombytes s
  | .blamka => Sys2Proof.Machine.execBlamka s
  | .gmix => Sys2Proof.Machine.execGmix s
  | .pround => Sys2Proof.Machine.execPround s
  | .fblock => Sys2Proof.Machine.execFblock s
  | .fblockx => Sys2Proof.Machine.execFblockx s
  | .ainit => Sys2Proof.Machine.execAinit s
  | .anext => Sys2Proof.Machine.execAnext s
  | .aword => Sys2Proof.Machine.execAword s
  | .refindex => Sys2Proof.Machine.execRefindex s
  | .fseg => Sys2Proof.Machine.execFseg s
  | .fmatrix => Sys2Proof.Machine.execFmatrix s
  | .h0 => Sys2Proof.Machine.execH0 s
  | .seed => Sys2Proof.Machine.execSeed s
  | .final => Sys2Proof.Machine.execFinal s

end Sys2Proof.Machine
end

