-- ==== Sys2Proof/Machine/Perform.lean ====
section
/-! DEFINITION. The perform step (spec/45_engine.md R270) and one input of the machine. -/

namespace Sys2Proof.Machine

/-- Perform the latched CMD value v: decode it (30_encoding.md R120 step 1), then run the command. An illegal
command "does nothing but end with ILLEGAL_CMD" (R111). -/
def State.perform (s : State) (v : Word) : Step :=
  match decode v with
  | .command i => exec i s
  | .illegal _ => failWith s .illegalCmd

/-- The core's turn: perform, "enabled iff STATUS.BUSY == 1" (R270); else the core does nothing (60_exceptions.md
R326). -/
def State.coreTurn (s : State) : Step :=
  match s.latch with
  | some v => s.perform v
  | none => .next s

/-- The next input, already taken from the agenda. -/
def State.event (s : State) : Event → Step
  | .core => s.coreTurn
  | .host a => s.hostAccess a
  | .reset => .next s.hardReset

end Sys2Proof.Machine
end

