-- ==== Sys2Proof/Machine/Step.lean ====
section
/-! DEFINITION. One step of the machine. The agenda says who moves: its first input, or, when it is empty, the core
(spec/20_memory.md R91; 70_reset_and_hazards.md R354: the perform step happens after a finite number of host
steps; notes/assumptions/1.md). -/

namespace Sys2Proof.Machine

/-- One step: the next input of the agenda, or the core's turn. -/
def step (s : State) : Host.Outcome State Fault Refusal :=
  match s.agenda with
  | [] => s.coreTurn
  | e :: rest => (s.setAgenda rest).event e

/-- A table word issued as the host's CMD write issues it (R270), and the core's turn next: the very next step
decodes and performs it. The rest of the agenda is kept (notes/assumptions/2.md). -/
def State.withFetchWord (s : State) (nbits w : Nat) : State :=
  (s.issue (BitVec.ofNat 64 (tableValue nbits w))).setAgenda (.core :: s.agenda)

end Sys2Proof.Machine
end

