-- ==== Sys2Proof/Machine/Asm.lean ====
section
/-! DEFINITION. What a statement of a host program stands for (spec/30_encoding.md R122, R123): a list of inputs. Host
activity, no command word. -/

namespace Sys2Proof.Machine

/-- A host write of the register at an offset (R84). -/
def hostSet (off : Nat) (v : Word) : Event := .host (.write off 8 v)

/-- A host read of the register at an offset (R84). -/
def hostGet (off : Nat) : Event := .host (.read off 8)

/-- The offset of a parameter register (10_state.md R32). -/
def paramOffset : ParamReg → Nat
  | .type => 0x018
  | .version => 0x020
  | .iter => 0x028
  | .memKib => 0x030
  | .lanes => 0x038
  | .outLen => 0x040
  | .pwdLen => 0x048
  | .saltLen => 0x050
  | .secretLen => 0x058
  | .adLen => 0x060

/-- WAIT (R123): host reads of STATUS until BUSY = 0. With the core's turn before it, one read finds BUSY = 0, as
in the programs of 95_test_vectors.md §4 (notes/assumptions/14.md). -/
def waitEvents : List Event := [.core, hostGet 0x008]

/-- `ARG0 <- op0; ARG1 <- op1; ..` in order, from ARGn on (R122). -/
def argEvents : Nat → List Word → List Event
  | _, [] => []
  | n, v :: vs => hostSet (0x080 + 8 * n) v :: argEvents (n + 1) vs

/-- A command statement (R122): its ARG writes, the CMD write, WAIT. -/
def commandEvents (i : Instr) (ops : List Word) : List Event :=
  argEvents 0 ops ++ hostSet 0x010 (encode i) :: waitEvents

/-- The words of a byte string, eight bytes each, the last padded with zero bytes (R123), written from word
number n of the MSG window on. -/
def loadEvents : Nat → Nat → List Byte → List Event
  | 0, _, _ => []
  | words + 1, off, bytes => hostSet (0x10000 + off) (leWord (bytes.take 8)) :: loadEvents words (off + 8) (bytes.drop 8)

/-- The inputs a statement stands for (R122, R123). READOUT reads every aligned OBUF word that holds one of the n
bytes from `off` on, none where n = 0. -/
def stmtEvents : Stmt → List Event
  | .command i ops => commandEvents i ops
  | .wait => waitEvents
  | .bcopy dst src => commandEvents .bxor [dst, src, selectorOf (.wb .zero)]
  | .setp p v => [hostSet (paramOffset p) v]
  | .clrst => [hostSet 0x008 0xE]
  | .loadmsg off bytes => loadEvents ((bytes.length + 7) / 8) off bytes
  | .readout off n =>
    (List.range (if n = 0 then 0 else (off + n + 7) / 8 - off / 8)).map fun j => hostGet (0x20000 + 8 * (off / 8 + j))

end Sys2Proof.Machine
end

