-- ==== Sys2Proof/Safety.lean ====
section
/-! DEFINITION. What claims are made in terms of: the invariant of every run, when the state a command reads is
specified (spec/10_state.md R61), and the valid end of a run with its observation (70_reset_and_hazards.md R355). -/

namespace Sys2Proof.Machine

/-- The invariant of every run from reset: the capacities are in the range R8 gives them, memories are in canonical
form and inside their capacities (R50, R55, R56), DONE and ERR are never both 1 and are 0 while BUSY = 1 (R35,
R270), ERRCODE is NONE exactly when ERR = 0 (R311), and the geometry is that of the parameters as they stand and
passes CheckConfig while CFG = 1, and is zero while CFG = 0 (R43, R48, R273). -/
structure State.Inv (s : State) : Prop where
  capBlocks : 8 ≤ s.caps.maxBlocks ∧ s.caps.maxBlocks < 2 ^ 32
  capMsg : 1024 ≤ s.caps.msgBytes ∧ s.caps.msgBytes ≤ 65536
  capObuf : 1024 ≤ s.caps.obufBytes ∧ s.caps.obufBytes ≤ 65536
  mtxWf : Memory.wf s.mtx
  msgWf : Memory.wf s.msg
  obufWf : Memory.wf s.obuf
  mtxBelow : ∀ e ∈ s.mtx, e.1 < s.caps.maxBlocks
  msgBelow : ∀ e ∈ s.msg, e.1 < s.caps.msgBytes
  obufBelow : ∀ e ∈ s.obuf, e.1 < s.caps.obufBytes
  oneEnd : ¬(s.done = true ∧ s.err = true)
  busyClear : s.busy = true → s.done = false ∧ s.err = false
  errCodeNone : s.err = false ↔ s.errCode = .none
  configured : s.cfg = true → checkConfig s.params s.caps = none ∧ s.geom = geometryOf s.params
  unconfigured : s.cfg = false → s.geom = Geometry.zero

/-- The matrix block of a lane and a column is specified (R51, R61). -/
def State.blockSpecified (s : State) (lane col : Nat) : Prop :=
  (s.mtx.read (flatIndex s.laneLen lane col)).isSome = true

/-- The seed blocks, columns 0 and 1 of every lane, are specified (R247). -/
def State.seeded (s : State) : Prop :=
  ∀ lane, lane < s.lanes → s.blockSpecified lane 0 ∧ s.blockSpecified lane 1

/-- Every block of the current matrix is specified. -/
def State.matrixSpecified (s : State) : Prop := ∀ k, k < s.memBlocks → (s.mtx.read k).isSome = true

/-- The last column of every lane is specified (R292). -/
def State.lastColumnSpecified (s : State) : Prop :=
  ∀ lane, lane < s.lanes → s.blockSpecified lane (s.laneLen - 1)

/-- What a fill of segment (pass, slice, ·) may read is specified: in pass 0 the seed columns and the earlier slices
of every lane, later the whole matrix (44_filler.md R242, R247). -/
def State.fillable (s : State) (pass slice : Nat) : Prop :=
  ∀ lane col, lane < s.lanes → col < s.laneLen → (0 < pass ∨ col < 2 ∨ col < slice * s.segLen) →
    s.blockSpecified lane col

/-- What the block a selector names (30_encoding.md R116) holds: `none` for an unspecified matrix block, and for a
working register its value with the mark that says whether it is specified. -/
def State.holding (s : State) : BlockRef → Option (Held Block)
  | .mtx k => (s.mtx.read k).map .written
  | .wb r => some (s.wb.held r)

/-- The bytes of a MSG range are specified (R61). -/
def State.msgSpecified (s : State) (off len : Nat) : Prop :=
  ∀ j, j < len → (s.msg.read (off + j)).isSome = true

/-- The number of bytes the four input strings take in MSG (R55). -/
def State.inputBytes (s : State) : Nat :=
  s.params.pwdLen.toNat + s.params.saltLen.toNat + s.params.secretLen.toNat + s.params.adLen.toNat

/-- A position the filler visits, for a block index i (R239). -/
def State.legalPosition (s : State) (pass slice lane i : Nat) : Prop :=
  pass < s.iter ∧ slice < 4 ∧ lane < s.lanes ∧ startIndex pass slice ≤ i ∧ i < s.segLen

/-- The state FSEG's loop over a segment stands in before index i (44_filler.md R245). -/
def State.beforeIndex (s : State) (pass slice lane i : Nat) : Except Fault State :=
  forRange (startIndex pass slice) (i - startIndex pass slice) (fun j s => s.fillBlock pass slice lane j)
    (s.enterSegment pass slice lane)

/-- The (pass, slice, lane) of every segment, in the order of R247. -/
def State.segments (s : State) : List (Nat × Nat × Nat) :=
  (List.range s.iter).flatMap fun pass =>
    (List.range 4).flatMap fun slice => (List.range s.lanes).map fun lane => (pass, slice, lane)

/-- One FSEG command for each segment of a list, in order, up to the first stop. -/
def runFsegs : List (Nat × Nat × Nat) → State → Step
  | [], s => .next s
  | (pass, slice, lane) :: rest, s =>
    match exec .fseg { s with
      args := ((s.args.set 0 (BitVec.ofNat 64 pass)).set 1 (BitVec.ofNat 64 slice)).set 2 (BitVec.ofNat 64 lane) } with
    | .next t => runFsegs rest t
    | .fault f => .fault f
    | .refused r => .refused r

/-! ### The compression function as 42_compressor.md writes it, apart from the definitions the commands use -/

/-- G as R180 and R181 write it. -/
def writtenG (a b c d : Word) : Word × Word × Word × Word :=
  let f (x y : Word) : Word := x + y + 2 * ((x.setWidth 32).setWidth 64 * (y.setWidth 32).setWidth 64)
  let a := f a b
  let d := (d ^^^ a).rotateRight 32
  let c := f c d
  let b := (b ^^^ c).rotateRight 24
  let a := f a b
  let d := (d ^^^ a).rotateRight 16
  let c := f c d
  let b := (b ^^^ c).rotateRight 63
  (a, b, c, d)

/-- P as R182 writes it: the eight calls of G on v0 .. v15. -/
def writtenP (v : Vector Word 16) : Vector Word 16 :=
  let (v0, v4, v8, v12) := writtenG v[0] v[4] v[8] v[12]
  let (v1, v5, v9, v13) := writtenG v[1] v[5] v[9] v[13]
  let (v2, v6, v10, v14) := writtenG v[2] v[6] v[10] v[14]
  let (v3, v7, v11, v15) := writtenG v[3] v[7] v[11] v[15]
  let (v0, v5, v10, v15) := writtenG v0 v5 v10 v15
  let (v1, v6, v11, v12) := writtenG v1 v6 v11 v12
  let (v2, v7, v8, v13) := writtenG v2 v7 v8 v13
  let (v3, v4, v9, v14) := writtenG v3 v4 v9 v14
  #v[v0, v1, v2, v3, v4, v5, v6, v7, v8, v9, v10, v11, v12, v13, v14, v15]

/-- `idx_g[j]` as R183 writes it: word j of row g, or word j of column g - 8. -/
def writtenIndex (g j : Nat) : Nat := if g < 8 then 16 * g + j else 2 * (g - 8) + 16 * (j / 2) + j % 2

/-- Applying group g to a block (R183): its 16 words go through P, every other word stays. -/
def writtenGroup (g : Nat) (Z : Block) : Block :=
  let W := writtenP (Vector.ofFn fun j : Fin 16 => Z[writtenIndex g j.val]?.getD 0)
  Vector.ofFn fun k : Fin 128 =>
    match (List.finRange 16).find? fun j => writtenIndex g j.val == k.val with
    | some j => W[j]
    | none => Z[k]

/-- F as R184 writes it: R = X ^ Y, the rows 0 .. 7 and then the columns 8 .. 15 applied to it, and R XORed in. -/
def writtenF (X Y : Block) : Block :=
  let R : Block := Vector.ofFn fun k => X[k] ^^^ Y[k]
  let Z := [0, 1, 2, 3, 4, 5, 6, 7, 8, 9, 10, 11, 12, 13, 14, 15].foldl (fun Z g => writtenGroup g Z) R
  Vector.ofFn fun k => R[k] ^^^ Z[k]

/-- A run has a valid end: no input is left, BUSY = 0 and no UNSPEC_READ is recorded (R355). A step that faults or
refuses has no valid end either. -/
def State.ended (s : State) : Bool := s.agenda.isEmpty && !s.busy && !s.unspecRead

/-- What R355 says can be observed at the end of a run: STATUS, RES0 .. RES3, the geometry registers and OBUF. -/
structure Observation where
  status : Word
  res : Vector Word 4
  geom : Geometry
  obuf : Memory Byte
deriving DecidableEq, Repr

/-- The observation of a state (R355). -/
def State.observe (s : State) : Observation :=
  { status := s.statusWord, res := s.res, geom := s.geom, obuf := s.obuf }

end Sys2Proof.Machine
end

