-- ==== Sys2Proof/Certificates/Slice0/Obligations.lean ====
section
/-! DEFINITION. What is claimed of the model: one Prop each, taken from the numbered rules of spec/. A result is stated
as the whole next state, or as a next state t with `t = { s with .. := t. .. }`, which is its frame: every field
that is not named is unchanged. -/

open Sys2Proof Sys2Proof.Machine

/-! ## Reset and the invariant -/

/-- R340: the table of the state after reset. Every block, H0 and buffer byte is unspecified: a core read of a matrix block
or a MSG byte is UNSPEC_READ, a host read of a buffer word is a draw, and WB1 .. WB7 and H0 are marked unspecified (that
they hold a free value is the model's choice, notes/assumptions/20.md). Any later assertion of the reset input gives the
same state, a latched command abandoned (R341), with other free values. That the capability registers, the inputs still
to come, the last read value, the draw counter and the recorded fault stay is the model's choice
(notes/assumptions/13.md). -/
def Obligations.ResetLeavesTheTable : Prop :=
  (State.reset.ctrlWord = 0 ∧ State.reset.statusWord = 0 ∧ State.reset.irq = false ∧ State.reset.latch = none ∧
    (∀ p, State.reset.params.get p = 0) ∧ State.reset.geom = ⟨0, 0, 0⟩ ∧
    (∀ n : Fin 6, State.reset.args[n] = 0) ∧ (∀ n : Fin 4, State.reset.res[n] = 0) ∧
    State.reset.caps = ⟨Config.maxBlocks, Config.msgBytes, Config.obufBytes⟩ ∧
    State.reset.readWb .zero = Vector.replicate 128 0 ∧ State.reset.unspecRead = false) ∧
  ((∀ r, (State.reset.wb.held r).specified = true ↔ r = .zero) ∧ State.reset.h0.specified = false ∧
    (∀ k, State.reset.readMtx k = .error (.unspecRead (.mtx k))) ∧
    (∀ off n, State.reset.readMsg off (n + 1) = .error (.unspecRead (.msg off))) ∧
    (∀ d k, k + 8 ≤ Config.msgBytes → State.reset.regValue d (.msg k) = d) ∧
    (∀ d k, k + 8 ≤ Config.obufBytes → State.reset.regValue d (.obuf k) = d)) ∧
  (∀ (s : State) l, s.agenda = .reset :: l →
    step s = .next { State.reset with
      caps := s.caps, agenda := l, rdata := s.rdata, wb := Working.atReset (s.draws + 1)
      h0 := .unspecified (Config.h0AtReset (s.draws + 1)), draws := s.draws + 1, unspecRead := s.unspecRead }) ∧
  (∀ n r, r ≠ .zero → ((Working.atReset n).held r).specified = false ∧
    ((Working.atReset n).held r).value = Config.blockAtReset n (wbNumber r))

/-- The state after reset meets the invariant of every run. -/
def Obligations.ResetMeetsTheInvariant : Prop := State.reset.Inv

/-- Every step keeps the invariant: memories stay canonical and inside their capacities, DONE and ERR are never both
1, ERRCODE is NONE exactly when ERR = 0, and the geometry matches the parameters while CFG = 1 and is zero while
CFG = 0 (R35, R43, R48, R50, R90, R311). -/
def Obligations.StepKeepsTheInvariant : Prop := ∀ (s t : State), s.Inv → step s = .next t → t.Inv

/-! ## Encoding -/

/-- R112: words written out from the opcode map decode to their commands (a sanity check of a few rows of every
family), and a reserved opcode and a reserved bit do not decode. -/
def Obligations.OpcodeMapSamples : Prop :=
  decode 0x00000000 = .command .nop ∧ decode 0x00000003 = .command .zeroize ∧ decode 0x00000010 = .command .hprime ∧
  decode 0x00000023 = .command .bfrombytes ∧ decode 0x00000034 = .command .fblockx ∧
  decode 0x00000042 = .command .aword ∧ decode 0x00000052 = .command .fmatrix ∧ decode 0x00000061 = .command .seed ∧
  decode 0x00000004 = .illegal .unassignedOpcode ∧ decode 0x00000100 = .illegal .reservedBits ∧
  decode 0x100000000 = .illegal .reservedBits

/-- Decode and encode agree in both directions: the value of a command decodes to it, and no other value does. -/
def Obligations.DecodeEncodeAgree : Prop := ∀ v i, decode v = .command i ↔ v = encode i

/-- R314: a latched value with a nonzero bit in [63:8], or whose OPC R112 does not list, ends with ILLEGAL_CMD and
changes nothing else; every other value runs a command. So it is with no input left and with a core turn next. -/
def Obligations.IllegalCommandEndsWithError : Prop :=
  ∀ (s : State) v, s.latch = some v →
    (256 ≤ v.toNat ∨ v.toNat % 256 ∉ assignedOpcodes →
      (s.agenda = [] → step s = .next { s with err := true, errCode := .illegalCmd, latch := none }) ∧
      (∀ l, s.agenda = .core :: l →
        step s = .next { s with agenda := l, err := true, errCode := .illegalCmd, latch := none })) ∧
    (v.toNat < 256 → v.toNat ∈ assignedOpcodes →
      ∃ i, (opcode i).toNat = v.toNat ∧ (s.agenda = [] → step s = exec i s) ∧
        (∀ l, s.agenda = .core :: l → step s = exec i { s with agenda := l }))

/-- A step of the core runs the decoded command: with no input left, or a core turn next, and a latched value that
decodes to i, the step is exec of i (after the turn is taken from the agenda); with nothing latched the core does
nothing. A table word placed by withFetchWord is the command the very next step performs, on the state the host's CMD
write leaves (R270; withFetchWord itself and the agenda are the model's, notes/assumptions/1.md and 2.md). -/
def Obligations.StepRunsTheDecodedCommand : Prop :=
  (∀ (s : State) v i, s.agenda = [] → s.latch = some v → decode v = .command i → step s = exec i s) ∧
  (∀ (s : State) v i l, s.agenda = .core :: l → s.latch = some v → decode v = .command i →
    step s = exec i { s with agenda := l }) ∧
  (∀ (s : State), s.agenda = [] → s.latch = none → step s = .next s) ∧
  (∀ (s : State) l, s.agenda = .core :: l → s.latch = none → step s = .next { s with agenda := l }) ∧
  (∀ (s : State) (i : Instr), step (s.withFetchWord 32 (encode i).toNat) =
    exec i { s with latch := some (encode i), done := false, err := false, errCode := .none })

/-! ## The host's accesses -/

/-- R44: a CMD write issues the command, a CMD write while BUSY = 1 is ignored and sets WIGN, a CMD read returns 0. -/
def Obligations.CmdWriteIssues : Prop :=
  (∀ (s : State) v l, s.busy = false → s.agenda = .host (.write 0x010 8 v) :: l →
    step s = .next { s with agenda := l, latch := some v, done := false, err := false, errCode := .none }) ∧
  (∀ (s : State) v l, s.busy = true → s.agenda = .host (.write 0x010 8 v) :: l →
    step s = .next { s with agenda := l, wign := true }) ∧
  (∀ (s : State) l, s.agenda = .host (.read 0x010 8) :: l →
    step s = .next { s with agenda := l, rdata := 0, draws := s.draws + 1 })

/-- R92: what the host may do while BUSY = 1. A write to CTRL or STATUS takes effect; a write to any other offset is
ignored and sets WIGN; reads of CTRL, STATUS, the parameter, geometry and CAP registers return their current
values; reads of RES, MSG and OBUF are draws. That a write to a read-only or reserved offset sets WIGN is the model's
reading of R92 (notes/assumptions/12.md), and that the whole word of a MSG or OBUF read is a draw, lanes beyond the
capacity too, its reading of R92 beside R82 (notes/assumptions/4.md). -/
def Obligations.AccessesWhileBusy : Prop :=
  ∀ (s : State) l, s.busy = true →
    (∀ v, s.agenda = .host (.write 0x000 8 v) :: l → step s = .next { s with agenda := l, ie := v.getLsbD 0 }) ∧
    (∀ v, s.agenda = .host (.write 0x008 8 v) :: l → step s = .next { s with
      agenda := l
      done := s.done && !v.getLsbD 1
      err := s.err && !v.getLsbD 2
      errCode := if v.getLsbD 2 then .none else s.errCode
      wign := s.wign && !v.getLsbD 3 }) ∧
    (∀ off v, off % 8 = 0 → 0x010 ≤ off → off < 0x30000 → s.agenda = .host (.write off 8 v) :: l →
      step s = .next { s with agenda := l, wign := true }) ∧
    (∀ off, off % 8 = 0 → off < 0x30000 → s.agenda = .host (.read off 8) :: l →
      ∃ t, step s = .next t ∧ t = { s with agenda := l, rdata := t.rdata, draws := s.draws + 1 } ∧
        (off = 0x000 → t.rdata = s.ctrlWord) ∧
        (off = 0x008 → t.rdata = s.statusWord) ∧
        (∀ p, off = paramOffset p → t.rdata = (s.params.get p).setWidth 64) ∧
        (off = 0x068 → t.rdata = s.geom.memBlocks.setWidth 64) ∧
        (off = 0x070 → t.rdata = s.geom.segLen.setWidth 64) ∧
        (off = 0x078 → t.rdata = s.geom.laneLen.setWidth 64) ∧
        (off = 0x0D0 → t.rdata = BitVec.ofNat 64 s.caps.maxBlocks) ∧
        (off = 0x0D8 → t.rdata = BitVec.ofNat 64 s.caps.msgBytes) ∧
        (off = 0x0E0 → t.rdata = BitVec.ofNat 64 s.caps.obufBytes) ∧
        (0x0B0 ≤ off ∧ off < 0x0D0 ∨ 0x10000 ≤ off → t.rdata = Config.draw s.draws))

/-- R48, R49: an accepted parameter write stores bits [31:0] and clears CFG and the geometry, even when the value is
the old one; a read returns the 32 bits, zero-extended. -/
def Obligations.ParameterWriteClearsConfig : Prop :=
  ∀ (s : State) p l, s.busy = false →
    (∀ v, s.agenda = .host (.write (paramOffset p) 8 v) :: l →
      step s = .next { s with
        agenda := l, params := s.params.set p (v.setWidth 32), cfg := false, geom := ⟨0, 0, 0⟩ }) ∧
    (∀ v q, (s.params.set p v).get q = if q = p then v else s.params.get q) ∧
    (s.agenda = .host (.read (paramOffset p) 8) :: l →
      step s = .next { s with agenda := l, rdata := (s.params.get p).setWidth 64, draws := s.draws + 1 })

/-- The W1C bits and the return from an error (R35, R319): a STATUS write with bit 2 set clears ERR and ERRCODE, bit 1
clears DONE, bit 3 clears WIGN; a 0 leaves the bit; nothing else changes. -/
def Obligations.StatusWriteReturnsFromError : Prop :=
  ∀ (s : State) v l, s.agenda = .host (.write 0x008 8 v) :: l →
    ∃ t, step s = .next t ∧
      t = { s with agenda := l, done := t.done, err := t.err, errCode := t.errCode, wign := t.wign } ∧
      (v.getLsbD 1 = true → t.done = false) ∧ (v.getLsbD 1 = false → t.done = s.done) ∧
      (v.getLsbD 2 = true → t.err = false ∧ t.errCode = .none) ∧
      (v.getLsbD 2 = false → t.err = s.err ∧ t.errCode = s.errCode) ∧
      (v.getLsbD 3 = true → t.wign = false) ∧ (v.getLsbD 3 = false → t.wign = s.wign)

/-- Every bit of STATUS (R32, R35): BUSY, DONE, ERR, WIGN, CFG, three reserved bits, ERRCODE, 48 reserved bits; and the
thirteen codes of ERRCODE (R311), which are all there are. -/
def Obligations.StatusWordBits : Prop :=
  (∀ (s : State) (k : Nat), s.statusWord.getLsbD k =
    if k = 0 then s.latch.isSome
    else if k = 1 then s.done
    else if k = 2 then s.err
    else if k = 3 then s.wign
    else if k = 4 then s.cfg
    else if 8 ≤ k ∧ k < 16 then s.errCode.code.getLsbD (k - 8)
    else false) ∧
  (∀ e : ErrCode, (e, e.code) ∈
    [(ErrCode.none, 0x00#8), (.illegalCmd, 0x01#8), (.badOperand, 0x02#8), (.notConfigured, 0x03#8),
      (.cfgLanes, 0x10#8), (.cfgMemory, 0x11#8), (.cfgIter, 0x12#8), (.cfgOutlen, 0x13#8), (.cfgVersion, 0x14#8),
      (.cfgType, 0x15#8), (.resMatrix, 0x20#8), (.resMsg, 0x21#8), (.resObuf, 0x22#8)])

/-- R84: an access that is not 8 bytes wide or not aligned is refused, before its offset is looked at (the order is the
model's reading, notes/assumptions/9.md); so is one beyond the window (R88, U6; the model's reading,
notes/assumptions/8.md). -/
def Obligations.OtherAccessesAreRefused : Prop :=
  ∀ (s : State) a l, s.agenda = .host a :: l →
    (a.width ≠ 8 ∨ a.offset % 8 ≠ 0 → step s = .refused .hostAccessShape) ∧
    (a.width = 8 → a.offset % 8 = 0 → 0x30000 ≤ a.offset → step s = .refused .hostAccessBeyondWindow)

/-- Host reads have no side effects (R87): a read changes the returned value and the model's draw counter only, and a
second read returns the same value, but for draws. -/
def Obligations.HostReadsHaveNoSideEffects : Prop :=
  ∀ (s : State) off l, off % 8 = 0 → off < 0x30000 → s.agenda = .host (.read off 8) :: .host (.read off 8) :: l →
    ∃ t u, step s = .next t ∧ step t = .next u ∧
      u = { s with agenda := l, rdata := u.rdata, draws := s.draws + 2 } ∧
      (off < 0x10000 → (off < 0x0B0 ∨ 0x0D0 ≤ off ∨ s.busy = false) → t.rdata = u.rdata)

/-- R82: the buffer windows. A write puts bits [8j+7:8j] into byte k+j inside the capacity and changes no other byte; a
read returns the byte in its lane, and zero beyond the capacity. That a read keeps the specified bytes in their lanes
(and the zeros beyond the capacity) when the same word also holds unspecified bytes is the model's reading of R82 beside
R61 (notes/assumptions/4.md); 95_test_vectors.md, Program 2, row 3, calls that read a draw. -/
def Obligations.BufferWindowsAreLittleEndian : Prop :=
  ∀ (s : State) k l, s.busy = false → Memory.wf s.msg → Memory.wf s.obuf → k % 8 = 0 → k < 0x10000 →
    (∀ v, s.agenda = .host (.write (0x10000 + k) 8 v) :: l →
      ∃ t, step s = .next t ∧ t = { s with agenda := l, msg := t.msg } ∧
        (∀ j, j < 8 → k + j < s.caps.msgBytes → t.msg.read (k + j) = some (v.extractLsb' (8 * j) 8)) ∧
        (∀ a, (a < k ∨ k + 8 ≤ a ∨ s.caps.msgBytes ≤ a) → t.msg.read a = s.msg.read a)) ∧
    (∀ v, s.agenda = .host (.write (0x20000 + k) 8 v) :: l →
      ∃ t, step s = .next t ∧ t = { s with agenda := l, obuf := t.obuf } ∧
        (∀ j, j < 8 → k + j < s.caps.obufBytes → t.obuf.read (k + j) = some (v.extractLsb' (8 * j) 8)) ∧
        (∀ a, (a < k ∨ k + 8 ≤ a ∨ s.caps.obufBytes ≤ a) → t.obuf.read a = s.obuf.read a)) ∧
    (s.agenda = .host (.read (0x10000 + k) 8) :: l →
      ∃ t, step s = .next t ∧ t = { s with agenda := l, rdata := t.rdata, draws := s.draws + 1 } ∧
        (∀ j b, j < 8 → k + j < s.caps.msgBytes → s.msg.read (k + j) = some b →
          t.rdata.extractLsb' (8 * j) 8 = b) ∧
        (∀ j, j < 8 → s.caps.msgBytes ≤ k + j → t.rdata.extractLsb' (8 * j) 8 = 0)) ∧
    (s.agenda = .host (.read (0x20000 + k) 8) :: l →
      ∃ t, step s = .next t ∧ t = { s with agenda := l, rdata := t.rdata, draws := s.draws + 1 } ∧
        (∀ j b, j < 8 → k + j < s.caps.obufBytes → s.obuf.read (k + j) = some b →
          t.rdata.extractLsb' (8 * j) 8 = b) ∧
        (∀ j, j < 8 → s.caps.obufBytes ≤ k + j → t.rdata.extractLsb' (8 * j) 8 = 0))

/-- The register map while BUSY = 0, for the offsets no other statement covers (R31, R32, R34, R46, R47): a CTRL write
takes bit 0 and an ARG write all 64 bits; reads of CTRL, STATUS, the geometry, ARG, RES and CAP return the value; a write
to a geometry, RES, CAP or reserved offset changes nothing, and a reserved offset reads zero. -/
def Obligations.RegisterMapWhenIdle : Prop :=
  ∀ (s : State) l, s.busy = false →
    (∀ v, s.agenda = .host (.write 0x000 8 v) :: l → step s = .next { s with agenda := l, ie := v.getLsbD 0 }) ∧
    (∀ (n : Fin 6) v, s.agenda = .host (.write (0x080 + 8 * n.val) 8 v) :: l →
      step s = .next { s with agenda := l, args := s.args.set n v }) ∧
    (∀ off v, off % 8 = 0 → (0x068 ≤ off ∧ off < 0x080 ∨ 0x0B0 ≤ off ∧ off < 0x10000) →
      s.agenda = .host (.write off 8 v) :: l → step s = .next { s with agenda := l }) ∧
    (∀ off, off % 8 = 0 → off < 0x10000 → s.agenda = .host (.read off 8) :: l →
      ∃ t, step s = .next t ∧ t = { s with agenda := l, rdata := t.rdata, draws := s.draws + 1 } ∧
        (off = 0x000 → t.rdata = s.ctrlWord) ∧
        (off = 0x008 → t.rdata = s.statusWord) ∧
        (off = 0x068 → t.rdata = s.geom.memBlocks.setWidth 64) ∧
        (off = 0x070 → t.rdata = s.geom.segLen.setWidth 64) ∧
        (off = 0x078 → t.rdata = s.geom.laneLen.setWidth 64) ∧
        (∀ n : Fin 6, off = 0x080 + 8 * n.val → t.rdata = s.args[n]) ∧
        (∀ n : Fin 4, off = 0x0B0 + 8 * n.val → t.rdata = s.res[n]) ∧
        (off = 0x0D0 → t.rdata = BitVec.ofNat 64 s.caps.maxBlocks) ∧
        (off = 0x0D8 → t.rdata = BitVec.ofNat 64 s.caps.msgBytes) ∧
        (off = 0x0E0 → t.rdata = BitVec.ofNat 64 s.caps.obufBytes) ∧
        (0x0E8 ≤ off → t.rdata = 0))

/-- R320: the interrupt is the level CTRL.IE & (STATUS.DONE | STATUS.ERR); it follows IE at once, and is cleared by
writing 1 to DONE or ERR, by the next issue, by clearing IE, and by reset. -/
def Obligations.InterruptIsALevel : Prop :=
  (∀ s : State, s.irq = true ↔ s.ctrlWord = 1 ∧ (s.statusWord.getLsbD 1 = true ∨ s.statusWord.getLsbD 2 = true)) ∧
  (∀ (s : State) v l t, s.agenda = .host (.write 0x000 8 v) :: l → step s = .next t →
    t.irq = (v.getLsbD 0 && (s.done || s.err))) ∧
  (∀ (s : State) v l t, ¬(s.done = true ∧ s.err = true) → s.agenda = .host (.write 0x008 8 v) :: l → step s = .next t →
    (s.done = true → v.getLsbD 1 = true → t.irq = false) ∧ (s.err = true → v.getLsbD 2 = true → t.irq = false)) ∧
  (∀ (s : State) v l t, s.busy = false → s.agenda = .host (.write 0x010 8 v) :: l → step s = .next t → t.irq = false) ∧
  (∀ (s : State) l t, s.agenda = .reset :: l → step s = .next t → t.irq = false)

/-- Operands cannot change between issue and perform, and the perform step comes (R92, R97, R354): from a state with a
latched value, whatever aligned accesses inside the window the host makes, after them the latch, the operands and
all core state are as they were, but for CTRL (IE), the W1C bits DONE, ERR and WIGN of STATUS and ERRCODE; and the next
step performs the latched value. That an empty agenda gives the core its turn is the model's form of progress
(notes/assumptions/1.md). -/
def Obligations.OperandsHeldUntilPerformed : Prop :=
  ∀ (s : State) v (as : List HostAccess), s.latch = some v → s.agenda = as.map Event.host → (∀ a ∈ as, a.wellFormed = true) →
    ∃ t, core.run as.length s = .next t ∧ step t = t.perform v ∧
      t = { s with
        agenda := [], ie := t.ie, done := t.done, err := t.err, errCode := t.errCode, wign := t.wign,
        rdata := t.rdata, draws := t.draws }

/-! ## How a command ends -/

/-- NOT_CONFIGURED (R112, R312): the seven commands that need CFG = 1, performed while CFG = 0. -/
def Obligations.NotConfiguredCommands : Prop :=
  ∀ (s : State) (i : Instr), s.cfg = false → i ∈ [Instr.ainit, .refindex, .fseg, .fmatrix, .h0, .seed, .final] →
    exec i s = .next { s with err := true, errCode := .notConfigured, latch := none }

/-- R116: what a block selector names. -/
def Obligations.BlockSelectorNames : Prop :=
  ∀ (memBlocks : Nat) (sel : Word),
    (sel.toNat < 2 ^ 63 → sel.toNat < memBlocks → blockOfSelector memBlocks sel = some (.mtx sel.toNat)) ∧
    (sel.toNat < 2 ^ 63 → memBlocks ≤ sel.toNat → blockOfSelector memBlocks sel = none) ∧
    (∀ r, sel.toNat = 2 ^ 63 + wbNumber r → blockOfSelector memBlocks sel = some (.wb r)) ∧
    (2 ^ 63 + 8 ≤ sel.toNat → blockOfSelector memBlocks sel = none)

/-- BAD_OPERAND (R312): each failing operand check of R116-R119 ends the command with it and changes nothing else. -/
def Obligations.BadOperandChecks : Prop :=
  ∀ (s : State) (i : Instr),
    (i ∈ [Instr.bxor, .bclear, .bfrombytes, .pround, .fblock, .fblockx] →
      (blockOfSelector s.memBlocks s.args[0] = none ∨ s.args[0].toNat = 2 ^ 63) →
      exec i s = .next { s with err := true, errCode := .badOperand, latch := none }) ∧
    (i = .btobytes → blockOfSelector s.memBlocks s.args[0] = none →
      exec i s = .next { s with err := true, errCode := .badOperand, latch := none }) ∧
    (i ∈ [Instr.bxor, .fblock, .fblockx] →
      (blockOfSelector s.memBlocks s.args[1] = none ∨ blockOfSelector s.memBlocks s.args[2] = none) →
      exec i s = .next { s with err := true, errCode := .badOperand, latch := none }) ∧
    (i = .btobytes → s.caps.obufBytes < s.args[1].toNat + 1024 →
      exec i s = .next { s with err := true, errCode := .badOperand, latch := none }) ∧
    (i = .bfrombytes → s.caps.msgBytes < s.args[1].toNat + 1024 →
      exec i s = .next { s with err := true, errCode := .badOperand, latch := none }) ∧
    (i = .pround → 16 ≤ s.args[1].toNat →
      exec i s = .next { s with err := true, errCode := .badOperand, latch := none }) ∧
    (i = .hprime → (s.caps.msgBytes < s.args[0].toNat + s.args[1].toNat ∨ s.args[2].toNat = 0 ∨
        s.caps.obufBytes < s.args[2].toNat) →
      exec i s = .next { s with err := true, errCode := .badOperand, latch := none }) ∧
    (i = .ainit → s.cfg = true →
      (s.iter ≤ s.args[0].toNat ∨ s.lanes ≤ s.args[1].toNat ∨ 4 ≤ s.args[2].toNat) →
      exec i s = .next { s with err := true, errCode := .badOperand, latch := none }) ∧
    (i = .fseg → s.cfg = true →
      (s.iter ≤ s.args[0].toNat ∨ 4 ≤ s.args[1].toNat ∨ s.lanes ≤ s.args[2].toNat) →
      exec i s = .next { s with err := true, errCode := .badOperand, latch := none }) ∧
    (i = .refindex → s.cfg = true →
      (s.iter ≤ s.args[1].toNat ∨ 4 ≤ s.args[2].toNat ∨ s.lanes ≤ s.args[3].toNat ∨
        s.segLen ≤ s.args[4].toNat ∨
        (s.args[1].toNat = 0 ∧ s.args[2].toNat = 0 ∧ s.args[4].toNat < 2)) →
      exec i s = .next { s with err := true, errCode := .badOperand, latch := none })

/-- R317: errors are precise. A command that ends in error changes no state but ERR, ERRCODE and BUSY; a CheckConfig
failure of CONFIG or DERIVE also clears CFG and the geometry. -/
def Obligations.ErrorsArePrecise : Prop :=
  ∀ (i : Instr) (s t : State), s.err = false → exec i s = .next t → t.err = true →
    t = { s with err := true, errCode := t.errCode, latch := none } ∨
    ((i = .config ∨ i = .derive) ∧
      t = { s with err := true, errCode := t.errCode, latch := none, cfg := false, geom := ⟨0, 0, 0⟩ })

/-- R310: a command that ends does so in exactly one way, DONE = 1, or ERR = 1 with a code; BUSY = 0 after it. -/
def Obligations.ExactlyOneEnd : Prop :=
  ∀ (i : Instr) (s t : State), s.done = false → s.err = false → s.errCode = .none → exec i s = .next t →
    t.busy = false ∧
      ((t.done = true ∧ t.err = false ∧ t.errCode = .none) ∨ (t.done = false ∧ t.err = true ∧ t.errCode ≠ .none))

/-- Which commands can write which state at all (R46, R47, R54, R56, R62): a whole-machine frame. The recorded fault can be
set only by the commands whose operands name a working block or that read AIN, ABLK or H0, and none clears it (R61,
R327; the record is the model's, notes/assumptions/20.md). -/
def Obligations.OnlyNamedCommandsWrite : Prop :=
  ∀ (i : Instr) (s t : State), exec i s = .next t →
    (t.ie = s.ie ∧ t.wign = s.wign ∧ t.params = s.params ∧ t.caps = s.caps ∧ t.agenda = s.agenda ∧
      t.rdata = s.rdata ∧ t.draws = s.draws) ∧
    (i ≠ .zeroize → t.args = s.args ∧ t.msg = s.msg) ∧
    (i ∉ [Instr.blamka, .gmix, .aword, .refindex, .zeroize] → t.res = s.res) ∧
    (i ∉ [Instr.config, .derive] → t.cfg = s.cfg ∧ t.geom = s.geom) ∧
    (i ∉ [Instr.h0, .derive, .zeroize] → t.h0 = s.h0) ∧
    (i ∉ [Instr.hprime, .btobytes, .final, .derive, .zeroize] → t.obuf = s.obuf) ∧
    (i ∈ [Instr.nop, .config, .hprime, .btobytes, .blamka, .gmix, .aword, .refindex, .h0] →
      t.mtx = s.mtx ∧ t.wb = s.wb) ∧
    (i ∉ [Instr.bxor, .btobytes, .pround, .fblock, .fblockx, .anext, .aword, .seed] → t.unspecRead = s.unspecRead) ∧
    (s.unspecRead = true → t.unspecRead = true)

/-- UNSPEC_READ (R61, R327). A command whose computation reads an unspecified matrix block or MSG byte faults. FSEG faults
at an index whose previous, reference or (under the XOR policy) current block is unspecified when its loop comes to it
(R241, R245), so whenever a current block it would XOR is unspecified at the start; FMATRIX faults when a seed block is
unspecified (R247). A command that reads a working block or H0 while unspecified goes on with the value the register
holds, and the fault is recorded; the record stays, and a run that has it never ends validly (R327, R355). That a
memory stops the machine and a register does not is the model's choice (notes/assumptions/3.md and 20.md). -/
def Obligations.UnspecifiedReadsFault : Prop :=
  (∀ (s : State) (i : Instr) d a b, i ∈ [Instr.bxor, .fblock, .fblockx] →
    blockOfSelector s.memBlocks s.args[0] = some d → d ≠ .wb .zero → blockOfSelector s.memBlocks s.args[1] = some a →
    blockOfSelector s.memBlocks s.args[2] = some b →
    (s.holding a = none ∨ s.holding b = none ∨ (i = .fblockx ∧ s.holding d = none)) →
    ∃ src, exec i s = .fault (.unspecRead src)) ∧
  (∀ (s : State) a, blockOfSelector s.memBlocks s.args[0] = some a → s.holding a = none →
    s.args[1].toNat + 1024 ≤ s.caps.obufBytes → ∃ src, exec .btobytes s = .fault (.unspecRead src)) ∧
  (∀ (s : State) d, blockOfSelector s.memBlocks s.args[0] = some d → s.holding d = none → s.args[1].toNat < 16 →
    ∃ src, exec .pround s = .fault (.unspecRead src)) ∧
  (∀ (s : State) j, s.args[0].toNat + s.args[1].toNat ≤ s.caps.msgBytes → 1 ≤ s.args[2].toNat →
    s.args[2].toNat ≤ s.caps.obufBytes → j < s.args[1].toNat → s.msg.read (s.args[0].toNat + j) = none →
    ∃ src, exec .hprime s = .fault (.unspecRead src)) ∧
  (∀ (s : State) d j, blockOfSelector s.memBlocks s.args[0] = some d → d ≠ .wb .zero →
    s.args[1].toNat + 1024 ≤ s.caps.msgBytes → j < 1024 → s.msg.read (s.args[1].toNat + j) = none →
    ∃ src, exec .bfrombytes s = .fault (.unspecRead src)) ∧
  (∀ (s : State) k, s.cfg = true → k < s.inputBytes → s.msg.read k = none →
    ∃ src, exec .h0 s = .fault (.unspecRead src)) ∧
  (∀ (s : State) k, checkConfig s.params s.caps = none → k < s.inputBytes → s.msg.read k = none →
    ∃ src, exec .derive s = .fault (.unspecRead src)) ∧
  (∀ (s u : State) i, s.cfg = true → s.args[0].toNat < s.iter → s.args[1].toNat < 4 → s.args[2].toNat < s.lanes →
    let pass := s.args[0].toNat
    let slice := s.args[1].toNat
    let lane := s.args[2].toNat
    let prev := flatIndex s.laneLen lane (previousColumn s.laneLen s.segLen slice i)
    let cur := flatIndex s.laneLen lane (currentColumn s.segLen slice i)
    let input := (inputBlock pass lane slice s.memBlocks s.iter s.type).set 6 (BitVec.ofNat 64 (1 + i / 128))
    let J : Block → Word := fun X => if s.dataIndependent pass slice = true
      then wordOf (compressF zeroBlock (compressF zeroBlock input)) i else X[0]
    startIndex pass slice ≤ i → i < s.segLen → s.beforeIndex pass slice lane i = .ok u →
    (u.mtx.read prev = none ∨
      (∃ X, u.mtx.read prev = some X ∧ u.mtx.read (s.referenceOf pass slice lane i (J X)).flat = none) ∨
      (0 < pass ∧ s.params.version = 0x13 ∧ u.mtx.read cur = none)) →
    ∃ src, exec .fseg s = .fault (.unspecRead src)) ∧
  (∀ (s : State) i, Memory.wf s.mtx → s.cfg = true → s.args[0].toNat < s.iter → s.args[1].toNat < 4 →
    s.args[2].toNat < s.lanes → i < s.segLen → 0 < s.args[0].toNat → s.params.version = 0x13 →
    s.mtx.read (flatIndex s.laneLen s.args[2].toNat (currentColumn s.segLen s.args[1].toNat i)) = none →
    ∃ src, exec .fseg s = .fault (.unspecRead src)) ∧
  (∀ s : State, s.cfg = true → ¬s.seeded → ∃ src, exec .fmatrix s = .fault (.unspecRead src)) ∧
  (∀ s : State, s.cfg = true → (∃ lane, lane < s.lanes ∧ ¬s.blockSpecified lane (s.laneLen - 1)) →
    ∃ src, exec .final s = .fault (.unspecRead src)) ∧
  (∀ s t : State, s.wb.ain.specified = false → exec .anext s = .next t → t.unspecRead = true) ∧
  (∀ s t : State, s.wb.ablk.specified = false → exec .aword s = .next t → t.unspecRead = true) ∧
  (∀ s t : State, s.cfg = true → s.h0.specified = false → exec .seed s = .next t → t.unspecRead = true) ∧
  (∀ (s t : State) (i : Instr) d a b A B, i ∈ [Instr.bxor, .fblock, .fblockx] →
    blockOfSelector s.memBlocks s.args[0] = some d → d ≠ .wb .zero → blockOfSelector s.memBlocks s.args[1] = some a →
    blockOfSelector s.memBlocks s.args[2] = some b → s.holding a = some A → s.holding b = some B →
    (A.specified = false ∨ B.specified = false ∨ (i = .fblockx ∧ ∃ D, s.holding d = some D ∧ D.specified = false)) →
    exec i s = .next t → t.unspecRead = true) ∧
  (∀ (s t : State) (i : Instr) a A, i ∈ [Instr.btobytes, .pround] → blockOfSelector s.memBlocks s.args[0] = some a →
    s.holding a = some A → A.specified = false → exec i s = .next t → t.err = false → t.unspecRead = true) ∧
  (∀ s t : State, s.unspecRead = true → step s = .next t → t.unspecRead = true ∧ t.ended = false)

/-- R53: WB0 always reads as 128 zero words, and a command naming it as its destination is rejected with BAD_OPERAND
before any state changes. -/
def Obligations.ZeroBlockIsHardwired : Prop :=
  (∀ s : State, ∃ Z : Block, s.holding (.wb .zero) = some (.written Z) ∧ s.readBlock (.wb .zero) = .ok Z ∧
    ∀ k, (h : k < 128) → Z[k] = 0) ∧
  (∀ (s : State) (i : Instr), i ∈ [Instr.bxor, .bclear, .bfrombytes, .pround, .fblock, .fblockx] → s.args[0].toNat = 2 ^ 63 →
    exec i s = .next { s with err := true, errCode := .badOperand, latch := none })

/-! ## Engine: NOP, configuration -/

/-- R271: NOP does nothing but end with DONE. -/
def Obligations.NopDoesNothing : Prop := ∀ (s : State), exec .nop s = .next { s with done := true, latch := none }

/-- R272, R276: CONFIG on parameters that pass every check of R273 sets the geometry, CFG and DONE. -/
def Obligations.ConfigSetsTheGeometry : Prop :=
  ∀ s : State, (1 ≤ s.lanes ∧ s.lanes ≤ 16777216) → 8 * s.lanes ≤ s.params.memKib.toNat → 1 ≤ s.iter →
    4 ≤ s.outLen → (s.params.version = 0x10 ∨ s.params.version = 0x13) → s.type ≤ 2 →
    4 * s.lanes * (s.params.memKib.toNat / (4 * s.lanes)) ≤ s.caps.maxBlocks → s.inputBytes ≤ s.caps.msgBytes →
    s.outLen ≤ s.caps.obufBytes →
    ∃ t, exec .config s = .next t ∧ t = { s with geom := t.geom, cfg := true, done := true, latch := none } ∧
      t.memBlocks = 4 * s.lanes * (s.params.memKib.toNat / (4 * s.lanes)) ∧
      t.laneLen = t.memBlocks / s.lanes ∧ t.segLen = t.laneLen / 4 ∧
      2 ≤ t.segLen ∧ 8 ≤ t.laneLen ∧ 8 * s.lanes ≤ t.memBlocks

/-- R273, R274: the checks run in the order of the table, the first failing one gives the error, and CFG and the
geometry are cleared; in CONFIG and in DERIVE alike. -/
def Obligations.CheckConfigOrder : Prop :=
  ∀ (s : State) i, i = Instr.config ∨ i = .derive →
    let fails (e : ErrCode) : Prop :=
      exec i s = .next { s with err := true, errCode := e, latch := none, cfg := false, geom := ⟨0, 0, 0⟩ }
    let c1 := 1 ≤ s.lanes ∧ s.lanes ≤ 16777216
    let c2 := 8 * s.lanes ≤ s.params.memKib.toNat
    let c3 := 1 ≤ s.iter
    let c4 := 4 ≤ s.outLen
    let c5 := s.params.version = 0x10 ∨ s.params.version = 0x13
    let c6 := s.type = 0 ∨ s.type = 1 ∨ s.type = 2
    let c7 := 4 * s.lanes * (s.params.memKib.toNat / (4 * s.lanes)) ≤ s.caps.maxBlocks
    let c8 := s.inputBytes ≤ s.caps.msgBytes
    let c9 := s.outLen ≤ s.caps.obufBytes
    (¬c1 → fails .cfgLanes) ∧
    (c1 → ¬c2 → fails .cfgMemory) ∧
    (c1 → c2 → ¬c3 → fails .cfgIter) ∧
    (c1 → c2 → c3 → ¬c4 → fails .cfgOutlen) ∧
    (c1 → c2 → c3 → c4 → ¬c5 → fails .cfgVersion) ∧
    (c1 → c2 → c3 → c4 → c5 → ¬c6 → fails .cfgType) ∧
    (c1 → c2 → c3 → c4 → c5 → c6 → ¬c7 → fails .resMatrix) ∧
    (c1 → c2 → c3 → c4 → c5 → c6 → c7 → ¬c8 → fails .resMsg) ∧
    (c1 → c2 → c3 → c4 → c5 → c6 → c7 → c8 → ¬c9 → fails .resObuf)

/-- R90, R277 and the bounds of R276, in every state that meets the invariant; the geometry is zero while CFG = 0
(R43). -/
def Obligations.GeometryBounds : Prop :=
  ∀ s : State, s.Inv →
    (s.cfg = true → s.memBlocks ≤ s.caps.maxBlocks ∧ s.memBlocks = s.laneLen * s.lanes ∧ s.laneLen = 4 * s.segLen ∧
      s.memBlocks ≤ s.params.memKib.toNat ∧ s.params.memKib.toNat - s.memBlocks < 4 * s.lanes ∧
      (s.memBlocks = s.params.memKib.toNat ↔ s.params.memKib.toNat % (4 * s.lanes) = 0) ∧
      2 ≤ s.segLen ∧ 8 ≤ s.laneLen ∧ 8 * s.lanes ≤ s.memBlocks) ∧
    (s.cfg = false → s.memBlocks = 0 ∧ s.laneLen = 0 ∧ s.segLen = 0)

/-! ## H′ -/

/-- R140: H′ returns exactly T bytes. -/
def Obligations.HprimeLength : Prop := ∀ (X : List Byte) (T : Nat), 1 ≤ T → (hprime X T).length = T

/-- R141: H′ is one digest for T <= 64; otherwise, with r = ceil(T/32) - 2 and V1 the 64-byte digest of LE32(T) ‖ X, it
is the first 32 bytes of V1 .. Vr, each the 64-byte digest of the one before, and then the digest of Vr of length
T - 32r, which lies in 33..64. -/
def Obligations.HprimeChunks : Prop :=
  ∀ (X : List Byte) (T : Nat),
    (T ≤ 64 → hprime X T = blake2b (le32 T ++ X) T) ∧
    (64 < T →
      let r := (T + 31) / 32 - 2
      let V : Nat → List Byte := fun k => (fun W => blake2b W 64)^[k] (blake2b (le32 T ++ X) 64)
      1 ≤ r ∧ 33 ≤ T - 32 * r ∧ T - 32 * r ≤ 64 ∧
        hprime X T = (List.range r).flatMap (fun k => (V k).take 32) ++ blake2b (V (r - 1)) (T - 32 * r))

/-- R142: HPRIME writes H′ of the MSG range to OBUF[0 : T) and changes nothing else. -/
def Obligations.HprimeCommand : Prop :=
  ∀ (s : State) (X : List Byte), Memory.wf s.obuf → s.args[0].toNat + s.args[1].toNat ≤ s.caps.msgBytes →
    1 ≤ s.args[2].toNat → s.args[2].toNat ≤ s.caps.obufBytes → X.length = s.args[1].toNat →
    (∀ j, j < X.length → s.msg.read (s.args[0].toNat + j) = X[j]?) →
    ∃ t, exec .hprime s = .next t ∧ t = { s with obuf := t.obuf, done := true, latch := none } ∧
      (∀ k, k < s.args[2].toNat → t.obuf.read k = (hprime X s.args[2].toNat)[k]?) ∧
      (∀ k, s.args[2].toNat ≤ k → t.obuf.read k = s.obuf.read k)

/-! ## Blocks -/

/-- R160: XorInto is word-wise, Clear gives 128 zero words, ToBytes gives 1024 little-endian bytes, FromBytes packs
them back and the two are inverse; XorInto is commutative and associative, ZERO is its identity, and XorInto(A, A) is
ZERO. -/
def Obligations.BlockFunctions : Prop :=
  (∀ B : Block, (toBytes B).length = 1024 ∧ fromBytes (toBytes B) = B) ∧
  (∀ bs : List Byte, bs.length = 1024 → toBytes (fromBytes bs) = bs) ∧
  (∀ (B : Block) (b : Nat) (h : b < 1024), (toBytes B)[b]? = some (B[b / 8].extractLsb' (8 * (b % 8)) 8)) ∧
  (∀ (A B : Block) (k : Nat) (h : k < 128), (xorInto A B)[k] = A[k] ^^^ B[k] ∧ zeroBlock[k] = 0) ∧
  (∀ (bs : List Byte) (k : Nat) (h : k < 128), bs.length = 1024 →
    (fromBytes bs)[k].toNat = ((List.range 8).map fun j => (bs[8 * k + j]?.getD 0).toNat * 2 ^ (8 * j)).sum) ∧
  (∀ A B C : Block, xorInto A B = xorInto B A ∧ xorInto (xorInto A B) C = xorInto A (xorInto B C) ∧
    xorInto A zeroBlock = A ∧ xorInto A A = zeroBlock)

/-- R161: BXOR writes the word-wise XOR of its sources, both read before the write, to its destination, and changes no
other block and nothing else.
A working block read while unspecified is read as it is held, and the fault recorded (R327; notes/assumptions/20.md). -/
def Obligations.BxorCommand : Prop :=
  ∀ (s : State) d a b (A B : Held Block), Memory.wf s.mtx → blockOfSelector s.memBlocks s.args[0] = some d → d ≠ .wb .zero →
    blockOfSelector s.memBlocks s.args[1] = some a → blockOfSelector s.memBlocks s.args[2] = some b →
    s.holding a = some A → s.holding b = some B →
    ∃ t C, exec .bxor s = .next t ∧
      t = { s with mtx := t.mtx, wb := t.wb, done := true, latch := none, unspecRead := s.unspecRead || !A.specified || !B.specified } ∧
      t.holding d = some (.written C) ∧ (∀ k, (h : k < 128) → C[k] = A.value[k] ^^^ B.value[k]) ∧
      (∀ r, r ≠ d → t.holding r = s.holding r)

/-- R164: BCLEAR zeroes its destination, specified or not, and changes nothing else. -/
def Obligations.BclearCommand : Prop :=
  ∀ (s : State) d, Memory.wf s.mtx → blockOfSelector s.memBlocks s.args[0] = some d → d ≠ .wb .zero →
    ∃ t C, exec .bclear s = .next t ∧
      t = { s with mtx := t.mtx, wb := t.wb, done := true, latch := none } ∧
      t.holding d = some (.written C) ∧ (∀ k, (h : k < 128) → C[k] = 0) ∧ (∀ r, r ≠ d → t.holding r = s.holding r)

/-- R162: BTOBYTES writes the 1024 bytes of its source to OBUF[off : off + 1024) and changes nothing else.
A working block read while unspecified is read as it is held, and the fault recorded (R327; notes/assumptions/20.md). -/
def Obligations.BtobytesCommand : Prop :=
  ∀ (s : State) a (B : Held Block), Memory.wf s.obuf → blockOfSelector s.memBlocks s.args[0] = some a → s.holding a = some B →
    s.args[1].toNat + 1024 ≤ s.caps.obufBytes →
    ∃ t, exec .btobytes s = .next t ∧
      t = { s with obuf := t.obuf, done := true, latch := none, unspecRead := s.unspecRead || !B.specified } ∧
      (∀ b, (h : b < 1024) →
        t.obuf.read (s.args[1].toNat + b) = some (B.value[b / 8].extractLsb' (8 * (b % 8)) 8)) ∧
      (∀ k, (k < s.args[1].toNat ∨ s.args[1].toNat + 1024 ≤ k) → t.obuf.read k = s.obuf.read k)

/-- R163: BFROMBYTES writes the block of MSG[off : off + 1024) to its destination and changes nothing else. -/
def Obligations.BfrombytesCommand : Prop :=
  ∀ (s : State) d (bs : List Byte), Memory.wf s.mtx → blockOfSelector s.memBlocks s.args[0] = some d → d ≠ .wb .zero →
    s.args[1].toNat + 1024 ≤ s.caps.msgBytes → bs.length = 1024 →
    (∀ j, j < 1024 → s.msg.read (s.args[1].toNat + j) = bs[j]?) →
    ∃ t C, exec .bfrombytes s = .next t ∧
      t = { s with mtx := t.mtx, wb := t.wb, done := true, latch := none } ∧
      t.holding d = some (.written C) ∧ (∀ b, (h : b < 1024) → bs[b]? = some (C[b / 8].extractLsb' (8 * (b % 8)) 8)) ∧
      (∀ r, r ≠ d → t.holding r = s.holding r)

/-! ## Compressor -/

/-- R180, R186: BLAMKA puts a + b + 2 * lo32(a) * lo32(b) modulo 2^64 in RES0 and changes nothing else. -/
def Obligations.BlamkaCommand : Prop :=
  ∀ s : State, ∃ w : Word,
    exec .blamka s = .next { s with res := s.res.set 0 w, done := true, latch := none } ∧
    w.toNat = (s.args[0].toNat + s.args[1].toNat +
      2 * ((s.args[0].toNat % 2 ^ 32) * (s.args[1].toNat % 2 ^ 32))) % 2 ^ 64

/-- R181, R187: GMIX puts G(ARG0 .. ARG3) in RES0 .. RES3, line by line as R181 writes it, and changes nothing else. -/
def Obligations.GmixCommand : Prop :=
  ∀ s : State,
    let f (x y : Word) : Word := x + y + 2 * ((x.setWidth 32).setWidth 64 * (y.setWidth 32).setWidth 64)
    let a1 := f s.args[0] s.args[1]
    let d1 := (s.args[3] ^^^ a1).rotateRight 32
    let c1 := f s.args[2] d1
    let b1 := (s.args[1] ^^^ c1).rotateRight 24
    let a2 := f a1 b1
    let d2 := (d1 ^^^ a2).rotateRight 16
    let c2 := f c1 d2
    let b2 := (b1 ^^^ c2).rotateRight 63
    exec .gmix s = .next { s with res := #v[a2, b2, c2, d2], done := true, latch := none }

/-- R188, R183, R182: PROUND applies the round function P, its eight calls of G written out in writtenP, to the 16 words
of the group in place and changes no other word, no other block and nothing else. The order and operands of the G calls
are in the spec's own words "[from general knowledge, not in source]" (R182), confirmed there by its vectors.
A working block read while unspecified is read as it is held, and the fault recorded (R327; notes/assumptions/20.md). -/
def Obligations.ProundCommand : Prop :=
  ∀ (s : State) d (Z : Held Block), Memory.wf s.mtx → blockOfSelector s.memBlocks s.args[0] = some d → d ≠ .wb .zero →
    s.holding d = some Z → s.args[1].toNat < 16 →
    let g := s.args[1].toNat
    let idx : Nat → Nat := fun j => if g < 8 then 16 * g + j else 2 * (g - 8) + 16 * (j / 2) + j % 2
    ∃ t C, exec .pround s = .next t ∧
      t = { s with mtx := t.mtx, wb := t.wb, done := true, latch := none, unspecRead := s.unspecRead || !Z.specified } ∧
      t.holding d = some (.written C) ∧ (∀ r, r ≠ d → t.holding r = s.holding r) ∧
      (∀ k, (h : k < 128) → (∀ j, j < 16 → idx j ≠ k) → C[k] = Z.value[k]) ∧
      (∀ j : Fin 16, C[idx j.val]? =
        some (writtenP (Vector.ofFn fun i : Fin 16 => Z.value[idx i.val]?.getD 0))[j])

/-- R189: FBLOCK writes F(X, Y), both read before the write, to its destination and changes nothing else.
A working block read while unspecified is read as it is held, and the fault recorded (R327; notes/assumptions/20.md). -/
def Obligations.FblockCommand : Prop :=
  ∀ (s : State) d x y (X Y : Held Block), Memory.wf s.mtx → blockOfSelector s.memBlocks s.args[0] = some d → d ≠ .wb .zero →
    blockOfSelector s.memBlocks s.args[1] = some x → blockOfSelector s.memBlocks s.args[2] = some y →
    s.holding x = some X → s.holding y = some Y →
    ∃ t, exec .fblock s = .next t ∧
      t = { s with mtx := t.mtx, wb := t.wb, done := true, latch := none, unspecRead := s.unspecRead || !X.specified || !Y.specified } ∧
      t.holding d = some (.written (compressF X.value Y.value)) ∧ (∀ r, r ≠ d → t.holding r = s.holding r)

/-- R190: FBLOCKX writes F(X, Y) XORed with the destination's previous contents, all read before the write; with
d = X = Y the block is unchanged.
A working block read while unspecified is read as it is held, and the fault recorded (R327; notes/assumptions/20.md). -/
def Obligations.FblockxCommand : Prop :=
  ∀ (s : State) d x y (X Y D : Held Block), Memory.wf s.mtx → blockOfSelector s.memBlocks s.args[0] = some d → d ≠ .wb .zero →
    blockOfSelector s.memBlocks s.args[1] = some x → blockOfSelector s.memBlocks s.args[2] = some y →
    s.holding x = some X → s.holding y = some Y → s.holding d = some D →
    ∃ t C, exec .fblockx s = .next t ∧
      t = { s with mtx := t.mtx, wb := t.wb, done := true, latch := none, unspecRead := s.unspecRead || !X.specified || !Y.specified || !D.specified } ∧
      t.holding d = some (.written C) ∧ (∀ k, (h : k < 128) → C[k] = (compressF X.value Y.value)[k] ^^^ D.value[k]) ∧
      (∀ r, r ≠ d → t.holding r = s.holding r) ∧ (x = d → y = d → C = D.value)

/-- R184: F is the function R180 to R184 write, for all X and Y: R XORed with the rows 0 .. 7 and then the columns
8 .. 15 applied to R = X ^ Y (writtenF). R191: F is symmetric, F(X, X) = ZERO, F(ZERO, ZERO) = ZERO, and with X = ZERO
the first XOR may be left out. The order and operands of the eight G calls (R182) and the membership of the groups
(R183) are in the spec's own words "[from general knowledge, not in source]", confirmed there by its vectors. -/
def Obligations.CompressorProperties : Prop :=
  (∀ X Y : Block, compressF X Y = writtenF X Y) ∧ (∀ X Y : Block, compressF X Y = compressF Y X) ∧
  (∀ X : Block, compressF X X = zeroBlock) ∧
  compressF zeroBlock zeroBlock = zeroBlock ∧
  (∀ Y : Block, compressF zeroBlock Y = xorInto Y ((List.range 16).foldl (fun Z g => applyGroup g Z) Y))

/-! ## Address generator -/

/-- R212: AINIT writes the input block of a segment to AIN and changes nothing else. -/
def Obligations.AinitCommand : Prop :=
  ∀ s : State, s.cfg = true → s.args[0].toNat < s.iter → s.args[1].toNat < s.lanes → s.args[2].toNat < 4 →
    ∃ A : Block,
      exec .ainit s = .next { s with wb := { s.wb with ain := .written A }, done := true, latch := none } ∧
      A[0] = s.args[0] ∧ A[1] = s.args[1] ∧ A[2] = s.args[2] ∧ A[3] = s.geom.memBlocks.setWidth 64 ∧
      A[4] = s.params.iter.setWidth 64 ∧ A[5] = s.params.type.setWidth 64 ∧
      (∀ k, (h : k < 128) → 6 ≤ k → A[k] = 0)

/-- R213: ANEXT increments word 6 of AIN modulo 2^64, writes F(ZERO, F(ZERO, AIN)) to ABLK, and changes nothing else but
the record of its read of AIN, if that is unspecified (notes/assumptions/20.md). -/
def Obligations.AnextCommand : Prop :=
  ∀ s : State, ∃ A' : Block, exec .anext s = .next { s with
      wb := { s.wb with ain := .written A', ablk := .written (compressF zeroBlock (compressF zeroBlock A')) }
      done := true, latch := none, unspecRead := s.unspecRead || !s.wb.ain.specified } ∧
    A'[6].toNat = (s.wb.ain.value[6].toNat + 1) % 2 ^ 64 ∧ (∀ k, (h : k < 128) → k ≠ 6 → A'[k] = s.wb.ain.value[k])

/-- R214: AWORD puts word (ARG0 mod 128) of ABLK in RES0, for every index, and changes nothing else but the record of its
read of ABLK, if that is unspecified (notes/assumptions/20.md). -/
def Obligations.AwordCommand : Prop :=
  ∀ s : State, exec .aword s = .next { s with
    res := s.res.set 0 (s.wb.ablk.value[s.args[0].toNat % 128]'(Nat.mod_lt _ (by decide)))
    done := true, latch := none, unspecRead := s.unspecRead || !s.wb.ablk.specified }

/-! ## Filler -/

/-- REFINDEX (R234-R238, R244): the reference lane, column, flat index and area size, computed as the rules write them,
go to RES0 .. RES3; nothing else changes. -/
def Obligations.RefindexCommand : Prop :=
  ∀ s : State, s.Inv → s.cfg = true → s.args[1].toNat < s.iter → s.args[2].toNat < 4 → s.args[3].toNat < s.lanes →
    s.args[4].toNat < s.segLen → ¬(s.args[1].toNat = 0 ∧ s.args[2].toNat = 0 ∧ s.args[4].toNat < 2) →
    let J := s.args[0].toNat
    let pass := s.args[1].toNat
    let slice := s.args[2].toNat
    let lane := s.args[3].toNat
    let i := s.args[4].toNat
    let q := s.laneLen
    let seg := s.segLen
    let refLane := if pass = 0 ∧ slice = 0 then lane else (J / 2 ^ 32) % s.lanes
    let A :=
      if pass = 0 ∧ slice = 0 then i - 1
      else if pass = 0 ∧ refLane = lane then slice * seg + i - 1
      else if pass = 0 then slice * seg - (if i = 0 then 1 else 0)
      else if refLane = lane then q - seg + i - 1
      else q - seg - (if i = 0 then 1 else 0)
    let start := if pass = 0 ∨ slice = 3 then 0 else (slice + 1) * seg
    let x := (J % 2 ^ 32) * (J % 2 ^ 32) / 2 ^ 32
    let rel := A - 1 - (A * x) / 2 ^ 32
    let refCol := (start + rel) % q
    ∃ t, exec .refindex s = .next t ∧ t = { s with res := t.res, done := true, latch := none } ∧
      t.res[0].toNat = refLane ∧ t.res[1].toNat = refCol ∧ t.res[2].toNat = refLane * q + refCol ∧
      t.res[3].toNat = A

/-- R242: the invariants (a)-(f) of every reference at every legal position, for every J. -/
def Obligations.ReferenceInvariants : Prop :=
  ∀ (s : State) pass slice lane i (J : Word), s.Inv → s.cfg = true → s.legalPosition pass slice lane i →
    let r := s.referenceOf pass slice lane i J
    let rel := relativePosition r.area (lo32 J).toNat
    let cur := flatIndex s.laneLen lane (currentColumn s.segLen slice i)
    let prev := flatIndex s.laneLen lane (previousColumn s.laneLen s.segLen slice i)
    1 ≤ r.area ∧ rel ≤ r.area - 1 ∧ r.col < s.laneLen ∧ r.lane < s.lanes ∧ r.flat < s.memBlocks ∧
      r.flat ≠ cur ∧ r.flat ≠ prev ∧
      (r.lane ≠ lane → ¬(slice * s.segLen ≤ r.col ∧ r.col < slice * s.segLen + s.segLen)) ∧
      (r.lane = lane → slice * s.segLen ≤ r.col → r.col < slice * s.segLen + s.segLen →
        r.col + 1 < slice * s.segLen + i) ∧
      (pass = 0 → r.col < 2 ∨ r.col < slice * s.segLen ∨ (r.lane = lane ∧ r.col < slice * s.segLen + i))

/-- FSEG completes from a fillable matrix (R239, R240, R245): it specifies every block of its segment and writes nothing
else but WB1 and WB2 of a data-independent segment. There AIN is left with the counter at the number of generations,
one at startIndex and one at every further multiple of 128, and ABLK with the last address block; a segment without
blocks sets AIN and leaves ABLK. -/
def Obligations.FsegCommand : Prop :=
  ∀ s : State, s.Inv → s.cfg = true → s.args[0].toNat < s.iter → s.args[1].toNat < 4 →
    s.args[2].toNat < s.lanes → s.fillable s.args[0].toNat s.args[1].toNat →
    let pass := s.args[0].toNat
    let slice := s.args[1].toNat
    let lane := s.args[2].toNat
    let first := flatIndex s.laneLen lane (slice * s.segLen + startIndex pass slice)
    let last := flatIndex s.laneLen lane (slice * s.segLen + s.segLen)
    ∃ t, exec .fseg s = .next t ∧ t = { s with mtx := t.mtx, wb := t.wb, done := true, latch := none } ∧
      (∀ k, first ≤ k → k < last → (t.mtx.read k).isSome = true) ∧
      (∀ k, (k < first ∨ last ≤ k) → t.mtx.read k = s.mtx.read k) ∧
      (s.dataIndependent pass slice = false → t.wb = s.wb) ∧
      (s.dataIndependent pass slice = true →
        let n := if startIndex pass slice < s.segLen then 1 + (s.segLen - 1) / 128 else 0
        let input := (inputBlock pass lane slice s.memBlocks s.iter s.type).set 6 (BitVec.ofNat 64 n)
        t.wb = { s.wb with
          ain := .written input
          ablk := if n = 0 then s.wb.ablk else .written (compressF zeroBlock (compressF zeroBlock input)) })

/-- What FSEG computes (R233, R240, R241, R243): every block of the segment is F of its previous and its reference
block, XORed with its old contents under the XOR policy; J is word i mod 128 of the address block of counter
1 + i / 128 in a data-independent segment, and the first word of the previous block otherwise. -/
def Obligations.SegmentSatisfiesTheRecurrence : Prop :=
  ∀ s : State, s.Inv → s.cfg = true → s.args[0].toNat < s.iter → s.args[1].toNat < 4 →
    s.args[2].toNat < s.lanes → s.fillable s.args[0].toNat s.args[1].toNat →
    let pass := s.args[0].toNat
    let slice := s.args[1].toNat
    let lane := s.args[2].toNat
    ∃ t, exec .fseg s = .next t ∧
      ∀ i, startIndex pass slice ≤ i → i < s.segLen →
        ∃ X Y : Block,
          let counter : Word := BitVec.ofNat 64 (1 + i / 128)
          let input := (inputBlock pass lane slice s.memBlocks s.iter s.type).set 6 counter
          let J := if s.dataIndependent pass slice = true
            then wordOf (compressF zeroBlock (compressF zeroBlock input)) i else X[0]
          let cur := flatIndex s.laneLen lane (currentColumn s.segLen slice i)
          t.mtx.read (flatIndex s.laneLen lane (previousColumn s.laneLen s.segLen slice i)) = some X ∧
          t.mtx.read (s.referenceOf pass slice lane i J).flat = some Y ∧
          (¬(0 < pass ∧ s.params.version = 0x13) → t.mtx.read cur = some (compressF X Y)) ∧
          (0 < pass → s.params.version = 0x13 →
            ∃ D, s.mtx.read cur = some D ∧ t.mtx.read cur = some (xorInto (compressF X Y) D))

/-- R246: for a fixed (pass, slice), the FSEG commands of two lanes give the same matrix in either order. -/
def Obligations.LaneOrderDoesNotMatter : Prop :=
  ∀ (s : State) (pass slice a b : Word), s.Inv → s.cfg = true → pass.toNat < s.iter → slice.toNat < 4 →
    a.toNat < s.lanes → b.toNat < s.lanes → a ≠ b → s.fillable pass.toNat slice.toNat →
    let fseg (u : State) (lane : Word) := exec .fseg { u with args := #v[pass, slice, lane, 0, 0, 0] }
    ∃ u1 u2 w1 w2, fseg s a = .next u1 ∧ fseg u1 b = .next u2 ∧ fseg s b = .next w1 ∧ fseg w1 a = .next w2 ∧
      u2.mtx = w2.mtx

/-- FMATRIX completes from a seeded matrix (R247): it leaves the matrix, AIN and ABLK that the FSEG commands of all
segments leave, in pass, slice and lane order; every block of the matrix is specified afterwards; blocks beyond
MEMBLOCKS, FIN and T0 .. T3 are unchanged, and so are AIN and ABLK for TYPE 0; for TYPE 1 and TYPE 2 they are left by
the last data-independent segment, with the model's ascending lane order (notes/assumptions/10.md). -/
def Obligations.FmatrixCommand : Prop :=
  ∀ s : State, s.Inv → s.cfg = true → s.seeded →
    ∃ t, exec .fmatrix s = .next t ∧ t = { s with mtx := t.mtx, wb := t.wb, done := true, latch := none } ∧
      t.matrixSpecified ∧ (∀ k, s.memBlocks ≤ k → t.mtx.read k = s.mtx.read k) ∧
      t.wb = { s.wb with ain := t.wb.ain, ablk := t.wb.ablk } ∧ (s.type = 0 → t.wb = s.wb) ∧
      (s.type ≠ 0 →
        let pass := if s.type = 1 then s.iter - 1 else 0
        let slice := if s.type = 1 then 3 else 1
        let input := (inputBlock pass (s.lanes - 1) slice s.memBlocks s.iter s.type).set 6
          (BitVec.ofNat 64 (1 + (s.segLen - 1) / 128))
        t.wb.ain = .written input ∧ t.wb.ablk = .written (compressF zeroBlock (compressF zeroBlock input))) ∧
      ∃ u, runFsegs s.segments s = .next u ∧ u.mtx = t.mtx ∧ u.wb = t.wb

/-! ## Derivation -/

/-- R282: H0 is the 64-byte digest of the six parameters and the four length-prefixed strings, the strings taken from MSG
in order; nothing else changes. -/
def Obligations.H0Command : Prop :=
  ∀ (s : State) P S K X, s.cfg = true → P.length = s.params.pwdLen.toNat → S.length = s.params.saltLen.toNat →
    K.length = s.params.secretLen.toNat → X.length = s.params.adLen.toNat →
    (∀ j, j < s.inputBytes → s.msg.read j = (P ++ S ++ K ++ X)[j]?) →
    ∃ h, exec .h0 s = .next { s with h0 := .written h, done := true, latch := none } ∧
      h = Config.blake2bDigest
        (le32 s.lanes ++ le32 s.outLen ++
          le32 (if Config.h0MemField = .rounded then s.memBlocks else s.params.memKib.toNat) ++ le32 s.iter ++
          le32 s.params.version.toNat ++ le32 s.type ++
          (le32 P.length ++ P) ++ (le32 S.length ++ S) ++ (le32 K.length ++ K) ++ (le32 X.length ++ X)) 64

/-- R288: SEED writes the two seed blocks of every lane, computed from H0, and nothing else but the record of its read of
H0, if that is unspecified (notes/assumptions/20.md). -/
def Obligations.SeedCommand : Prop :=
  ∀ s : State, s.Inv → s.cfg = true →
    let h := s.h0.value
    ∃ t, exec .seed s = .next t ∧
      t = { s with mtx := t.mtx, done := true, latch := none, unspecRead := s.unspecRead || !s.h0.specified } ∧
      (∀ l, l < s.lanes →
        t.mtx.read (l * s.laneLen) = some (fromBytes (hprime (h.toList ++ le32 0 ++ le32 l) 1024)) ∧
        t.mtx.read (l * s.laneLen + 1) = some (fromBytes (hprime (h.toList ++ le32 1 ++ le32 l) 1024))) ∧
      (∀ k, (∀ l, l < s.lanes → k ≠ l * s.laneLen ∧ k ≠ l * s.laneLen + 1) → t.mtx.read k = s.mtx.read k)

/-- R292: FINAL leaves the XOR of the last column in FIN and its H′ of OUTLEN bytes in OBUF[0 : OUTLEN), and changes
nothing else. -/
def Obligations.FinalCommand : Prop :=
  ∀ (s : State) (C : Nat → Block), s.Inv → s.cfg = true →
    (∀ l, l < s.lanes → s.mtx.read (l * s.laneLen + (s.laneLen - 1)) = some (C l)) →
    let B := (List.range s.lanes).foldl (fun acc l => xorInto acc (C l)) zeroBlock
    ∃ t, exec .final s = .next t ∧
      t = { s with wb := { s.wb with fin := .written B }, obuf := t.obuf, done := true, latch := none } ∧
      (∀ k, k < s.outLen → t.obuf.read k = (hprime (toBytes B) s.outLen)[k]?) ∧
      (∀ k, s.outLen ≤ k → t.obuf.read k = s.obuf.read k)

/-- R305: a derivation built from CONFIG, H0, SEED, FMATRIX and FINAL completes and leaves in OBUF the same bytes as
DERIVE; DERIVE differs only in having cleared the matrix, the working blocks and H0. -/
def Obligations.DeriveEqualsThePrimitiveSequence : Prop :=
  ∀ s : State, s.Inv → checkConfig s.params s.caps = none → s.msgSpecified 0 s.inputBytes →
    ∃ a b c d e t, exec .config s = .next a ∧ exec .h0 a = .next b ∧ exec .seed b = .next c ∧
      exec .fmatrix c = .next d ∧ exec .final d = .next e ∧ exec .derive s = .next t ∧
      t = { e with mtx := t.mtx, wb := t.wb, h0 := t.h0 } ∧ t.obuf = e.obuf

/-- DERIVE completes whenever CheckConfig passes and the input strings are specified (R296): the digest bytes
OBUF[0 : OUTLEN) are specified, the matrix, WB1 .. WB7 and H0 are zero, the geometry is that of R276, and nothing else
but CFG and DONE changes. -/
def Obligations.DeriveCompletesAndZeroizes : Prop :=
  ∀ s : State, s.Inv → checkConfig s.params s.caps = none → s.msgSpecified 0 s.inputBytes →
    ∃ t, exec .derive s = .next t ∧
      t = { s with
        geom := geometryOf s.params, cfg := true, mtx := t.mtx, wb := t.wb, h0 := .written (Vector.replicate 64 0),
        obuf := t.obuf, done := true, latch := none } ∧
      t.memBlocks = 4 * s.lanes * (s.params.memKib.toNat / (4 * s.lanes)) ∧
      (∀ k, k < t.memBlocks → t.mtx.read k = some zeroBlock) ∧
      (∀ k, t.memBlocks ≤ k → t.mtx.read k = s.mtx.read k) ∧
      (∀ r, t.wb.held r = .written zeroBlock) ∧
      (∀ k, k < s.outLen → (t.obuf.read k).isSome = true) ∧ (∀ k, s.outLen ≤ k → t.obuf.read k = s.obuf.read k)

/-- R300: ZEROIZE clears MTX, WB1 .. WB7, H0, MSG, OBUF, ARG and RES; CTRL, CFG, the parameters and the geometry are
unchanged, and every piece of state of R61 is specified afterwards. -/
def Obligations.ZeroizeCommand : Prop :=
  ∀ s : State, Memory.wf s.mtx → Memory.wf s.msg → Memory.wf s.obuf →
    ∃ t, exec .zeroize s = .next t ∧
      t = { s with
        mtx := t.mtx, wb := t.wb, h0 := .written (Vector.replicate 64 0), msg := t.msg, obuf := t.obuf,
        args := Vector.replicate 6 0, res := Vector.replicate 4 0, done := true, latch := none } ∧
      (∀ k, k < s.caps.maxBlocks → t.mtx.read k = some zeroBlock) ∧ (∀ r, t.wb.held r = .written zeroBlock) ∧
      (∀ k, k < s.caps.msgBytes → t.msg.read k = some 0) ∧ (∀ k, k < s.caps.obufBytes → t.obuf.read k = some 0)

/-! ## Host statements -/

/-- What every assembler statement stands for (R122, R123), and how a statement runs: from an idle core with nothing
else to come, a command statement runs as its ARG writes, its CMD write and WAIT and ends with the effect of its command
on these operands, or with its fault; LOADMSG fills its MSG bytes, the last word padded with zeros; BLAMKA a, b, worked
out, leaves BlaMka(a, b) in RES0. SETP, CLRST and the reads of READOUT are single accesses, covered above. The list
of inputs as an agenda, and WAIT as one core turn and one STATUS read, are the model's (notes/assumptions/1.md and
14.md). -/
def Obligations.StatementRunsToItsEnd : Prop :=
  (∀ i ops, stmtEvents (.command i ops) =
    (ops.zipIdx.map fun v => Event.host (.write (0x080 + 8 * v.2) 8 v.1)) ++
      [.host (.write 0x010 8 (encode i)), .core, .host (.read 0x008 8)]) ∧
  stmtEvents .wait = [.core, .host (.read 0x008 8)] ∧
  (∀ d a, stmtEvents (.bcopy d a) = stmtEvents (.command .bxor [d, a, 0x8000000000000000])) ∧
  ((∀ p v, stmtEvents (.setp p v) = [.host (.write (paramOffset p) 8 v)]) ∧
    [ParamReg.type, .version, .iter, .memKib, .lanes, .outLen, .pwdLen, .saltLen, .secretLen, .adLen].map paramOffset =
      [0x018, 0x020, 0x028, 0x030, 0x038, 0x040, 0x048, 0x050, 0x058, 0x060]) ∧
  stmtEvents .clrst = [.host (.write 0x008 8 0xE)] ∧
  (∀ off bytes, ∃ w : Nat → Word,
    stmtEvents (.loadmsg off bytes) =
      ((List.range ((bytes.length + 7) / 8)).map fun j => Event.host (.write (0x10000 + off + 8 * j) 8 (w j))) ∧
    ∀ j b, j < (bytes.length + 7) / 8 → b < 8 → (w j).extractLsb' (8 * b) 8 = bytes[8 * j + b]?.getD 0) ∧
  (∀ off n, ∃ words : List Nat,
    stmtEvents (.readout off n) = (words.map fun q => Event.host (.read (0x20000 + 8 * q) 8)) ∧
    words.Pairwise (fun q r => q < r) ∧ ∀ q, q ∈ words ↔ ∃ j, j < n ∧ (off + j) / 8 = q) ∧
  (∀ (s : State) i ops, s.busy = false → (Stmt.command i ops).wellFormed = true →
    let before : State := { s with
      args := Vector.ofFn fun n : Fin 6 => ops[n.val]?.getD s.args[n]
      latch := some (encode i), done := false, err := false, errCode := .none
      agenda := [.host (.read 0x008 8)] }
    let run := core.run (ops.length + 3) { s with agenda := stmtEvents (.command i ops) }
    (∀ u, exec i before = .next u →
      run = .next { u with agenda := [], rdata := u.statusWord, draws := s.draws + 1 } ∧ u.busy = false) ∧
    (∀ f, exec i before = .fault f → run = .fault f)) ∧
  (∀ (s : State) off bytes, s.busy = false → Memory.wf s.msg → (Stmt.loadmsg off bytes).wellFormed = true →
    ∃ t, core.run ((bytes.length + 7) / 8) { s with agenda := stmtEvents (.loadmsg off bytes) } = .next t ∧
      t = { s with agenda := [], msg := t.msg } ∧
      (∀ k, k < 8 * ((bytes.length + 7) / 8) → off + k < s.caps.msgBytes →
        t.msg.read (off + k) = some (bytes[k]?.getD 0)) ∧
      (∀ k, (k < off ∨ off + 8 * ((bytes.length + 7) / 8) ≤ k ∨ s.caps.msgBytes ≤ k) →
        t.msg.read k = s.msg.read k)) ∧
  (∀ (s : State) (a b : Word), s.busy = false →
    ∃ t, core.run 5 { s with agenda := stmtEvents (.command .blamka [a, b]) } = .next t ∧
      t.agenda = [] ∧ t.busy = false ∧ t.done = true ∧ t.err = false ∧ t.res = s.res.set 0 (blaMka a b) ∧
      t.args = (s.args.set 0 a).set 1 b ∧ t.rdata = t.statusWord)
end

