-- ==== Sys2Proof/Laws/State.lean ====
section
/-! SUPPORT. One lemma per field per named update of the state, each true by rfl, so that no later proof unfolds a
record update; and the same for the register views a fill reads. -/

namespace Sys2Proof.Machine

/-! ### complete -/

@[simp] theorem State.complete_ie (s : State) : (s.complete).ie = s.ie := rfl
@[simp] theorem State.complete_done (s : State) : (s.complete).done = true := rfl
@[simp] theorem State.complete_err (s : State) : (s.complete).err = s.err := rfl
@[simp] theorem State.complete_wign (s : State) : (s.complete).wign = s.wign := rfl
@[simp] theorem State.complete_cfg (s : State) : (s.complete).cfg = s.cfg := rfl
@[simp] theorem State.complete_errCode (s : State) : (s.complete).errCode = s.errCode := rfl
@[simp] theorem State.complete_latch (s : State) : (s.complete).latch = none := rfl
@[simp] theorem State.complete_params (s : State) : (s.complete).params = s.params := rfl
@[simp] theorem State.complete_geom (s : State) : (s.complete).geom = s.geom := rfl
@[simp] theorem State.complete_args (s : State) : (s.complete).args = s.args := rfl
@[simp] theorem State.complete_res (s : State) : (s.complete).res = s.res := rfl
@[simp] theorem State.complete_caps (s : State) : (s.complete).caps = s.caps := rfl
@[simp] theorem State.complete_mtx (s : State) : (s.complete).mtx = s.mtx := rfl
@[simp] theorem State.complete_wb (s : State) : (s.complete).wb = s.wb := rfl
@[simp] theorem State.complete_h0 (s : State) : (s.complete).h0 = s.h0 := rfl
@[simp] theorem State.complete_msg (s : State) : (s.complete).msg = s.msg := rfl
@[simp] theorem State.complete_obuf (s : State) : (s.complete).obuf = s.obuf := rfl
@[simp] theorem State.complete_agenda (s : State) : (s.complete).agenda = s.agenda := rfl
@[simp] theorem State.complete_rdata (s : State) : (s.complete).rdata = s.rdata := rfl
@[simp] theorem State.complete_draws (s : State) : (s.complete).draws = s.draws := rfl
@[simp] theorem State.complete_unspecRead (s : State) : (s.complete).unspecRead = s.unspecRead := rfl
@[simp] theorem State.complete_memBlocks (s : State) : (s.complete).memBlocks = s.memBlocks := rfl
@[simp] theorem State.complete_laneLen (s : State) : (s.complete).laneLen = s.laneLen := rfl
@[simp] theorem State.complete_segLen (s : State) : (s.complete).segLen = s.segLen := rfl
@[simp] theorem State.complete_lanes (s : State) : (s.complete).lanes = s.lanes := rfl
@[simp] theorem State.complete_iter (s : State) : (s.complete).iter = s.iter := rfl
@[simp] theorem State.complete_type (s : State) : (s.complete).type = s.type := rfl
@[simp] theorem State.complete_outLen (s : State) : (s.complete).outLen = s.outLen := rfl

/-! ### raiseError -/

@[simp] theorem State.raiseError_ie (s : State) (e : ErrCode) : (s.raiseError e).ie = s.ie := rfl
@[simp] theorem State.raiseError_done (s : State) (e : ErrCode) : (s.raiseError e).done = s.done := rfl
@[simp] theorem State.raiseError_err (s : State) (e : ErrCode) : (s.raiseError e).err = true := rfl
@[simp] theorem State.raiseError_wign (s : State) (e : ErrCode) : (s.raiseError e).wign = s.wign := rfl
@[simp] theorem State.raiseError_cfg (s : State) (e : ErrCode) : (s.raiseError e).cfg = s.cfg := rfl
@[simp] theorem State.raiseError_errCode (s : State) (e : ErrCode) : (s.raiseError e).errCode = e := rfl
@[simp] theorem State.raiseError_latch (s : State) (e : ErrCode) : (s.raiseError e).latch = none := rfl
@[simp] theorem State.raiseError_params (s : State) (e : ErrCode) : (s.raiseError e).params = s.params := rfl
@[simp] theorem State.raiseError_geom (s : State) (e : ErrCode) : (s.raiseError e).geom = s.geom := rfl
@[simp] theorem State.raiseError_args (s : State) (e : ErrCode) : (s.raiseError e).args = s.args := rfl
@[simp] theorem State.raiseError_res (s : State) (e : ErrCode) : (s.raiseError e).res = s.res := rfl
@[simp] theorem State.raiseError_caps (s : State) (e : ErrCode) : (s.raiseError e).caps = s.caps := rfl
@[simp] theorem State.raiseError_mtx (s : State) (e : ErrCode) : (s.raiseError e).mtx = s.mtx := rfl
@[simp] theorem State.raiseError_wb (s : State) (e : ErrCode) : (s.raiseError e).wb = s.wb := rfl
@[simp] theorem State.raiseError_h0 (s : State) (e : ErrCode) : (s.raiseError e).h0 = s.h0 := rfl
@[simp] theorem State.raiseError_msg (s : State) (e : ErrCode) : (s.raiseError e).msg = s.msg := rfl
@[simp] theorem State.raiseError_obuf (s : State) (e : ErrCode) : (s.raiseError e).obuf = s.obuf := rfl
@[simp] theorem State.raiseError_agenda (s : State) (e : ErrCode) : (s.raiseError e).agenda = s.agenda := rfl
@[simp] theorem State.raiseError_rdata (s : State) (e : ErrCode) : (s.raiseError e).rdata = s.rdata := rfl
@[simp] theorem State.raiseError_draws (s : State) (e : ErrCode) : (s.raiseError e).draws = s.draws := rfl
@[simp] theorem State.raiseError_unspecRead (s : State) (e : ErrCode) : (s.raiseError e).unspecRead = s.unspecRead := rfl
@[simp] theorem State.raiseError_memBlocks (s : State) (e : ErrCode) : (s.raiseError e).memBlocks = s.memBlocks := rfl
@[simp] theorem State.raiseError_laneLen (s : State) (e : ErrCode) : (s.raiseError e).laneLen = s.laneLen := rfl
@[simp] theorem State.raiseError_segLen (s : State) (e : ErrCode) : (s.raiseError e).segLen = s.segLen := rfl
@[simp] theorem State.raiseError_lanes (s : State) (e : ErrCode) : (s.raiseError e).lanes = s.lanes := rfl
@[simp] theorem State.raiseError_iter (s : State) (e : ErrCode) : (s.raiseError e).iter = s.iter := rfl
@[simp] theorem State.raiseError_type (s : State) (e : ErrCode) : (s.raiseError e).type = s.type := rfl
@[simp] theorem State.raiseError_outLen (s : State) (e : ErrCode) : (s.raiseError e).outLen = s.outLen := rfl

/-! ### issue -/

@[simp] theorem State.issue_ie (s : State) (v : Word) : (s.issue v).ie = s.ie := rfl
@[simp] theorem State.issue_done (s : State) (v : Word) : (s.issue v).done = false := rfl
@[simp] theorem State.issue_err (s : State) (v : Word) : (s.issue v).err = false := rfl
@[simp] theorem State.issue_wign (s : State) (v : Word) : (s.issue v).wign = s.wign := rfl
@[simp] theorem State.issue_cfg (s : State) (v : Word) : (s.issue v).cfg = s.cfg := rfl
@[simp] theorem State.issue_errCode (s : State) (v : Word) : (s.issue v).errCode = .none := rfl
@[simp] theorem State.issue_latch (s : State) (v : Word) : (s.issue v).latch = some v := rfl
@[simp] theorem State.issue_params (s : State) (v : Word) : (s.issue v).params = s.params := rfl
@[simp] theorem State.issue_geom (s : State) (v : Word) : (s.issue v).geom = s.geom := rfl
@[simp] theorem State.issue_args (s : State) (v : Word) : (s.issue v).args = s.args := rfl
@[simp] theorem State.issue_res (s : State) (v : Word) : (s.issue v).res = s.res := rfl
@[simp] theorem State.issue_caps (s : State) (v : Word) : (s.issue v).caps = s.caps := rfl
@[simp] theorem State.issue_mtx (s : State) (v : Word) : (s.issue v).mtx = s.mtx := rfl
@[simp] theorem State.issue_wb (s : State) (v : Word) : (s.issue v).wb = s.wb := rfl
@[simp] theorem State.issue_h0 (s : State) (v : Word) : (s.issue v).h0 = s.h0 := rfl
@[simp] theorem State.issue_msg (s : State) (v : Word) : (s.issue v).msg = s.msg := rfl
@[simp] theorem State.issue_obuf (s : State) (v : Word) : (s.issue v).obuf = s.obuf := rfl
@[simp] theorem State.issue_agenda (s : State) (v : Word) : (s.issue v).agenda = s.agenda := rfl
@[simp] theorem State.issue_rdata (s : State) (v : Word) : (s.issue v).rdata = s.rdata := rfl
@[simp] theorem State.issue_draws (s : State) (v : Word) : (s.issue v).draws = s.draws := rfl
@[simp] theorem State.issue_unspecRead (s : State) (v : Word) : (s.issue v).unspecRead = s.unspecRead := rfl
@[simp] theorem State.issue_memBlocks (s : State) (v : Word) : (s.issue v).memBlocks = s.memBlocks := rfl
@[simp] theorem State.issue_laneLen (s : State) (v : Word) : (s.issue v).laneLen = s.laneLen := rfl
@[simp] theorem State.issue_segLen (s : State) (v : Word) : (s.issue v).segLen = s.segLen := rfl
@[simp] theorem State.issue_lanes (s : State) (v : Word) : (s.issue v).lanes = s.lanes := rfl
@[simp] theorem State.issue_iter (s : State) (v : Word) : (s.issue v).iter = s.iter := rfl
@[simp] theorem State.issue_type (s : State) (v : Word) : (s.issue v).type = s.type := rfl
@[simp] theorem State.issue_outLen (s : State) (v : Word) : (s.issue v).outLen = s.outLen := rfl

/-! ### clearConfig -/

@[simp] theorem State.clearConfig_ie (s : State) : (s.clearConfig).ie = s.ie := rfl
@[simp] theorem State.clearConfig_done (s : State) : (s.clearConfig).done = s.done := rfl
@[simp] theorem State.clearConfig_err (s : State) : (s.clearConfig).err = s.err := rfl
@[simp] theorem State.clearConfig_wign (s : State) : (s.clearConfig).wign = s.wign := rfl
@[simp] theorem State.clearConfig_cfg (s : State) : (s.clearConfig).cfg = false := rfl
@[simp] theorem State.clearConfig_errCode (s : State) : (s.clearConfig).errCode = s.errCode := rfl
@[simp] theorem State.clearConfig_latch (s : State) : (s.clearConfig).latch = s.latch := rfl
@[simp] theorem State.clearConfig_params (s : State) : (s.clearConfig).params = s.params := rfl
@[simp] theorem State.clearConfig_geom (s : State) : (s.clearConfig).geom = Geometry.zero := rfl
@[simp] theorem State.clearConfig_args (s : State) : (s.clearConfig).args = s.args := rfl
@[simp] theorem State.clearConfig_res (s : State) : (s.clearConfig).res = s.res := rfl
@[simp] theorem State.clearConfig_caps (s : State) : (s.clearConfig).caps = s.caps := rfl
@[simp] theorem State.clearConfig_mtx (s : State) : (s.clearConfig).mtx = s.mtx := rfl
@[simp] theorem State.clearConfig_wb (s : State) : (s.clearConfig).wb = s.wb := rfl
@[simp] theorem State.clearConfig_h0 (s : State) : (s.clearConfig).h0 = s.h0 := rfl
@[simp] theorem State.clearConfig_msg (s : State) : (s.clearConfig).msg = s.msg := rfl
@[simp] theorem State.clearConfig_obuf (s : State) : (s.clearConfig).obuf = s.obuf := rfl
@[simp] theorem State.clearConfig_agenda (s : State) : (s.clearConfig).agenda = s.agenda := rfl
@[simp] theorem State.clearConfig_rdata (s : State) : (s.clearConfig).rdata = s.rdata := rfl
@[simp] theorem State.clearConfig_draws (s : State) : (s.clearConfig).draws = s.draws := rfl
@[simp] theorem State.clearConfig_unspecRead (s : State) : (s.clearConfig).unspecRead = s.unspecRead := rfl
@[simp] theorem State.clearConfig_lanes (s : State) : (s.clearConfig).lanes = s.lanes := rfl
@[simp] theorem State.clearConfig_iter (s : State) : (s.clearConfig).iter = s.iter := rfl
@[simp] theorem State.clearConfig_type (s : State) : (s.clearConfig).type = s.type := rfl
@[simp] theorem State.clearConfig_outLen (s : State) : (s.clearConfig).outLen = s.outLen := rfl
@[simp] theorem State.clearConfig_busy (s : State) : (s.clearConfig).busy = s.busy := rfl

/-! ### configure -/

@[simp] theorem State.configure_ie (s : State) (g : Geometry) : (s.configure g).ie = s.ie := rfl
@[simp] theorem State.configure_done (s : State) (g : Geometry) : (s.configure g).done = s.done := rfl
@[simp] theorem State.configure_err (s : State) (g : Geometry) : (s.configure g).err = s.err := rfl
@[simp] theorem State.configure_wign (s : State) (g : Geometry) : (s.configure g).wign = s.wign := rfl
@[simp] theorem State.configure_cfg (s : State) (g : Geometry) : (s.configure g).cfg = true := rfl
@[simp] theorem State.configure_errCode (s : State) (g : Geometry) : (s.configure g).errCode = s.errCode := rfl
@[simp] theorem State.configure_latch (s : State) (g : Geometry) : (s.configure g).latch = s.latch := rfl
@[simp] theorem State.configure_params (s : State) (g : Geometry) : (s.configure g).params = s.params := rfl
@[simp] theorem State.configure_geom (s : State) (g : Geometry) : (s.configure g).geom = g := rfl
@[simp] theorem State.configure_args (s : State) (g : Geometry) : (s.configure g).args = s.args := rfl
@[simp] theorem State.configure_res (s : State) (g : Geometry) : (s.configure g).res = s.res := rfl
@[simp] theorem State.configure_caps (s : State) (g : Geometry) : (s.configure g).caps = s.caps := rfl
@[simp] theorem State.configure_mtx (s : State) (g : Geometry) : (s.configure g).mtx = s.mtx := rfl
@[simp] theorem State.configure_wb (s : State) (g : Geometry) : (s.configure g).wb = s.wb := rfl
@[simp] theorem State.configure_h0 (s : State) (g : Geometry) : (s.configure g).h0 = s.h0 := rfl
@[simp] theorem State.configure_msg (s : State) (g : Geometry) : (s.configure g).msg = s.msg := rfl
@[simp] theorem State.configure_obuf (s : State) (g : Geometry) : (s.configure g).obuf = s.obuf := rfl
@[simp] theorem State.configure_agenda (s : State) (g : Geometry) : (s.configure g).agenda = s.agenda := rfl
@[simp] theorem State.configure_rdata (s : State) (g : Geometry) : (s.configure g).rdata = s.rdata := rfl
@[simp] theorem State.configure_draws (s : State) (g : Geometry) : (s.configure g).draws = s.draws := rfl
@[simp] theorem State.configure_unspecRead (s : State) (g : Geometry) : (s.configure g).unspecRead = s.unspecRead := rfl
@[simp] theorem State.configure_lanes (s : State) (g : Geometry) : (s.configure g).lanes = s.lanes := rfl
@[simp] theorem State.configure_iter (s : State) (g : Geometry) : (s.configure g).iter = s.iter := rfl
@[simp] theorem State.configure_type (s : State) (g : Geometry) : (s.configure g).type = s.type := rfl
@[simp] theorem State.configure_outLen (s : State) (g : Geometry) : (s.configure g).outLen = s.outLen := rfl
@[simp] theorem State.configure_busy (s : State) (g : Geometry) : (s.configure g).busy = s.busy := rfl

/-! ### writeRes -/

@[simp] theorem State.writeRes_ie (s : State) (n : Fin 4) (v : Word) : (s.writeRes n v).ie = s.ie := rfl
@[simp] theorem State.writeRes_done (s : State) (n : Fin 4) (v : Word) : (s.writeRes n v).done = s.done := rfl
@[simp] theorem State.writeRes_err (s : State) (n : Fin 4) (v : Word) : (s.writeRes n v).err = s.err := rfl
@[simp] theorem State.writeRes_wign (s : State) (n : Fin 4) (v : Word) : (s.writeRes n v).wign = s.wign := rfl
@[simp] theorem State.writeRes_cfg (s : State) (n : Fin 4) (v : Word) : (s.writeRes n v).cfg = s.cfg := rfl
@[simp] theorem State.writeRes_errCode (s : State) (n : Fin 4) (v : Word) : (s.writeRes n v).errCode = s.errCode := rfl
@[simp] theorem State.writeRes_latch (s : State) (n : Fin 4) (v : Word) : (s.writeRes n v).latch = s.latch := rfl
@[simp] theorem State.writeRes_params (s : State) (n : Fin 4) (v : Word) : (s.writeRes n v).params = s.params := rfl
@[simp] theorem State.writeRes_geom (s : State) (n : Fin 4) (v : Word) : (s.writeRes n v).geom = s.geom := rfl
@[simp] theorem State.writeRes_args (s : State) (n : Fin 4) (v : Word) : (s.writeRes n v).args = s.args := rfl
@[simp] theorem State.writeRes_res (s : State) (n : Fin 4) (v : Word) : (s.writeRes n v).res = s.res.set n v := rfl
@[simp] theorem State.writeRes_caps (s : State) (n : Fin 4) (v : Word) : (s.writeRes n v).caps = s.caps := rfl
@[simp] theorem State.writeRes_mtx (s : State) (n : Fin 4) (v : Word) : (s.writeRes n v).mtx = s.mtx := rfl
@[simp] theorem State.writeRes_wb (s : State) (n : Fin 4) (v : Word) : (s.writeRes n v).wb = s.wb := rfl
@[simp] theorem State.writeRes_h0 (s : State) (n : Fin 4) (v : Word) : (s.writeRes n v).h0 = s.h0 := rfl
@[simp] theorem State.writeRes_msg (s : State) (n : Fin 4) (v : Word) : (s.writeRes n v).msg = s.msg := rfl
@[simp] theorem State.writeRes_obuf (s : State) (n : Fin 4) (v : Word) : (s.writeRes n v).obuf = s.obuf := rfl
@[simp] theorem State.writeRes_agenda (s : State) (n : Fin 4) (v : Word) : (s.writeRes n v).agenda = s.agenda := rfl
@[simp] theorem State.writeRes_rdata (s : State) (n : Fin 4) (v : Word) : (s.writeRes n v).rdata = s.rdata := rfl
@[simp] theorem State.writeRes_draws (s : State) (n : Fin 4) (v : Word) : (s.writeRes n v).draws = s.draws := rfl
@[simp] theorem State.writeRes_unspecRead (s : State) (n : Fin 4) (v : Word) : (s.writeRes n v).unspecRead = s.unspecRead := rfl
@[simp] theorem State.writeRes_memBlocks (s : State) (n : Fin 4) (v : Word) : (s.writeRes n v).memBlocks = s.memBlocks := rfl
@[simp] theorem State.writeRes_laneLen (s : State) (n : Fin 4) (v : Word) : (s.writeRes n v).laneLen = s.laneLen := rfl
@[simp] theorem State.writeRes_segLen (s : State) (n : Fin 4) (v : Word) : (s.writeRes n v).segLen = s.segLen := rfl
@[simp] theorem State.writeRes_lanes (s : State) (n : Fin 4) (v : Word) : (s.writeRes n v).lanes = s.lanes := rfl
@[simp] theorem State.writeRes_iter (s : State) (n : Fin 4) (v : Word) : (s.writeRes n v).iter = s.iter := rfl
@[simp] theorem State.writeRes_type (s : State) (n : Fin 4) (v : Word) : (s.writeRes n v).type = s.type := rfl
@[simp] theorem State.writeRes_outLen (s : State) (n : Fin 4) (v : Word) : (s.writeRes n v).outLen = s.outLen := rfl
@[simp] theorem State.writeRes_busy (s : State) (n : Fin 4) (v : Word) : (s.writeRes n v).busy = s.busy := rfl

/-! ### writeMtx -/

@[simp] theorem State.writeMtx_ie (s : State) (k : Nat) (B : Block) : (s.writeMtx k B).ie = s.ie := rfl
@[simp] theorem State.writeMtx_done (s : State) (k : Nat) (B : Block) : (s.writeMtx k B).done = s.done := rfl
@[simp] theorem State.writeMtx_err (s : State) (k : Nat) (B : Block) : (s.writeMtx k B).err = s.err := rfl
@[simp] theorem State.writeMtx_wign (s : State) (k : Nat) (B : Block) : (s.writeMtx k B).wign = s.wign := rfl
@[simp] theorem State.writeMtx_cfg (s : State) (k : Nat) (B : Block) : (s.writeMtx k B).cfg = s.cfg := rfl
@[simp] theorem State.writeMtx_errCode (s : State) (k : Nat) (B : Block) : (s.writeMtx k B).errCode = s.errCode := rfl
@[simp] theorem State.writeMtx_latch (s : State) (k : Nat) (B : Block) : (s.writeMtx k B).latch = s.latch := rfl
@[simp] theorem State.writeMtx_params (s : State) (k : Nat) (B : Block) : (s.writeMtx k B).params = s.params := rfl
@[simp] theorem State.writeMtx_geom (s : State) (k : Nat) (B : Block) : (s.writeMtx k B).geom = s.geom := rfl
@[simp] theorem State.writeMtx_args (s : State) (k : Nat) (B : Block) : (s.writeMtx k B).args = s.args := rfl
@[simp] theorem State.writeMtx_res (s : State) (k : Nat) (B : Block) : (s.writeMtx k B).res = s.res := rfl
@[simp] theorem State.writeMtx_caps (s : State) (k : Nat) (B : Block) : (s.writeMtx k B).caps = s.caps := rfl
@[simp] theorem State.writeMtx_mtx (s : State) (k : Nat) (B : Block) : (s.writeMtx k B).mtx = s.mtx.write k B := rfl
@[simp] theorem State.writeMtx_wb (s : State) (k : Nat) (B : Block) : (s.writeMtx k B).wb = s.wb := rfl
@[simp] theorem State.writeMtx_h0 (s : State) (k : Nat) (B : Block) : (s.writeMtx k B).h0 = s.h0 := rfl
@[simp] theorem State.writeMtx_msg (s : State) (k : Nat) (B : Block) : (s.writeMtx k B).msg = s.msg := rfl
@[simp] theorem State.writeMtx_obuf (s : State) (k : Nat) (B : Block) : (s.writeMtx k B).obuf = s.obuf := rfl
@[simp] theorem State.writeMtx_agenda (s : State) (k : Nat) (B : Block) : (s.writeMtx k B).agenda = s.agenda := rfl
@[simp] theorem State.writeMtx_rdata (s : State) (k : Nat) (B : Block) : (s.writeMtx k B).rdata = s.rdata := rfl
@[simp] theorem State.writeMtx_draws (s : State) (k : Nat) (B : Block) : (s.writeMtx k B).draws = s.draws := rfl
@[simp] theorem State.writeMtx_unspecRead (s : State) (k : Nat) (B : Block) : (s.writeMtx k B).unspecRead = s.unspecRead := rfl
@[simp] theorem State.writeMtx_memBlocks (s : State) (k : Nat) (B : Block) : (s.writeMtx k B).memBlocks = s.memBlocks := rfl
@[simp] theorem State.writeMtx_laneLen (s : State) (k : Nat) (B : Block) : (s.writeMtx k B).laneLen = s.laneLen := rfl
@[simp] theorem State.writeMtx_segLen (s : State) (k : Nat) (B : Block) : (s.writeMtx k B).segLen = s.segLen := rfl
@[simp] theorem State.writeMtx_lanes (s : State) (k : Nat) (B : Block) : (s.writeMtx k B).lanes = s.lanes := rfl
@[simp] theorem State.writeMtx_iter (s : State) (k : Nat) (B : Block) : (s.writeMtx k B).iter = s.iter := rfl
@[simp] theorem State.writeMtx_type (s : State) (k : Nat) (B : Block) : (s.writeMtx k B).type = s.type := rfl
@[simp] theorem State.writeMtx_outLen (s : State) (k : Nat) (B : Block) : (s.writeMtx k B).outLen = s.outLen := rfl
@[simp] theorem State.writeMtx_busy (s : State) (k : Nat) (B : Block) : (s.writeMtx k B).busy = s.busy := rfl
@[simp] theorem State.writeMtx_dataIndependent (s : State) (k : Nat) (B : Block) (pass slice : Nat) :
    (s.writeMtx k B).dataIndependent pass slice = s.dataIndependent pass slice := rfl
@[simp] theorem State.writeMtx_xorPolicy (s : State) (k : Nat) (B : Block) (pass : Nat) :
    (s.writeMtx k B).xorPolicy pass = s.xorPolicy pass := rfl
@[simp] theorem State.writeMtx_referenceOf (s : State) (k : Nat) (B : Block) (pass slice lane i : Nat) (J : Word) :
    (s.writeMtx k B).referenceOf pass slice lane i J = s.referenceOf pass slice lane i J := rfl

/-! ### writeWb -/

@[simp] theorem State.writeWb_ie (s : State) (r : WbReg) (B : Block) : (s.writeWb r B).ie = s.ie := rfl
@[simp] theorem State.writeWb_done (s : State) (r : WbReg) (B : Block) : (s.writeWb r B).done = s.done := rfl
@[simp] theorem State.writeWb_err (s : State) (r : WbReg) (B : Block) : (s.writeWb r B).err = s.err := rfl
@[simp] theorem State.writeWb_wign (s : State) (r : WbReg) (B : Block) : (s.writeWb r B).wign = s.wign := rfl
@[simp] theorem State.writeWb_cfg (s : State) (r : WbReg) (B : Block) : (s.writeWb r B).cfg = s.cfg := rfl
@[simp] theorem State.writeWb_errCode (s : State) (r : WbReg) (B : Block) : (s.writeWb r B).errCode = s.errCode := rfl
@[simp] theorem State.writeWb_latch (s : State) (r : WbReg) (B : Block) : (s.writeWb r B).latch = s.latch := rfl
@[simp] theorem State.writeWb_params (s : State) (r : WbReg) (B : Block) : (s.writeWb r B).params = s.params := rfl
@[simp] theorem State.writeWb_geom (s : State) (r : WbReg) (B : Block) : (s.writeWb r B).geom = s.geom := rfl
@[simp] theorem State.writeWb_args (s : State) (r : WbReg) (B : Block) : (s.writeWb r B).args = s.args := rfl
@[simp] theorem State.writeWb_res (s : State) (r : WbReg) (B : Block) : (s.writeWb r B).res = s.res := rfl
@[simp] theorem State.writeWb_caps (s : State) (r : WbReg) (B : Block) : (s.writeWb r B).caps = s.caps := rfl
@[simp] theorem State.writeWb_mtx (s : State) (r : WbReg) (B : Block) : (s.writeWb r B).mtx = s.mtx := rfl
@[simp] theorem State.writeWb_wb (s : State) (r : WbReg) (B : Block) : (s.writeWb r B).wb = s.wb.set r B := rfl
@[simp] theorem State.writeWb_h0 (s : State) (r : WbReg) (B : Block) : (s.writeWb r B).h0 = s.h0 := rfl
@[simp] theorem State.writeWb_msg (s : State) (r : WbReg) (B : Block) : (s.writeWb r B).msg = s.msg := rfl
@[simp] theorem State.writeWb_obuf (s : State) (r : WbReg) (B : Block) : (s.writeWb r B).obuf = s.obuf := rfl
@[simp] theorem State.writeWb_agenda (s : State) (r : WbReg) (B : Block) : (s.writeWb r B).agenda = s.agenda := rfl
@[simp] theorem State.writeWb_rdata (s : State) (r : WbReg) (B : Block) : (s.writeWb r B).rdata = s.rdata := rfl
@[simp] theorem State.writeWb_draws (s : State) (r : WbReg) (B : Block) : (s.writeWb r B).draws = s.draws := rfl
@[simp] theorem State.writeWb_unspecRead (s : State) (r : WbReg) (B : Block) : (s.writeWb r B).unspecRead = s.unspecRead := rfl
@[simp] theorem State.writeWb_memBlocks (s : State) (r : WbReg) (B : Block) : (s.writeWb r B).memBlocks = s.memBlocks := rfl
@[simp] theorem State.writeWb_laneLen (s : State) (r : WbReg) (B : Block) : (s.writeWb r B).laneLen = s.laneLen := rfl
@[simp] theorem State.writeWb_segLen (s : State) (r : WbReg) (B : Block) : (s.writeWb r B).segLen = s.segLen := rfl
@[simp] theorem State.writeWb_lanes (s : State) (r : WbReg) (B : Block) : (s.writeWb r B).lanes = s.lanes := rfl
@[simp] theorem State.writeWb_iter (s : State) (r : WbReg) (B : Block) : (s.writeWb r B).iter = s.iter := rfl
@[simp] theorem State.writeWb_type (s : State) (r : WbReg) (B : Block) : (s.writeWb r B).type = s.type := rfl
@[simp] theorem State.writeWb_outLen (s : State) (r : WbReg) (B : Block) : (s.writeWb r B).outLen = s.outLen := rfl
@[simp] theorem State.writeWb_busy (s : State) (r : WbReg) (B : Block) : (s.writeWb r B).busy = s.busy := rfl
@[simp] theorem State.writeWb_dataIndependent (s : State) (r : WbReg) (B : Block) (pass slice : Nat) :
    (s.writeWb r B).dataIndependent pass slice = s.dataIndependent pass slice := rfl
@[simp] theorem State.writeWb_xorPolicy (s : State) (r : WbReg) (B : Block) (pass : Nat) :
    (s.writeWb r B).xorPolicy pass = s.xorPolicy pass := rfl
@[simp] theorem State.writeWb_referenceOf (s : State) (r : WbReg) (B : Block) (pass slice lane i : Nat) (J : Word) :
    (s.writeWb r B).referenceOf pass slice lane i J = s.referenceOf pass slice lane i J := rfl

/-! ### writeObuf -/

@[simp] theorem State.writeObuf_ie (s : State) (off : Nat) (bs : List Byte) : (s.writeObuf off bs).ie = s.ie := rfl
@[simp] theorem State.writeObuf_done (s : State) (off : Nat) (bs : List Byte) : (s.writeObuf off bs).done = s.done := rfl
@[simp] theorem State.writeObuf_err (s : State) (off : Nat) (bs : List Byte) : (s.writeObuf off bs).err = s.err := rfl
@[simp] theorem State.writeObuf_wign (s : State) (off : Nat) (bs : List Byte) : (s.writeObuf off bs).wign = s.wign := rfl
@[simp] theorem State.writeObuf_cfg (s : State) (off : Nat) (bs : List Byte) : (s.writeObuf off bs).cfg = s.cfg := rfl
@[simp] theorem State.writeObuf_errCode (s : State) (off : Nat) (bs : List Byte) : (s.writeObuf off bs).errCode = s.errCode := rfl
@[simp] theorem State.writeObuf_latch (s : State) (off : Nat) (bs : List Byte) : (s.writeObuf off bs).latch = s.latch := rfl
@[simp] theorem State.writeObuf_params (s : State) (off : Nat) (bs : List Byte) : (s.writeObuf off bs).params = s.params := rfl
@[simp] theorem State.writeObuf_geom (s : State) (off : Nat) (bs : List Byte) : (s.writeObuf off bs).geom = s.geom := rfl
@[simp] theorem State.writeObuf_args (s : State) (off : Nat) (bs : List Byte) : (s.writeObuf off bs).args = s.args := rfl
@[simp] theorem State.writeObuf_res (s : State) (off : Nat) (bs : List Byte) : (s.writeObuf off bs).res = s.res := rfl
@[simp] theorem State.writeObuf_caps (s : State) (off : Nat) (bs : List Byte) : (s.writeObuf off bs).caps = s.caps := rfl
@[simp] theorem State.writeObuf_mtx (s : State) (off : Nat) (bs : List Byte) : (s.writeObuf off bs).mtx = s.mtx := rfl
@[simp] theorem State.writeObuf_wb (s : State) (off : Nat) (bs : List Byte) : (s.writeObuf off bs).wb = s.wb := rfl
@[simp] theorem State.writeObuf_h0 (s : State) (off : Nat) (bs : List Byte) : (s.writeObuf off bs).h0 = s.h0 := rfl
@[simp] theorem State.writeObuf_msg (s : State) (off : Nat) (bs : List Byte) : (s.writeObuf off bs).msg = s.msg := rfl
@[simp] theorem State.writeObuf_obuf (s : State) (off : Nat) (bs : List Byte) : (s.writeObuf off bs).obuf = s.obuf.writeRange off bs := rfl
@[simp] theorem State.writeObuf_agenda (s : State) (off : Nat) (bs : List Byte) : (s.writeObuf off bs).agenda = s.agenda := rfl
@[simp] theorem State.writeObuf_rdata (s : State) (off : Nat) (bs : List Byte) : (s.writeObuf off bs).rdata = s.rdata := rfl
@[simp] theorem State.writeObuf_draws (s : State) (off : Nat) (bs : List Byte) : (s.writeObuf off bs).draws = s.draws := rfl
@[simp] theorem State.writeObuf_unspecRead (s : State) (off : Nat) (bs : List Byte) : (s.writeObuf off bs).unspecRead = s.unspecRead := rfl
@[simp] theorem State.writeObuf_memBlocks (s : State) (off : Nat) (bs : List Byte) : (s.writeObuf off bs).memBlocks = s.memBlocks := rfl
@[simp] theorem State.writeObuf_laneLen (s : State) (off : Nat) (bs : List Byte) : (s.writeObuf off bs).laneLen = s.laneLen := rfl
@[simp] theorem State.writeObuf_segLen (s : State) (off : Nat) (bs : List Byte) : (s.writeObuf off bs).segLen = s.segLen := rfl
@[simp] theorem State.writeObuf_lanes (s : State) (off : Nat) (bs : List Byte) : (s.writeObuf off bs).lanes = s.lanes := rfl
@[simp] theorem State.writeObuf_iter (s : State) (off : Nat) (bs : List Byte) : (s.writeObuf off bs).iter = s.iter := rfl
@[simp] theorem State.writeObuf_type (s : State) (off : Nat) (bs : List Byte) : (s.writeObuf off bs).type = s.type := rfl
@[simp] theorem State.writeObuf_outLen (s : State) (off : Nat) (bs : List Byte) : (s.writeObuf off bs).outLen = s.outLen := rfl
@[simp] theorem State.writeObuf_busy (s : State) (off : Nat) (bs : List Byte) : (s.writeObuf off bs).busy = s.busy := rfl

/-! ### writeH0 -/

@[simp] theorem State.writeH0_ie (s : State) (h : Vector Byte 64) : (s.writeH0 h).ie = s.ie := rfl
@[simp] theorem State.writeH0_done (s : State) (h : Vector Byte 64) : (s.writeH0 h).done = s.done := rfl
@[simp] theorem State.writeH0_err (s : State) (h : Vector Byte 64) : (s.writeH0 h).err = s.err := rfl
@[simp] theorem State.writeH0_wign (s : State) (h : Vector Byte 64) : (s.writeH0 h).wign = s.wign := rfl
@[simp] theorem State.writeH0_cfg (s : State) (h : Vector Byte 64) : (s.writeH0 h).cfg = s.cfg := rfl
@[simp] theorem State.writeH0_errCode (s : State) (h : Vector Byte 64) : (s.writeH0 h).errCode = s.errCode := rfl
@[simp] theorem State.writeH0_latch (s : State) (h : Vector Byte 64) : (s.writeH0 h).latch = s.latch := rfl
@[simp] theorem State.writeH0_params (s : State) (h : Vector Byte 64) : (s.writeH0 h).params = s.params := rfl
@[simp] theorem State.writeH0_geom (s : State) (h : Vector Byte 64) : (s.writeH0 h).geom = s.geom := rfl
@[simp] theorem State.writeH0_args (s : State) (h : Vector Byte 64) : (s.writeH0 h).args = s.args := rfl
@[simp] theorem State.writeH0_res (s : State) (h : Vector Byte 64) : (s.writeH0 h).res = s.res := rfl
@[simp] theorem State.writeH0_caps (s : State) (h : Vector Byte 64) : (s.writeH0 h).caps = s.caps := rfl
@[simp] theorem State.writeH0_mtx (s : State) (h : Vector Byte 64) : (s.writeH0 h).mtx = s.mtx := rfl
@[simp] theorem State.writeH0_wb (s : State) (h : Vector Byte 64) : (s.writeH0 h).wb = s.wb := rfl
@[simp] theorem State.writeH0_h0 (s : State) (h : Vector Byte 64) : (s.writeH0 h).h0 = .written h := rfl
@[simp] theorem State.writeH0_msg (s : State) (h : Vector Byte 64) : (s.writeH0 h).msg = s.msg := rfl
@[simp] theorem State.writeH0_obuf (s : State) (h : Vector Byte 64) : (s.writeH0 h).obuf = s.obuf := rfl
@[simp] theorem State.writeH0_agenda (s : State) (h : Vector Byte 64) : (s.writeH0 h).agenda = s.agenda := rfl
@[simp] theorem State.writeH0_rdata (s : State) (h : Vector Byte 64) : (s.writeH0 h).rdata = s.rdata := rfl
@[simp] theorem State.writeH0_draws (s : State) (h : Vector Byte 64) : (s.writeH0 h).draws = s.draws := rfl
@[simp] theorem State.writeH0_unspecRead (s : State) (h : Vector Byte 64) : (s.writeH0 h).unspecRead = s.unspecRead := rfl
@[simp] theorem State.writeH0_memBlocks (s : State) (h : Vector Byte 64) : (s.writeH0 h).memBlocks = s.memBlocks := rfl
@[simp] theorem State.writeH0_laneLen (s : State) (h : Vector Byte 64) : (s.writeH0 h).laneLen = s.laneLen := rfl
@[simp] theorem State.writeH0_segLen (s : State) (h : Vector Byte 64) : (s.writeH0 h).segLen = s.segLen := rfl
@[simp] theorem State.writeH0_lanes (s : State) (h : Vector Byte 64) : (s.writeH0 h).lanes = s.lanes := rfl
@[simp] theorem State.writeH0_iter (s : State) (h : Vector Byte 64) : (s.writeH0 h).iter = s.iter := rfl
@[simp] theorem State.writeH0_type (s : State) (h : Vector Byte 64) : (s.writeH0 h).type = s.type := rfl
@[simp] theorem State.writeH0_outLen (s : State) (h : Vector Byte 64) : (s.writeH0 h).outLen = s.outLen := rfl
@[simp] theorem State.writeH0_busy (s : State) (h : Vector Byte 64) : (s.writeH0 h).busy = s.busy := rfl

/-! ### setAgenda -/

@[simp] theorem State.setAgenda_ie (s : State) (l : List Event) : (s.setAgenda l).ie = s.ie := rfl
@[simp] theorem State.setAgenda_done (s : State) (l : List Event) : (s.setAgenda l).done = s.done := rfl
@[simp] theorem State.setAgenda_err (s : State) (l : List Event) : (s.setAgenda l).err = s.err := rfl
@[simp] theorem State.setAgenda_wign (s : State) (l : List Event) : (s.setAgenda l).wign = s.wign := rfl
@[simp] theorem State.setAgenda_cfg (s : State) (l : List Event) : (s.setAgenda l).cfg = s.cfg := rfl
@[simp] theorem State.setAgenda_errCode (s : State) (l : List Event) : (s.setAgenda l).errCode = s.errCode := rfl
@[simp] theorem State.setAgenda_latch (s : State) (l : List Event) : (s.setAgenda l).latch = s.latch := rfl
@[simp] theorem State.setAgenda_params (s : State) (l : List Event) : (s.setAgenda l).params = s.params := rfl
@[simp] theorem State.setAgenda_geom (s : State) (l : List Event) : (s.setAgenda l).geom = s.geom := rfl
@[simp] theorem State.setAgenda_args (s : State) (l : List Event) : (s.setAgenda l).args = s.args := rfl
@[simp] theorem State.setAgenda_res (s : State) (l : List Event) : (s.setAgenda l).res = s.res := rfl
@[simp] theorem State.setAgenda_caps (s : State) (l : List Event) : (s.setAgenda l).caps = s.caps := rfl
@[simp] theorem State.setAgenda_mtx (s : State) (l : List Event) : (s.setAgenda l).mtx = s.mtx := rfl
@[simp] theorem State.setAgenda_wb (s : State) (l : List Event) : (s.setAgenda l).wb = s.wb := rfl
@[simp] theorem State.setAgenda_h0 (s : State) (l : List Event) : (s.setAgenda l).h0 = s.h0 := rfl
@[simp] theorem State.setAgenda_msg (s : State) (l : List Event) : (s.setAgenda l).msg = s.msg := rfl
@[simp] theorem State.setAgenda_obuf (s : State) (l : List Event) : (s.setAgenda l).obuf = s.obuf := rfl
@[simp] theorem State.setAgenda_agenda (s : State) (l : List Event) : (s.setAgenda l).agenda = l := rfl
@[simp] theorem State.setAgenda_rdata (s : State) (l : List Event) : (s.setAgenda l).rdata = s.rdata := rfl
@[simp] theorem State.setAgenda_draws (s : State) (l : List Event) : (s.setAgenda l).draws = s.draws := rfl
@[simp] theorem State.setAgenda_unspecRead (s : State) (l : List Event) : (s.setAgenda l).unspecRead = s.unspecRead := rfl
@[simp] theorem State.setAgenda_memBlocks (s : State) (l : List Event) : (s.setAgenda l).memBlocks = s.memBlocks := rfl
@[simp] theorem State.setAgenda_laneLen (s : State) (l : List Event) : (s.setAgenda l).laneLen = s.laneLen := rfl
@[simp] theorem State.setAgenda_segLen (s : State) (l : List Event) : (s.setAgenda l).segLen = s.segLen := rfl
@[simp] theorem State.setAgenda_lanes (s : State) (l : List Event) : (s.setAgenda l).lanes = s.lanes := rfl
@[simp] theorem State.setAgenda_iter (s : State) (l : List Event) : (s.setAgenda l).iter = s.iter := rfl
@[simp] theorem State.setAgenda_type (s : State) (l : List Event) : (s.setAgenda l).type = s.type := rfl
@[simp] theorem State.setAgenda_outLen (s : State) (l : List Event) : (s.setAgenda l).outLen = s.outLen := rfl
@[simp] theorem State.setAgenda_busy (s : State) (l : List Event) : (s.setAgenda l).busy = s.busy := rfl

/-! ### cleanup -/

@[simp] theorem State.cleanup_ie (s : State) : (s.cleanup).ie = s.ie := rfl
@[simp] theorem State.cleanup_done (s : State) : (s.cleanup).done = s.done := rfl
@[simp] theorem State.cleanup_err (s : State) : (s.cleanup).err = s.err := rfl
@[simp] theorem State.cleanup_wign (s : State) : (s.cleanup).wign = s.wign := rfl
@[simp] theorem State.cleanup_cfg (s : State) : (s.cleanup).cfg = s.cfg := rfl
@[simp] theorem State.cleanup_errCode (s : State) : (s.cleanup).errCode = s.errCode := rfl
@[simp] theorem State.cleanup_latch (s : State) : (s.cleanup).latch = s.latch := rfl
@[simp] theorem State.cleanup_params (s : State) : (s.cleanup).params = s.params := rfl
@[simp] theorem State.cleanup_geom (s : State) : (s.cleanup).geom = s.geom := rfl
@[simp] theorem State.cleanup_args (s : State) : (s.cleanup).args = s.args := rfl
@[simp] theorem State.cleanup_res (s : State) : (s.cleanup).res = s.res := rfl
@[simp] theorem State.cleanup_caps (s : State) : (s.cleanup).caps = s.caps := rfl
@[simp] theorem State.cleanup_mtx (s : State) : (s.cleanup).mtx = s.mtx.fillBelow s.memBlocks zeroBlock := rfl
@[simp] theorem State.cleanup_wb (s : State) : (s.cleanup).wb = Working.cleared := rfl
@[simp] theorem State.cleanup_h0 (s : State) : (s.cleanup).h0 = .written (Vector.replicate 64 0) := rfl
@[simp] theorem State.cleanup_msg (s : State) : (s.cleanup).msg = s.msg := rfl
@[simp] theorem State.cleanup_obuf (s : State) : (s.cleanup).obuf = s.obuf := rfl
@[simp] theorem State.cleanup_agenda (s : State) : (s.cleanup).agenda = s.agenda := rfl
@[simp] theorem State.cleanup_rdata (s : State) : (s.cleanup).rdata = s.rdata := rfl
@[simp] theorem State.cleanup_draws (s : State) : (s.cleanup).draws = s.draws := rfl
@[simp] theorem State.cleanup_unspecRead (s : State) : (s.cleanup).unspecRead = s.unspecRead := rfl
@[simp] theorem State.cleanup_memBlocks (s : State) : (s.cleanup).memBlocks = s.memBlocks := rfl
@[simp] theorem State.cleanup_laneLen (s : State) : (s.cleanup).laneLen = s.laneLen := rfl
@[simp] theorem State.cleanup_segLen (s : State) : (s.cleanup).segLen = s.segLen := rfl
@[simp] theorem State.cleanup_lanes (s : State) : (s.cleanup).lanes = s.lanes := rfl
@[simp] theorem State.cleanup_iter (s : State) : (s.cleanup).iter = s.iter := rfl
@[simp] theorem State.cleanup_type (s : State) : (s.cleanup).type = s.type := rfl
@[simp] theorem State.cleanup_outLen (s : State) : (s.cleanup).outLen = s.outLen := rfl
@[simp] theorem State.cleanup_busy (s : State) : (s.cleanup).busy = s.busy := rfl

/-! ### zeroize -/

@[simp] theorem State.zeroize_ie (s : State) : (s.zeroize).ie = s.ie := rfl
@[simp] theorem State.zeroize_done (s : State) : (s.zeroize).done = s.done := rfl
@[simp] theorem State.zeroize_err (s : State) : (s.zeroize).err = s.err := rfl
@[simp] theorem State.zeroize_wign (s : State) : (s.zeroize).wign = s.wign := rfl
@[simp] theorem State.zeroize_cfg (s : State) : (s.zeroize).cfg = s.cfg := rfl
@[simp] theorem State.zeroize_errCode (s : State) : (s.zeroize).errCode = s.errCode := rfl
@[simp] theorem State.zeroize_latch (s : State) : (s.zeroize).latch = s.latch := rfl
@[simp] theorem State.zeroize_params (s : State) : (s.zeroize).params = s.params := rfl
@[simp] theorem State.zeroize_geom (s : State) : (s.zeroize).geom = s.geom := rfl
@[simp] theorem State.zeroize_args (s : State) : (s.zeroize).args = Vector.replicate 6 0 := rfl
@[simp] theorem State.zeroize_res (s : State) : (s.zeroize).res = Vector.replicate 4 0 := rfl
@[simp] theorem State.zeroize_caps (s : State) : (s.zeroize).caps = s.caps := rfl
@[simp] theorem State.zeroize_mtx (s : State) : (s.zeroize).mtx = s.mtx.fillBelow s.caps.maxBlocks zeroBlock := rfl
@[simp] theorem State.zeroize_wb (s : State) : (s.zeroize).wb = Working.cleared := rfl
@[simp] theorem State.zeroize_h0 (s : State) : (s.zeroize).h0 = .written (Vector.replicate 64 0) := rfl
@[simp] theorem State.zeroize_msg (s : State) : (s.zeroize).msg = s.msg.fillBelow s.caps.msgBytes 0 := rfl
@[simp] theorem State.zeroize_obuf (s : State) : (s.zeroize).obuf = s.obuf.fillBelow s.caps.obufBytes 0 := rfl
@[simp] theorem State.zeroize_agenda (s : State) : (s.zeroize).agenda = s.agenda := rfl
@[simp] theorem State.zeroize_rdata (s : State) : (s.zeroize).rdata = s.rdata := rfl
@[simp] theorem State.zeroize_draws (s : State) : (s.zeroize).draws = s.draws := rfl
@[simp] theorem State.zeroize_unspecRead (s : State) : (s.zeroize).unspecRead = s.unspecRead := rfl
@[simp] theorem State.zeroize_memBlocks (s : State) : (s.zeroize).memBlocks = s.memBlocks := rfl
@[simp] theorem State.zeroize_laneLen (s : State) : (s.zeroize).laneLen = s.laneLen := rfl
@[simp] theorem State.zeroize_segLen (s : State) : (s.zeroize).segLen = s.segLen := rfl
@[simp] theorem State.zeroize_lanes (s : State) : (s.zeroize).lanes = s.lanes := rfl
@[simp] theorem State.zeroize_iter (s : State) : (s.zeroize).iter = s.iter := rfl
@[simp] theorem State.zeroize_type (s : State) : (s.zeroize).type = s.type := rfl
@[simp] theorem State.zeroize_outLen (s : State) : (s.zeroize).outLen = s.outLen := rfl
@[simp] theorem State.zeroize_busy (s : State) : (s.zeroize).busy = s.busy := rfl

/-! ### writeStatus -/

@[simp] theorem State.writeStatus_ie (s : State) (v : Word) : (s.writeStatus v).ie = s.ie := rfl
@[simp] theorem State.writeStatus_done (s : State) (v : Word) : (s.writeStatus v).done = (s.done && !v.getLsbD 1) := rfl
@[simp] theorem State.writeStatus_err (s : State) (v : Word) : (s.writeStatus v).err = (s.err && !v.getLsbD 2) := rfl
@[simp] theorem State.writeStatus_wign (s : State) (v : Word) : (s.writeStatus v).wign = (s.wign && !v.getLsbD 3) := rfl
@[simp] theorem State.writeStatus_cfg (s : State) (v : Word) : (s.writeStatus v).cfg = s.cfg := rfl
@[simp] theorem State.writeStatus_errCode (s : State) (v : Word) : (s.writeStatus v).errCode = (if v.getLsbD 2 then .none else s.errCode) := rfl
@[simp] theorem State.writeStatus_latch (s : State) (v : Word) : (s.writeStatus v).latch = s.latch := rfl
@[simp] theorem State.writeStatus_params (s : State) (v : Word) : (s.writeStatus v).params = s.params := rfl
@[simp] theorem State.writeStatus_geom (s : State) (v : Word) : (s.writeStatus v).geom = s.geom := rfl
@[simp] theorem State.writeStatus_args (s : State) (v : Word) : (s.writeStatus v).args = s.args := rfl
@[simp] theorem State.writeStatus_res (s : State) (v : Word) : (s.writeStatus v).res = s.res := rfl
@[simp] theorem State.writeStatus_caps (s : State) (v : Word) : (s.writeStatus v).caps = s.caps := rfl
@[simp] theorem State.writeStatus_mtx (s : State) (v : Word) : (s.writeStatus v).mtx = s.mtx := rfl
@[simp] theorem State.writeStatus_wb (s : State) (v : Word) : (s.writeStatus v).wb = s.wb := rfl
@[simp] theorem State.writeStatus_h0 (s : State) (v : Word) : (s.writeStatus v).h0 = s.h0 := rfl
@[simp] theorem State.writeStatus_msg (s : State) (v : Word) : (s.writeStatus v).msg = s.msg := rfl
@[simp] theorem State.writeStatus_obuf (s : State) (v : Word) : (s.writeStatus v).obuf = s.obuf := rfl
@[simp] theorem State.writeStatus_agenda (s : State) (v : Word) : (s.writeStatus v).agenda = s.agenda := rfl
@[simp] theorem State.writeStatus_rdata (s : State) (v : Word) : (s.writeStatus v).rdata = s.rdata := rfl
@[simp] theorem State.writeStatus_draws (s : State) (v : Word) : (s.writeStatus v).draws = s.draws := rfl
@[simp] theorem State.writeStatus_unspecRead (s : State) (v : Word) : (s.writeStatus v).unspecRead = s.unspecRead := rfl
@[simp] theorem State.writeStatus_memBlocks (s : State) (v : Word) : (s.writeStatus v).memBlocks = s.memBlocks := rfl
@[simp] theorem State.writeStatus_laneLen (s : State) (v : Word) : (s.writeStatus v).laneLen = s.laneLen := rfl
@[simp] theorem State.writeStatus_segLen (s : State) (v : Word) : (s.writeStatus v).segLen = s.segLen := rfl
@[simp] theorem State.writeStatus_lanes (s : State) (v : Word) : (s.writeStatus v).lanes = s.lanes := rfl
@[simp] theorem State.writeStatus_iter (s : State) (v : Word) : (s.writeStatus v).iter = s.iter := rfl
@[simp] theorem State.writeStatus_type (s : State) (v : Word) : (s.writeStatus v).type = s.type := rfl
@[simp] theorem State.writeStatus_outLen (s : State) (v : Word) : (s.writeStatus v).outLen = s.outLen := rfl
@[simp] theorem State.writeStatus_busy (s : State) (v : Word) : (s.writeStatus v).busy = s.busy := rfl

/-! ### writeCtrl -/

@[simp] theorem State.writeCtrl_ie (s : State) (v : Word) : (s.writeCtrl v).ie = v.getLsbD 0 := rfl
@[simp] theorem State.writeCtrl_done (s : State) (v : Word) : (s.writeCtrl v).done = s.done := rfl
@[simp] theorem State.writeCtrl_err (s : State) (v : Word) : (s.writeCtrl v).err = s.err := rfl
@[simp] theorem State.writeCtrl_wign (s : State) (v : Word) : (s.writeCtrl v).wign = s.wign := rfl
@[simp] theorem State.writeCtrl_cfg (s : State) (v : Word) : (s.writeCtrl v).cfg = s.cfg := rfl
@[simp] theorem State.writeCtrl_errCode (s : State) (v : Word) : (s.writeCtrl v).errCode = s.errCode := rfl
@[simp] theorem State.writeCtrl_latch (s : State) (v : Word) : (s.writeCtrl v).latch = s.latch := rfl
@[simp] theorem State.writeCtrl_params (s : State) (v : Word) : (s.writeCtrl v).params = s.params := rfl
@[simp] theorem State.writeCtrl_geom (s : State) (v : Word) : (s.writeCtrl v).geom = s.geom := rfl
@[simp] theorem State.writeCtrl_args (s : State) (v : Word) : (s.writeCtrl v).args = s.args := rfl
@[simp] theorem State.writeCtrl_res (s : State) (v : Word) : (s.writeCtrl v).res = s.res := rfl
@[simp] theorem State.writeCtrl_caps (s : State) (v : Word) : (s.writeCtrl v).caps = s.caps := rfl
@[simp] theorem State.writeCtrl_mtx (s : State) (v : Word) : (s.writeCtrl v).mtx = s.mtx := rfl
@[simp] theorem State.writeCtrl_wb (s : State) (v : Word) : (s.writeCtrl v).wb = s.wb := rfl
@[simp] theorem State.writeCtrl_h0 (s : State) (v : Word) : (s.writeCtrl v).h0 = s.h0 := rfl
@[simp] theorem State.writeCtrl_msg (s : State) (v : Word) : (s.writeCtrl v).msg = s.msg := rfl
@[simp] theorem State.writeCtrl_obuf (s : State) (v : Word) : (s.writeCtrl v).obuf = s.obuf := rfl
@[simp] theorem State.writeCtrl_agenda (s : State) (v : Word) : (s.writeCtrl v).agenda = s.agenda := rfl
@[simp] theorem State.writeCtrl_rdata (s : State) (v : Word) : (s.writeCtrl v).rdata = s.rdata := rfl
@[simp] theorem State.writeCtrl_draws (s : State) (v : Word) : (s.writeCtrl v).draws = s.draws := rfl
@[simp] theorem State.writeCtrl_unspecRead (s : State) (v : Word) : (s.writeCtrl v).unspecRead = s.unspecRead := rfl
@[simp] theorem State.writeCtrl_memBlocks (s : State) (v : Word) : (s.writeCtrl v).memBlocks = s.memBlocks := rfl
@[simp] theorem State.writeCtrl_laneLen (s : State) (v : Word) : (s.writeCtrl v).laneLen = s.laneLen := rfl
@[simp] theorem State.writeCtrl_segLen (s : State) (v : Word) : (s.writeCtrl v).segLen = s.segLen := rfl
@[simp] theorem State.writeCtrl_lanes (s : State) (v : Word) : (s.writeCtrl v).lanes = s.lanes := rfl
@[simp] theorem State.writeCtrl_iter (s : State) (v : Word) : (s.writeCtrl v).iter = s.iter := rfl
@[simp] theorem State.writeCtrl_type (s : State) (v : Word) : (s.writeCtrl v).type = s.type := rfl
@[simp] theorem State.writeCtrl_outLen (s : State) (v : Word) : (s.writeCtrl v).outLen = s.outLen := rfl
@[simp] theorem State.writeCtrl_busy (s : State) (v : Word) : (s.writeCtrl v).busy = s.busy := rfl

/-! ### writeArg -/

@[simp] theorem State.writeArg_ie (s : State) (n : Fin 6) (v : Word) : (s.writeArg n v).ie = s.ie := rfl
@[simp] theorem State.writeArg_done (s : State) (n : Fin 6) (v : Word) : (s.writeArg n v).done = s.done := rfl
@[simp] theorem State.writeArg_err (s : State) (n : Fin 6) (v : Word) : (s.writeArg n v).err = s.err := rfl
@[simp] theorem State.writeArg_wign (s : State) (n : Fin 6) (v : Word) : (s.writeArg n v).wign = s.wign := rfl
@[simp] theorem State.writeArg_cfg (s : State) (n : Fin 6) (v : Word) : (s.writeArg n v).cfg = s.cfg := rfl
@[simp] theorem State.writeArg_errCode (s : State) (n : Fin 6) (v : Word) : (s.writeArg n v).errCode = s.errCode := rfl
@[simp] theorem State.writeArg_latch (s : State) (n : Fin 6) (v : Word) : (s.writeArg n v).latch = s.latch := rfl
@[simp] theorem State.writeArg_params (s : State) (n : Fin 6) (v : Word) : (s.writeArg n v).params = s.params := rfl
@[simp] theorem State.writeArg_geom (s : State) (n : Fin 6) (v : Word) : (s.writeArg n v).geom = s.geom := rfl
@[simp] theorem State.writeArg_args (s : State) (n : Fin 6) (v : Word) : (s.writeArg n v).args = s.args.set n v := rfl
@[simp] theorem State.writeArg_res (s : State) (n : Fin 6) (v : Word) : (s.writeArg n v).res = s.res := rfl
@[simp] theorem State.writeArg_caps (s : State) (n : Fin 6) (v : Word) : (s.writeArg n v).caps = s.caps := rfl
@[simp] theorem State.writeArg_mtx (s : State) (n : Fin 6) (v : Word) : (s.writeArg n v).mtx = s.mtx := rfl
@[simp] theorem State.writeArg_wb (s : State) (n : Fin 6) (v : Word) : (s.writeArg n v).wb = s.wb := rfl
@[simp] theorem State.writeArg_h0 (s : State) (n : Fin 6) (v : Word) : (s.writeArg n v).h0 = s.h0 := rfl
@[simp] theorem State.writeArg_msg (s : State) (n : Fin 6) (v : Word) : (s.writeArg n v).msg = s.msg := rfl
@[simp] theorem State.writeArg_obuf (s : State) (n : Fin 6) (v : Word) : (s.writeArg n v).obuf = s.obuf := rfl
@[simp] theorem State.writeArg_agenda (s : State) (n : Fin 6) (v : Word) : (s.writeArg n v).agenda = s.agenda := rfl
@[simp] theorem State.writeArg_rdata (s : State) (n : Fin 6) (v : Word) : (s.writeArg n v).rdata = s.rdata := rfl
@[simp] theorem State.writeArg_draws (s : State) (n : Fin 6) (v : Word) : (s.writeArg n v).draws = s.draws := rfl
@[simp] theorem State.writeArg_unspecRead (s : State) (n : Fin 6) (v : Word) : (s.writeArg n v).unspecRead = s.unspecRead := rfl
@[simp] theorem State.writeArg_memBlocks (s : State) (n : Fin 6) (v : Word) : (s.writeArg n v).memBlocks = s.memBlocks := rfl
@[simp] theorem State.writeArg_laneLen (s : State) (n : Fin 6) (v : Word) : (s.writeArg n v).laneLen = s.laneLen := rfl
@[simp] theorem State.writeArg_segLen (s : State) (n : Fin 6) (v : Word) : (s.writeArg n v).segLen = s.segLen := rfl
@[simp] theorem State.writeArg_lanes (s : State) (n : Fin 6) (v : Word) : (s.writeArg n v).lanes = s.lanes := rfl
@[simp] theorem State.writeArg_iter (s : State) (n : Fin 6) (v : Word) : (s.writeArg n v).iter = s.iter := rfl
@[simp] theorem State.writeArg_type (s : State) (n : Fin 6) (v : Word) : (s.writeArg n v).type = s.type := rfl
@[simp] theorem State.writeArg_outLen (s : State) (n : Fin 6) (v : Word) : (s.writeArg n v).outLen = s.outLen := rfl
@[simp] theorem State.writeArg_busy (s : State) (n : Fin 6) (v : Word) : (s.writeArg n v).busy = s.busy := rfl

/-! ### writeParam -/

@[simp] theorem State.writeParam_ie (s : State) (p : ParamReg) (v : Word) : (s.writeParam p v).ie = s.ie := rfl
@[simp] theorem State.writeParam_done (s : State) (p : ParamReg) (v : Word) : (s.writeParam p v).done = s.done := rfl
@[simp] theorem State.writeParam_err (s : State) (p : ParamReg) (v : Word) : (s.writeParam p v).err = s.err := rfl
@[simp] theorem State.writeParam_wign (s : State) (p : ParamReg) (v : Word) : (s.writeParam p v).wign = s.wign := rfl
@[simp] theorem State.writeParam_cfg (s : State) (p : ParamReg) (v : Word) : (s.writeParam p v).cfg = false := rfl
@[simp] theorem State.writeParam_errCode (s : State) (p : ParamReg) (v : Word) : (s.writeParam p v).errCode = s.errCode := rfl
@[simp] theorem State.writeParam_latch (s : State) (p : ParamReg) (v : Word) : (s.writeParam p v).latch = s.latch := rfl
@[simp] theorem State.writeParam_params (s : State) (p : ParamReg) (v : Word) : (s.writeParam p v).params = s.params.set p (v.setWidth 32) := rfl
@[simp] theorem State.writeParam_geom (s : State) (p : ParamReg) (v : Word) : (s.writeParam p v).geom = Geometry.zero := rfl
@[simp] theorem State.writeParam_args (s : State) (p : ParamReg) (v : Word) : (s.writeParam p v).args = s.args := rfl
@[simp] theorem State.writeParam_res (s : State) (p : ParamReg) (v : Word) : (s.writeParam p v).res = s.res := rfl
@[simp] theorem State.writeParam_caps (s : State) (p : ParamReg) (v : Word) : (s.writeParam p v).caps = s.caps := rfl
@[simp] theorem State.writeParam_mtx (s : State) (p : ParamReg) (v : Word) : (s.writeParam p v).mtx = s.mtx := rfl
@[simp] theorem State.writeParam_wb (s : State) (p : ParamReg) (v : Word) : (s.writeParam p v).wb = s.wb := rfl
@[simp] theorem State.writeParam_h0 (s : State) (p : ParamReg) (v : Word) : (s.writeParam p v).h0 = s.h0 := rfl
@[simp] theorem State.writeParam_msg (s : State) (p : ParamReg) (v : Word) : (s.writeParam p v).msg = s.msg := rfl
@[simp] theorem State.writeParam_obuf (s : State) (p : ParamReg) (v : Word) : (s.writeParam p v).obuf = s.obuf := rfl
@[simp] theorem State.writeParam_agenda (s : State) (p : ParamReg) (v : Word) : (s.writeParam p v).agenda = s.agenda := rfl
@[simp] theorem State.writeParam_rdata (s : State) (p : ParamReg) (v : Word) : (s.writeParam p v).rdata = s.rdata := rfl
@[simp] theorem State.writeParam_draws (s : State) (p : ParamReg) (v : Word) : (s.writeParam p v).draws = s.draws := rfl
@[simp] theorem State.writeParam_unspecRead (s : State) (p : ParamReg) (v : Word) : (s.writeParam p v).unspecRead = s.unspecRead := rfl
@[simp] theorem State.writeParam_busy (s : State) (p : ParamReg) (v : Word) : (s.writeParam p v).busy = s.busy := rfl

/-! ### ignoreWrite -/

@[simp] theorem State.ignoreWrite_ie (s : State) : (s.ignoreWrite).ie = s.ie := rfl
@[simp] theorem State.ignoreWrite_done (s : State) : (s.ignoreWrite).done = s.done := rfl
@[simp] theorem State.ignoreWrite_err (s : State) : (s.ignoreWrite).err = s.err := rfl
@[simp] theorem State.ignoreWrite_wign (s : State) : (s.ignoreWrite).wign = true := rfl
@[simp] theorem State.ignoreWrite_cfg (s : State) : (s.ignoreWrite).cfg = s.cfg := rfl
@[simp] theorem State.ignoreWrite_errCode (s : State) : (s.ignoreWrite).errCode = s.errCode := rfl
@[simp] theorem State.ignoreWrite_latch (s : State) : (s.ignoreWrite).latch = s.latch := rfl
@[simp] theorem State.ignoreWrite_params (s : State) : (s.ignoreWrite).params = s.params := rfl
@[simp] theorem State.ignoreWrite_geom (s : State) : (s.ignoreWrite).geom = s.geom := rfl
@[simp] theorem State.ignoreWrite_args (s : State) : (s.ignoreWrite).args = s.args := rfl
@[simp] theorem State.ignoreWrite_res (s : State) : (s.ignoreWrite).res = s.res := rfl
@[simp] theorem State.ignoreWrite_caps (s : State) : (s.ignoreWrite).caps = s.caps := rfl
@[simp] theorem State.ignoreWrite_mtx (s : State) : (s.ignoreWrite).mtx = s.mtx := rfl
@[simp] theorem State.ignoreWrite_wb (s : State) : (s.ignoreWrite).wb = s.wb := rfl
@[simp] theorem State.ignoreWrite_h0 (s : State) : (s.ignoreWrite).h0 = s.h0 := rfl
@[simp] theorem State.ignoreWrite_msg (s : State) : (s.ignoreWrite).msg = s.msg := rfl
@[simp] theorem State.ignoreWrite_obuf (s : State) : (s.ignoreWrite).obuf = s.obuf := rfl
@[simp] theorem State.ignoreWrite_agenda (s : State) : (s.ignoreWrite).agenda = s.agenda := rfl
@[simp] theorem State.ignoreWrite_rdata (s : State) : (s.ignoreWrite).rdata = s.rdata := rfl
@[simp] theorem State.ignoreWrite_draws (s : State) : (s.ignoreWrite).draws = s.draws := rfl
@[simp] theorem State.ignoreWrite_unspecRead (s : State) : (s.ignoreWrite).unspecRead = s.unspecRead := rfl
@[simp] theorem State.ignoreWrite_memBlocks (s : State) : (s.ignoreWrite).memBlocks = s.memBlocks := rfl
@[simp] theorem State.ignoreWrite_laneLen (s : State) : (s.ignoreWrite).laneLen = s.laneLen := rfl
@[simp] theorem State.ignoreWrite_segLen (s : State) : (s.ignoreWrite).segLen = s.segLen := rfl
@[simp] theorem State.ignoreWrite_lanes (s : State) : (s.ignoreWrite).lanes = s.lanes := rfl
@[simp] theorem State.ignoreWrite_iter (s : State) : (s.ignoreWrite).iter = s.iter := rfl
@[simp] theorem State.ignoreWrite_type (s : State) : (s.ignoreWrite).type = s.type := rfl
@[simp] theorem State.ignoreWrite_outLen (s : State) : (s.ignoreWrite).outLen = s.outLen := rfl
@[simp] theorem State.ignoreWrite_busy (s : State) : (s.ignoreWrite).busy = s.busy := rfl

/-! ### note -/

@[simp] theorem State.note_ie (s : State) (b : Bool) : (s.note b).ie = s.ie := rfl
@[simp] theorem State.note_done (s : State) (b : Bool) : (s.note b).done = s.done := rfl
@[simp] theorem State.note_err (s : State) (b : Bool) : (s.note b).err = s.err := rfl
@[simp] theorem State.note_wign (s : State) (b : Bool) : (s.note b).wign = s.wign := rfl
@[simp] theorem State.note_cfg (s : State) (b : Bool) : (s.note b).cfg = s.cfg := rfl
@[simp] theorem State.note_errCode (s : State) (b : Bool) : (s.note b).errCode = s.errCode := rfl
@[simp] theorem State.note_latch (s : State) (b : Bool) : (s.note b).latch = s.latch := rfl
@[simp] theorem State.note_params (s : State) (b : Bool) : (s.note b).params = s.params := rfl
@[simp] theorem State.note_geom (s : State) (b : Bool) : (s.note b).geom = s.geom := rfl
@[simp] theorem State.note_args (s : State) (b : Bool) : (s.note b).args = s.args := rfl
@[simp] theorem State.note_res (s : State) (b : Bool) : (s.note b).res = s.res := rfl
@[simp] theorem State.note_caps (s : State) (b : Bool) : (s.note b).caps = s.caps := rfl
@[simp] theorem State.note_mtx (s : State) (b : Bool) : (s.note b).mtx = s.mtx := rfl
@[simp] theorem State.note_wb (s : State) (b : Bool) : (s.note b).wb = s.wb := rfl
@[simp] theorem State.note_h0 (s : State) (b : Bool) : (s.note b).h0 = s.h0 := rfl
@[simp] theorem State.note_msg (s : State) (b : Bool) : (s.note b).msg = s.msg := rfl
@[simp] theorem State.note_obuf (s : State) (b : Bool) : (s.note b).obuf = s.obuf := rfl
@[simp] theorem State.note_agenda (s : State) (b : Bool) : (s.note b).agenda = s.agenda := rfl
@[simp] theorem State.note_rdata (s : State) (b : Bool) : (s.note b).rdata = s.rdata := rfl
@[simp] theorem State.note_draws (s : State) (b : Bool) : (s.note b).draws = s.draws := rfl
@[simp] theorem State.note_unspecRead (s : State) (b : Bool) : (s.note b).unspecRead = (s.unspecRead || !b) := rfl
@[simp] theorem State.note_memBlocks (s : State) (b : Bool) : (s.note b).memBlocks = s.memBlocks := rfl
@[simp] theorem State.note_laneLen (s : State) (b : Bool) : (s.note b).laneLen = s.laneLen := rfl
@[simp] theorem State.note_segLen (s : State) (b : Bool) : (s.note b).segLen = s.segLen := rfl
@[simp] theorem State.note_lanes (s : State) (b : Bool) : (s.note b).lanes = s.lanes := rfl
@[simp] theorem State.note_iter (s : State) (b : Bool) : (s.note b).iter = s.iter := rfl
@[simp] theorem State.note_type (s : State) (b : Bool) : (s.note b).type = s.type := rfl
@[simp] theorem State.note_outLen (s : State) (b : Bool) : (s.note b).outLen = s.outLen := rfl
@[simp] theorem State.note_busy (s : State) (b : Bool) : (s.note b).busy = s.busy := rfl

/-- Reading a specified register leaves no record. -/
@[simp] theorem State.note_true (s : State) : s.note true = s := by simp [State.note]

/-! ### hostRead -/

@[simp] theorem State.hostRead_ie (s : State) (off : Nat) : (s.hostRead off).ie = s.ie := rfl
@[simp] theorem State.hostRead_done (s : State) (off : Nat) : (s.hostRead off).done = s.done := rfl
@[simp] theorem State.hostRead_err (s : State) (off : Nat) : (s.hostRead off).err = s.err := rfl
@[simp] theorem State.hostRead_wign (s : State) (off : Nat) : (s.hostRead off).wign = s.wign := rfl
@[simp] theorem State.hostRead_cfg (s : State) (off : Nat) : (s.hostRead off).cfg = s.cfg := rfl
@[simp] theorem State.hostRead_errCode (s : State) (off : Nat) : (s.hostRead off).errCode = s.errCode := rfl
@[simp] theorem State.hostRead_latch (s : State) (off : Nat) : (s.hostRead off).latch = s.latch := rfl
@[simp] theorem State.hostRead_params (s : State) (off : Nat) : (s.hostRead off).params = s.params := rfl
@[simp] theorem State.hostRead_geom (s : State) (off : Nat) : (s.hostRead off).geom = s.geom := rfl
@[simp] theorem State.hostRead_args (s : State) (off : Nat) : (s.hostRead off).args = s.args := rfl
@[simp] theorem State.hostRead_res (s : State) (off : Nat) : (s.hostRead off).res = s.res := rfl
@[simp] theorem State.hostRead_caps (s : State) (off : Nat) : (s.hostRead off).caps = s.caps := rfl
@[simp] theorem State.hostRead_mtx (s : State) (off : Nat) : (s.hostRead off).mtx = s.mtx := rfl
@[simp] theorem State.hostRead_wb (s : State) (off : Nat) : (s.hostRead off).wb = s.wb := rfl
@[simp] theorem State.hostRead_h0 (s : State) (off : Nat) : (s.hostRead off).h0 = s.h0 := rfl
@[simp] theorem State.hostRead_msg (s : State) (off : Nat) : (s.hostRead off).msg = s.msg := rfl
@[simp] theorem State.hostRead_obuf (s : State) (off : Nat) : (s.hostRead off).obuf = s.obuf := rfl
@[simp] theorem State.hostRead_agenda (s : State) (off : Nat) : (s.hostRead off).agenda = s.agenda := rfl
@[simp] theorem State.hostRead_rdata (s : State) (off : Nat) : (s.hostRead off).rdata = s.regValue (Config.draw s.draws) (hostReg off) := rfl
@[simp] theorem State.hostRead_draws (s : State) (off : Nat) : (s.hostRead off).draws = s.draws + 1 := rfl
@[simp] theorem State.hostRead_unspecRead (s : State) (off : Nat) : (s.hostRead off).unspecRead = s.unspecRead := rfl
@[simp] theorem State.hostRead_memBlocks (s : State) (off : Nat) : (s.hostRead off).memBlocks = s.memBlocks := rfl
@[simp] theorem State.hostRead_laneLen (s : State) (off : Nat) : (s.hostRead off).laneLen = s.laneLen := rfl
@[simp] theorem State.hostRead_segLen (s : State) (off : Nat) : (s.hostRead off).segLen = s.segLen := rfl
@[simp] theorem State.hostRead_lanes (s : State) (off : Nat) : (s.hostRead off).lanes = s.lanes := rfl
@[simp] theorem State.hostRead_iter (s : State) (off : Nat) : (s.hostRead off).iter = s.iter := rfl
@[simp] theorem State.hostRead_type (s : State) (off : Nat) : (s.hostRead off).type = s.type := rfl
@[simp] theorem State.hostRead_outLen (s : State) (off : Nat) : (s.hostRead off).outLen = s.outLen := rfl
@[simp] theorem State.hostRead_busy (s : State) (off : Nat) : (s.hostRead off).busy = s.busy := rfl

/-! ### hardReset -/

@[simp] theorem State.hardReset_ie (s : State) : (s.hardReset).ie = false := rfl
@[simp] theorem State.hardReset_done (s : State) : (s.hardReset).done = false := rfl
@[simp] theorem State.hardReset_err (s : State) : (s.hardReset).err = false := rfl
@[simp] theorem State.hardReset_wign (s : State) : (s.hardReset).wign = false := rfl
@[simp] theorem State.hardReset_cfg (s : State) : (s.hardReset).cfg = false := rfl
@[simp] theorem State.hardReset_errCode (s : State) : (s.hardReset).errCode = .none := rfl
@[simp] theorem State.hardReset_latch (s : State) : (s.hardReset).latch = none := rfl
@[simp] theorem State.hardReset_params (s : State) : (s.hardReset).params = Params.reset := rfl
@[simp] theorem State.hardReset_geom (s : State) : (s.hardReset).geom = Geometry.zero := rfl
@[simp] theorem State.hardReset_args (s : State) : (s.hardReset).args = Vector.replicate 6 0 := rfl
@[simp] theorem State.hardReset_res (s : State) : (s.hardReset).res = Vector.replicate 4 0 := rfl
@[simp] theorem State.hardReset_caps (s : State) : (s.hardReset).caps = s.caps := rfl
@[simp] theorem State.hardReset_mtx (s : State) : (s.hardReset).mtx = [] := rfl
@[simp] theorem State.hardReset_wb (s : State) : (s.hardReset).wb = Working.atReset (s.draws + 1) := rfl
@[simp] theorem State.hardReset_h0 (s : State) : (s.hardReset).h0 = .unspecified (Config.h0AtReset (s.draws + 1)) := rfl
@[simp] theorem State.hardReset_msg (s : State) : (s.hardReset).msg = [] := rfl
@[simp] theorem State.hardReset_obuf (s : State) : (s.hardReset).obuf = [] := rfl
@[simp] theorem State.hardReset_agenda (s : State) : (s.hardReset).agenda = s.agenda := rfl
@[simp] theorem State.hardReset_rdata (s : State) : (s.hardReset).rdata = s.rdata := rfl
@[simp] theorem State.hardReset_draws (s : State) : (s.hardReset).draws = s.draws + 1 := rfl
@[simp] theorem State.hardReset_unspecRead (s : State) : (s.hardReset).unspecRead = s.unspecRead := rfl

/-! ### BUSY -/

@[simp] theorem State.complete_busy (s : State) : s.complete.busy = false := rfl
@[simp] theorem State.raiseError_busy (s : State) (e : ErrCode) : (s.raiseError e).busy = false := rfl
@[simp] theorem State.issue_busy (s : State) (v : Word) : (s.issue v).busy = true := rfl
@[simp] theorem State.hardReset_busy (s : State) : s.hardReset.busy = false := rfl

/-! ### The two ends of a command -/

@[simp] theorem finish_ok (s : State) : finish (.ok s) = .next s.complete := rfl
@[simp] theorem finish_error (f : Fault) : finish (.error f) = .fault f := rfl

/-- What is not `next` of a command's computation is UNSPEC_READ. -/
theorem finish_faults {x : Except Fault State} (h : ∀ u, x ≠ .ok u) : ∃ src, finish x = .fault (.unspecRead src) := by
  cases x with
  | ok u => exact absurd rfl (h u)
  | error f => cases f with | unspecRead src => exact ⟨src, rfl⟩

/-- What `finish` can answer. -/
theorem finish_eq_next {r : Except Fault State} {t : State} :
    finish r = .next t ↔ ∃ u, r = .ok u ∧ t = u.complete := by
  cases r with
  | error f => simp
  | ok u => simp [eq_comm]

@[simp] theorem failWith_eq_next {s t : State} {e : ErrCode} :
    failWith s e = .next t ↔ t = s.raiseError e := by
  simp [failWith, eq_comm]

/-- A guarded command answers its body's answer with CFG = 1, and NOT_CONFIGURED with CFG = 0. -/
theorem requireConfigured_eq (s : State) (b : Step) :
    requireConfigured s b = if s.cfg then b else .next (s.raiseError .notConfigured) := rfl

/-- A command with operand checks answers its body's answer, or BAD_OPERAND. -/
theorem requireOperands_eq (s : State) (ok : Bool) (b : Step) :
    requireOperands s ok b = if ok then b else .next (s.raiseError .badOperand) := rfl

end Sys2Proof.Machine
end

