-- ==== Sys2Proof/Laws/Step.lean ====
section
/-! SUPPORT. What one step can be: the one case split over the agenda and the latch. -/

namespace Sys2Proof.Machine

/-- The core's turn with an empty latch changes nothing. -/
theorem State.coreTurn_idle {s : State} (h : s.latch = none) : s.coreTurn = .next s := by
  simp [State.coreTurn, h]

/-- The core's turn with a latched value performs it. -/
theorem State.coreTurn_busy {s : State} {v : Word} (h : s.latch = some v) : s.coreTurn = s.perform v := by
  simp [State.coreTurn, h]

/-- Performing a value that decodes runs the command. -/
theorem State.perform_command {s : State} {v : Word} {i : Instr} (h : decode v = .command i) :
    s.perform v = exec i s := by simp [State.perform, h]

/-- Performing any other value ends with ILLEGAL_CMD. -/
theorem State.perform_illegal {s : State} {v : Word} {e : DecodeError} (h : decode v = .illegal e) :
    s.perform v = .next (s.raiseError .illegalCmd) := by simp [State.perform, h, failWith]

theorem step_nil {s : State} (h : s.agenda = []) : step s = s.coreTurn := by simp [step, h]

theorem step_cons {s : State} {e : Event} {l : List Event} (h : s.agenda = e :: l) :
    step s = (s.setAgenda l).event e := by simp [step, h]

/-- Everything a host access can answer. -/
theorem State.hostAccess_eq_next {s t : State} {a : HostAccess} :
    s.hostAccess a = .next t ↔ a.wellFormed = true ∧
      t = match a with
        | .read off _ => s.hostRead off
        | .write off _ v => s.hostWrite off v := by
  unfold State.hostAccess HostAccess.wellFormed
  cases ha : a.aligned <;> cases hb : a.inWindow <;> simp
  cases a <;> simp [eq_comm]

/-- BUSY is read from the latch (R59). -/
theorem State.busy_eq_true {s : State} : s.busy = true ↔ ∃ v, s.latch = some v := by
  simp [State.busy, Option.isSome_iff_exists]

theorem State.busy_eq_false {s : State} : s.busy = false ↔ s.latch = none := by
  simp [State.busy]

end Sys2Proof.Machine
end

