-- ==== Sys2Proof/Laws/Access.lean ====
section
/-! SUPPORT. What an offset names, and everything one legal host access can do in a step (spec/10_state.md R32;
spec/20_memory.md R84, R92). -/

namespace Sys2Proof.Machine

/-- Offsets from 0x0E8 on are reserved (R32). -/
theorem lowReg_ge {n : Nat} (h : 29 ≤ n) : lowReg n = .reserved := by
  unfold lowReg
  split <;> first | omega | rfl

/-- The offsets of the parameter registers (R32). -/
@[simp] theorem hostReg_param (p : ParamReg) : hostReg (paramOffset p) = .param p := by cases p <;> rfl

/-- Only offsets 0x000 and 0x008 name CTRL and STATUS. -/
theorem hostReg_ge {off : Nat} (h : 0x10 ≤ off) (h8 : off % 8 = 0) : hostReg off ≠ .ctrl ∧ hostReg off ≠ .status := by
  unfold hostReg
  split
  · simp
  · split
    · simp
    · have : 2 ≤ off / 8 := by omega
      generalize off / 8 = n at *
      unfold lowReg
      split <;> simp_all

/-- RES, MSG and OBUF: the offsets whose reads are draws while BUSY = 1 (R92). -/
theorem hostReg_res {off : Nat} (h8 : off % 8 = 0) (h : 0x0B0 ≤ off ∧ off < 0x0D0 ∨ 0x10000 ≤ off) :
    (∃ n, hostReg off = .res n) ∨ (∃ n, hostReg off = .msg n) ∨ (∃ n, hostReg off = .obuf n) := by
  rcases h with h | h
  · left
    have : off / 8 = 22 ∨ off/8 = 23 ∨ off/8 = 24 ∨ off/8 =25 := by omega
    have h0 : ¬ 0x10000 ≤ off := by omega
    have h0' : ¬ 0x20000 ≤ off := by omega
    unfold hostReg
    simp only [h0, h0', if_false]
    rcases this with h | h | h | h <;> rw [h] <;> exact ⟨_, rfl⟩
  · right
    unfold hostReg
    split
    · simp
    · simp

/-- A step of an aligned 8-byte write inside the window. -/
theorem step_write {s : State} {off : Nat} {v : Word} {l : List Event} (h : s.agenda = .host (.write off 8 v) :: l)
    (h8 : off % 8 = 0) (hw : off < 0x30000) :
    step s = .next (if s.busy then (s.setAgenda l).writeBusy v (hostReg off)
      else (s.setAgenda l).writeIdle v (hostReg off)) := by
  rw [step_cons h]
  show (s.setAgenda l).hostAccess _ = _
  rw [State.hostAccess_eq_next]
  refine ⟨?_, rfl⟩
  simp [HostAccess.wellFormed, HostAccess.aligned, HostAccess.inWindow, HostAccess.offset, HostAccess.width, h8, hw]

/-- A step of an aligned 8-byte read inside the window. -/
theorem step_read {s : State} {off : Nat} {l : List Event} (h : s.agenda = .host (.read off 8) :: l)
    (h8 : off % 8 = 0) (hw : off < 0x30000) : step s = .next ((s.setAgenda l).hostRead off) := by
  rw [step_cons h]
  show (s.setAgenda l).hostAccess _ = _
  rw [State.hostAccess_eq_next]
  refine ⟨?_, rfl⟩
  simp [HostAccess.wellFormed, HostAccess.aligned, HostAccess.inWindow, HostAccess.offset, HostAccess.width, h8, hw]

end Sys2Proof.Machine
end

