-- ==== Sys2Proof/Laws/Loop.lean ====
section
/-! SUPPORT. The fault-or-value results of a computation, and the loop `forRange`: one lemma to carry an invariant
through a loop that answers, one to show that a loop answers, one to show that a loop stops, one to relate two loops. -/

namespace Sys2Proof.Machine

/-- A sequence of two computations answers exactly when both do. -/
theorem bind_eq_ok {α β : Type} {x : Except Fault α} {f : α → Except Fault β} {b : β} :
    (x >>= f) = .ok b ↔ ∃ a, x = .ok a ∧ f a = .ok b := by
  cases x with
  | error e => simp [bind, Except.bind]
  | ok a => simp [bind, Except.bind]

@[simp] theorem pure_eq_ok {α : Type} {a b : α} : (pure a : Except Fault α) = .ok b ↔ a = b := by
  simp [pure, Except.pure]

@[simp] theorem ok_bind {α β : Type} (a : α) (f : α → Except Fault β) :
    ((Except.ok a : Except Fault α) >>= f) = f a := rfl

@[simp] theorem orUnspec_eq_ok {α : Type} {src : UnspecSource} {o : Option α} {a : α} :
    orUnspec src o = .ok a ↔ o = some a := by
  cases o with
  | none => simp [orUnspec]
  | some b => simp [orUnspec]

/-- A matrix read answers the block the bank lists. -/
@[simp] theorem State.readMtx_eq_ok {s : State} {k : Nat} {B : Block} :
    s.readMtx k = .ok B ↔ s.mtx.read k = some B := orUnspec_eq_ok

@[simp] theorem State.readMsg_eq_ok {s : State} {off n : Nat} {bs : List Byte} :
    s.readMsg off n = .ok bs ↔ s.msg.readRange off n = .ok bs := by
  unfold State.readMsg
  cases s.msg.readRange off n <;> simp

@[simp] theorem forRange_zero {σ : Type} (a : Nat) (body : Nat → σ → Except Fault σ) (s : σ) :
    forRange a 0 body s = .ok s := rfl

theorem forRange_succ {σ : Type} (a n : Nat) (body : Nat → σ → Except Fault σ) (s : σ) :
    forRange a (n + 1) body s = body a s >>= forRange (a + 1) n body := by
  rw [forRange]
  cases body a s <;> rfl

/-- An invariant indexed by the loop variable, carried through a loop that answers. -/
theorem forRange_invariant {σ : Type} {P : Nat → σ → Prop} {body : Nat → σ → Except Fault σ} {a n : Nat} {s t : σ}
    (hstep : ∀ v u u', a ≤ v → v < a + n → P v u → body v u = .ok u' → P (v + 1) u')
    (h0 : P a s) (h : forRange a n body s = .ok t) : P (a + n) t := by
  induction n generalizing a s with
  | zero =>
    simp only [forRange_zero, Except.ok.injEq] at h
    subst h
    exact h0
  | succ n ih =>
    rw [forRange_succ, bind_eq_ok] at h
    obtain ⟨u, hu, hrest⟩ := h
    have := ih (fun v w w' h1 h2 => hstep v w w' (by omega) (by omega)) (hstep a s u (by omega) (by omega) h0 hu) hrest
    rwa [show a + 1 + n = a + (n + 1) by omega] at this

/-- A loop answers, and its invariant holds at the end, if every iteration does from the invariant. -/
theorem forRange_total {σ : Type} {P : Nat → σ → Prop} {body : Nat → σ → Except Fault σ} {a n : Nat} {s : σ}
    (hstep : ∀ v u, a ≤ v → v < a + n → P v u → ∃ u', body v u = .ok u' ∧ P (v + 1) u')
    (h0 : P a s) : ∃ t, forRange a n body s = .ok t ∧ P (a + n) t := by
  induction n generalizing a s with
  | zero => exact ⟨s, rfl, h0⟩
  | succ n ih =>
    obtain ⟨u, hu, hPu⟩ := hstep a s (by omega) (by omega) h0
    obtain ⟨t, ht, hPt⟩ := ih (a := a + 1) (fun v w h1 h2 => hstep v w (by omega) (by omega)) hPu
    refine ⟨t, ?_, ?_⟩
    · rw [forRange_succ, hu]
      exact ht
    · rwa [show a + 1 + n = a + (n + 1) by omega] at hPt

/-- A loop cut in two. -/
theorem forRange_add {σ : Type} (a m n : Nat) (body : Nat → σ → Except Fault σ) (s : σ) :
    forRange a (m + n) body s = forRange a m body s >>= forRange (a + m) n body := by
  induction m generalizing a s with
  | zero => simp
  | succ m ih =>
    rw [show m + 1 + n = (m + n) + 1 by omega, forRange_succ, forRange_succ]
    cases body a s with
    | error e => rfl
    | ok u => simp only [ok_bind, ih]; rw [show a + 1 + m = a + (m + 1) by omega]

/-- A loop whose computation at some index stops, stops. -/
theorem forRange_stops {σ : Type} {a n i : Nat} {body : Nat → σ → Except Fault σ} {s u : σ} (h1 : a ≤ i) (h2 : i < a + n)
    (hu : forRange a (i - a) body s = .ok u) (hb : ∀ t, body i u ≠ .ok t) (t : σ) : forRange a n body s ≠ .ok t := by
  rw [show n = (i - a) + ((a + n - i - 1) + 1) by omega, forRange_add, hu, ok_bind, show a + (i - a) = i by omega,
    forRange_succ]
  cases h : body i u with
  | error e => intro hh; cases hh
  | ok v => exact absurd h (hb v)

/-- Two loops that start related end related, if every iteration keeps the relation. -/
theorem forRange_related {σ τ : Type} {R : σ → τ → Prop} {f : Nat → σ → Except Fault σ} {g : Nat → τ → Except Fault τ}
    {a n : Nat} {s s' : σ} {t : τ} (hstep : ∀ v s s' t, a ≤ v → v < a + n → R s t → f v s = .ok s' → ∃ t', g v t = .ok t' ∧ R s' t')
    (h0 : R s t) (h : forRange a n f s = .ok s') : ∃ t', forRange a n g t = .ok t' ∧ R s' t' := by
  induction n generalizing a s t with
  | zero => cases h; exact ⟨t, rfl, h0⟩
  | succ n ih =>
    rw [forRange_succ, bind_eq_ok] at h
    obtain ⟨u, hu, hrest⟩ := h
    obtain ⟨v, hv, hR⟩ := hstep a s u t (by omega) (by omega) h0 hu
    obtain ⟨t', ht, hR'⟩ := ih (fun v s s' t h1 h2 => hstep v s s' t (by omega) (by omega)) hR hrest
    exact ⟨t', by rw [forRange_succ, hv]; exact ht, hR'⟩

end Sys2Proof.Machine
end

