-- ==== Sys2Proof/Laws/Memory.lean ====
section
/-! SUPPORT. What the memory operations do: reading after a write, the canonical form, the indices a memory lists, and
that equal reads make equal memories. -/

namespace Sys2Proof.Machine

variable {α : Type}

/-- Every listed index is below a bound. -/
abbrev Memory.below (m : Memory α) (n : Nat) : Prop := ∀ e ∈ m, e.1 < n

@[simp] theorem Memory.read_nil (a : Nat) : Memory.read ([] : Memory α) a = none := rfl

theorem Memory.wf_nil : Memory.wf ([] : Memory α) := List.Pairwise.nil

theorem Memory.read_cons (k : Nat) (v : α) (m : Memory α) (a : Nat) :
    Memory.read ((k, v) :: m) a = if k = a then some v else m.read a := rfl

/-- An index below every listed one is unspecified. -/
theorem Memory.read_eq_none_of_lt {m : Memory α} {a : Nat} (h : ∀ e ∈ m, a < e.1) : m.read a = none := by
  induction m with
  | nil => rfl
  | cons e m ih =>
    obtain ⟨k, v⟩ := e
    have hk : a < k := h (k, v) (by simp)
    rw [Memory.read_cons, if_neg (by omega)]
    exact ih fun e he => h e (by simp [he])

/-- The indices after a write: the written one and the old ones. -/
theorem Memory.mem_write {m : Memory α} {a : Nat} {v : α} {e : Nat × α} (he : e ∈ m.write a v) :
    e = (a, v) ∨ e ∈ m := by
  induction m with
  | nil => simpa [Memory.write] using he
  | cons x m ih =>
    obtain ⟨k, w⟩ := x
    simp only [Memory.write] at he
    split at he
    · simpa using he
    · split at he
      · simp only [List.mem_cons] at he ⊢
        tauto
      · simp only [List.mem_cons] at he ⊢
        rcases he with h | h
        · tauto
        · rcases ih h with h | h <;> tauto

/-- A write keeps the canonical form. -/
theorem Memory.wf_write {m : Memory α} (h : m.wf) (a : Nat) (v : α) : (m.write a v).wf := by
  induction m with
  | nil => simp [Memory.write, Memory.wf]
  | cons x m ih =>
    obtain ⟨k, w⟩ := x
    have hm : Memory.wf m := h.of_cons
    have hk : ∀ e ∈ m, k < e.1 := fun e he => List.rel_of_pairwise_cons h he
    simp only [Memory.write]
    split
    · next hlt =>
      refine List.pairwise_cons.2 ⟨fun e he => ?_, h⟩
      rcases List.mem_cons.1 he with rfl | he
      · exact hlt
      · exact lt_trans hlt (hk e he)
    · split
      · next heq =>
        subst heq
        exact List.pairwise_cons.2 ⟨hk, hm⟩
      · next hge hne =>
        refine List.pairwise_cons.2 ⟨fun e he => ?_, ih hm⟩
        rcases Memory.mem_write he with rfl | he
        · show k < a
          omega
        · exact hk e he

/-- A write below a bound keeps the indices below it. -/
theorem Memory.below_write {m : Memory α} {n a : Nat} (h : m.below n) (ha : a < n) (v : α) :
    (m.write a v).below n := by
  intro e he
  rcases Memory.mem_write he with rfl | he
  · exact ha
  · exact h e he

/-- Reading after a write: the written value there, the old value everywhere else. -/
theorem Memory.read_write {m : Memory α} (h : m.wf) (a b : Nat) (v : α) :
    (m.write a v).read b = if a = b then some v else m.read b := by
  induction m with
  | nil => rfl
  | cons x m ih =>
    obtain ⟨k, w⟩ := x
    have hm : Memory.wf m := h.of_cons
    simp only [Memory.write]
    split
    · simp [Memory.read_cons]
    · split
      · next heq =>
        subst heq
        simp only [Memory.read_cons]
        split <;> simp_all
      · next hge hne =>
        simp only [Memory.read_cons, ih hm]
        by_cases hkb : k = b
        · have : a ≠ b := by omega
          simp [hkb, this]
        · simp [hkb]

@[simp] theorem Memory.read_write_same {m : Memory α} (h : m.wf) (a : Nat) (v : α) :
    (m.write a v).read a = some v := by simp [Memory.read_write h]

theorem Memory.read_write_ne {m : Memory α} (h : m.wf) {a b : Nat} (hab : a ≠ b) (v : α) :
    (m.write a v).read b = m.read b := by simp [Memory.read_write h, hab]

/-- A write never makes an index unspecified. -/
theorem Memory.isSome_read_write {m : Memory α} (h : m.wf) {b : Nat} (hb : (m.read b).isSome) (a : Nat) (v : α) :
    ((m.write a v).read b).isSome := by
  rw [Memory.read_write h]
  split <;> simp_all

/-! ### Ranges -/

theorem Memory.wf_writeRange {m : Memory α} (h : m.wf) (a : Nat) (vs : List α) : (m.writeRange a vs).wf := by
  induction vs generalizing m a with
  | nil => exact h
  | cons v vs ih => exact ih (Memory.wf_write h a v) (a + 1)

theorem Memory.below_writeRange {m : Memory α} {n : Nat} (h : m.below n) (a : Nat) (vs : List α)
    (hn : vs = [] ∨ a + vs.length ≤ n) : (m.writeRange a vs).below n := by
  induction vs generalizing m a with
  | nil => exact h
  | cons v vs ih =>
    have hlen : a + (vs.length + 1) ≤ n := by simpa using hn
    refine ih (Memory.below_write h (by omega) v) (a + 1) ?_
    right
    omega

/-- Reading after a range write: the written value inside the range, the old value outside. -/
theorem Memory.read_writeRange {m : Memory α} (h : m.wf) (a : Nat) (vs : List α) (b : Nat) :
    (m.writeRange a vs).read b = if a ≤ b ∧ b < a + vs.length then vs[b - a]? else m.read b := by
  induction vs generalizing m a with
  | nil => simp [Memory.writeRange]
  | cons v vs ih =>
    simp only [Memory.writeRange, ih (Memory.wf_write h a v) (a + 1), List.length_cons]
    by_cases hb : a + 1 ≤ b ∧ b < a + 1 + vs.length
    · have h2 : a ≤ b ∧ b < a + (vs.length + 1) := by omega
      have h3 : b - a = (b - (a + 1)) + 1 := by omega
      rw [if_pos hb, if_pos h2, h3, List.getElem?_cons_succ]
    · rw [if_neg hb, Memory.read_write h]
      by_cases hab : a = b
      · subst hab
        simp
      · have h2 : ¬(a ≤ b ∧ b < a + (vs.length + 1)) := by omega
        rw [if_neg hab, if_neg h2]

/-- A range read of specified values gives them, in order. -/
theorem Memory.readRange_eq_ok {m : Memory α} {a n : Nat} {vs : List α} :
    m.readRange a n = .ok vs ↔ vs.length = n ∧ ∀ j, j < n → m.read (a + j) = vs[j]? := by
  induction n generalizing a vs with
  | zero =>
    simp only [Memory.readRange, Except.ok.injEq, Nat.not_lt_zero, IsEmpty.forall_iff, implies_true, and_true,
      List.length_eq_zero_iff]
    exact eq_comm
  | succ n ih =>
    rw [Memory.readRange]
    cases hr : m.read a with
    | none =>
      simp only [reduceCtorEq, false_iff, not_and]
      intro hlen hall
      have := hall 0 (by omega)
      rw [Nat.add_zero, hr] at this
      have h0 : 0 < vs.length := by omega
      simp [List.getElem?_eq_getElem h0] at this
    | some v =>
      simp only
      cases hrr : m.readRange (a + 1) n with
      | error k =>
        simp only [reduceCtorEq, false_iff, not_and]
        intro hlen hall
        have hne : m.readRange (a + 1) n = .ok vs.tail := by
          refine ih.2 ⟨by simp [hlen], fun j hj => ?_⟩
          have := hall (j + 1) (by omega)
          rw [List.getElem?_tail, ← this]
          congr 1
          omega
        rw [hrr] at hne
        exact absurd hne (by simp)
      | ok ws =>
        obtain ⟨hl, hall⟩ := ih.1 hrr
        simp only [Except.ok.injEq]
        constructor
        · rintro rfl
          refine ⟨by simp [hl], fun j hj => ?_⟩
          cases j with
          | zero => simpa using hr
          | succ j =>
            rw [List.getElem?_cons_succ, ← hall j (by omega)]
            congr 1
            omega
        · rintro ⟨hlen, hall'⟩
          refine List.ext_getElem? fun j => ?_
          cases j with
          | zero =>
            rw [← hall' 0 (by omega), Nat.add_zero, hr]
            rfl
          | succ j =>
            by_cases hj : j < n
            · rw [List.getElem?_cons_succ, ← hall j hj, ← hall' (j + 1) (by omega)]
              congr 1
              omega
            · rw [List.getElem?_eq_none (by simp; omega), List.getElem?_eq_none (by omega)]

/-- A range read answers a value exactly when every index of the range is specified. -/
theorem Memory.readRange_isOk {m : Memory α} {a n : Nat} :
    (∃ vs, m.readRange a n = .ok vs) ↔ ∀ j, j < n → (m.read (a + j)).isSome := by
  induction n generalizing a with
  | zero => simp [Memory.readRange]
  | succ n ih =>
    rw [Memory.readRange]
    cases hr : m.read a with
    | none =>
      simp only [reduceCtorEq, exists_false, false_iff]
      intro h
      have := h 0 (by omega)
      simp [hr] at this
    | some v =>
      simp only
      have hshift : (∀ j, j < n + 1 → (m.read (a + j)).isSome) ↔ ∀ j, j < n → (m.read (a + 1 + j)).isSome := by
        constructor
        · intro h j hj
          have := h (j + 1) (by omega)
          rwa [show a + (j + 1) = a + 1 + j by omega] at this
        · intro h j hj
          cases j with
          | zero => simp [hr]
          | succ j =>
            have := h j (by omega)
            rwa [show a + (j + 1) = a + 1 + j by omega]
      rw [hshift, ← ih]
      cases m.readRange (a + 1) n with
      | error k => simp
      | ok ws => simp

/-- Reading after every index below n is filled. -/
theorem Memory.read_fillBelow {m : Memory α} (h : m.wf) (n : Nat) (v : α) (b : Nat) :
    (m.fillBelow n v).read b = if b < n then some v else m.read b := by
  rw [Memory.fillBelow, Memory.read_writeRange h]
  simp only [List.length_replicate, Nat.zero_add, Nat.zero_le, true_and, Nat.sub_zero]
  split
  · next hb => simp [hb]
  · rfl

theorem Memory.wf_fillBelow {m : Memory α} (h : m.wf) (n : Nat) (v : α) : (m.fillBelow n v).wf :=
  Memory.wf_writeRange h 0 _

theorem Memory.below_fillBelow {m : Memory α} {n k : Nat} (h : m.below n) (hk : k ≤ n) (v : α) :
    (m.fillBelow k v).below n :=
  Memory.below_writeRange h 0 _ (Or.inr (by simpa using hk))

/-! ### Equal reads, equal memories -/

/-- Two canonical memories with the same reads are the same list. -/
theorem Memory.ext {m n : Memory α} (hm : m.wf) (hn : n.wf) (h : ∀ a, m.read a = n.read a) : m = n := by
  induction m generalizing n with
  | nil =>
    cases n with
    | nil => rfl
    | cons x n =>
      obtain ⟨l, w⟩ := x
      have := h l
      simp [Memory.read_cons] at this
  | cons x m ih =>
    obtain ⟨k, v⟩ := x
    have hkm : ∀ e ∈ m, k < e.1 := fun e he => List.rel_of_pairwise_cons hm he
    cases n with
    | nil =>
      have := h k
      simp [Memory.read_cons] at this
    | cons y n =>
      obtain ⟨l, w⟩ := y
      have hln : ∀ e ∈ n, l < e.1 := fun e he => List.rel_of_pairwise_cons hn he
      have hkl : k = l := by
        rcases lt_trichotomy k l with hlt | heq | hgt
        · have h1 := h k
          rw [Memory.read_eq_none_of_lt (m := (l, w) :: n) (a := k)] at h1
          · simp [Memory.read_cons] at h1
          · intro e he
            rcases List.mem_cons.1 he with rfl | he
            · exact hlt
            · exact lt_trans hlt (hln e he)
        · exact heq
        · have h1 := h l
          rw [Memory.read_eq_none_of_lt (m := (k, v) :: m) (a := l)] at h1
          · simp [Memory.read_cons] at h1
          · intro e he
            rcases List.mem_cons.1 he with rfl | he
            · exact hgt
            · exact lt_trans hgt (hkm e he)
      subst hkl
      have hv : v = w := by
        have h1 := h k
        simpa [Memory.read_cons] using h1
      subst hv
      congr 1
      refine ih hm.of_cons hn.of_cons fun a => ?_
      by_cases hka : k = a
      · subst hka
        rw [Memory.read_eq_none_of_lt hkm, Memory.read_eq_none_of_lt hln]
      · have h1 := h a
        simpa [Memory.read_cons, hka] using h1

end Sys2Proof.Machine
end

