-- ==== Sys2Proof/Laws/BlockAccess.lean ====
section
/-! SUPPORT. The one read and the one write of a block, through the selectors that name it (spec/30_encoding.md R116,
R117; spec/10_state.md R50-R53): what a command reads, and everything a write of one block can do. -/

namespace Sys2Proof.Machine

/-- A block that holds a value is read: always for a working register, where it is listed for a matrix block. -/
theorem State.readBlock_of_holding {s : State} {r : BlockRef} {A : Held Block} (h : s.holding r = some A) :
    s.readBlock r = .ok A.value := by
  cases r with
  | mtx k =>
    simp only [State.holding, Option.map_eq_some_iff] at h
    obtain ⟨B, hB, rfl⟩ := h
    simpa [State.readBlock, Held.written] using hB
  | wb r =>
    cases h
    rfl

/-- Recording the read of a block records whether it is specified. -/
theorem State.noteBlock_of_holding {s u : State} {r : BlockRef} {A : Held Block} (h : s.holding r = some A)
    (hw : u.wb = s.wb) : u.noteBlock r = u.note A.specified := by
  cases r with
  | mtx k =>
    simp only [State.holding, Option.map_eq_some_iff] at h
    obtain ⟨B, -, rfl⟩ := h
    exact u.note_true.symm
  | wb r =>
    cases h
    simp only [State.noteBlock, State.noteWb, hw]

/-- Recording a read changes nothing a block holds. -/
@[simp] theorem State.holding_note (s : State) (b : Bool) (r : BlockRef) : (s.note b).holding r = s.holding r := by
  cases r <;> rfl

/-- A working block reads as written, and is specified; the others are unchanged (R52). -/
theorem Working.held_set (w : Working) (r q : WbReg) (B : Block) (h : r ≠ .zero) :
    (w.set r B).held q = if q = r then .written B else w.held q := by
  cases r <;> cases q <;> simp_all [Working.set, Working.held]

/-- The block written reads as written, every other block as before. -/
theorem State.holding_writeBlock {s : State} (hw : s.mtx.wf) {d : BlockRef} (hd : d ≠ .wb .zero) (B : Block)
    (r : BlockRef) :
    (s.writeBlock d B).holding r = if r = d then some (.written B) else s.holding r := by
  cases d with
  | mtx k =>
    cases r with
    | mtx j =>
      simp only [State.writeBlock, State.holding, State.writeMtx, Memory.read_write hw, BlockRef.mtx.injEq, eq_comm (a := j)]
      split <;> rfl
    | wb q => simp [State.writeBlock, State.holding, State.writeMtx]
  | wb w =>
    have : w ≠ .zero := by rintro rfl; exact hd rfl
    cases r with
    | mtx j => simp [State.writeBlock, State.holding, State.writeWb]
    | wb q =>
      simp only [State.writeBlock, State.holding, State.writeWb, Working.held_set _ _ _ _ this, BlockRef.wb.injEq]
      split <;> rfl

/-- A selector that names a block other than WB0 is a destination (R117). -/
theorem State.destBlock_eq {s : State} {d} (h : blockOfSelector s.memBlocks s.args[0] = some d) (hd : d ≠ .wb .zero) :
    s.destBlock 0 = some d := by
  unfold State.destBlock State.sourceBlock State.arg
  rw [show s.args[(0 : Fin 6)] = s.args[0] from rfl, h]
  split
  · next hh => cases hh; exact absurd rfl hd
  · rfl

/-- Everything a command does whose whole effect is one block written and the record of what it read. -/
theorem finish_writeBlock {s : State} {d : BlockRef} (hw : s.mtx.wf) (hd : d ≠ .wb .zero) (b : Bool) (C : Block) :
    ∃ t, finish (.ok ((s.note b).writeBlock d C)) = .next t ∧
      t = { s with mtx := t.mtx, wb := t.wb, done := true, latch := none, unspecRead := s.unspecRead || !b } ∧
      t.holding d = some (.written C) ∧ ∀ r, r ≠ d → t.holding r = s.holding r := by
  have h : ∀ r, ((s.note b).writeBlock d C).complete.holding r = ((s.note b).writeBlock d C).holding r := by
    intro r; cases r <;> rfl
  refine ⟨_, rfl, ?_, ?_, ?_⟩
  · cases d <;> rfl
  · rw [h, State.holding_writeBlock (s := s.note b) hw hd]; simp
  · intro r hr; rw [h, State.holding_writeBlock (s := s.note b) hw hd]; simp [hr]

end Sys2Proof.Machine
end

