-- ==== Sys2Proof/Laws/Blocks.lean ====
section
/-! SUPPORT. Byte order and block functions, word by word and byte by byte (spec/00_scope.md R12, 41_block.md R160,
42_compressor.md R182-R184). -/

namespace Sys2Proof.Machine

/-! ### Bytes -/

@[simp] theorem leBytes_length (n x : Nat) : (leBytes n x).length = n := by
  induction n generalizing x with
  | zero => rfl
  | succ n ih => simp [leBytes, ih]

@[simp] theorem le32_length (n : Nat) : (le32 n).length = 4 := leBytes_length 4 n

@[simp] theorem le64_length (w : Word) : (le64 w).length = 8 := leBytes_length 8 w.toNat

/-- The number of n little-endian bytes of x is x modulo 256^n. -/
theorem leNat_leBytes (n x : Nat) : leNat (leBytes n x) = x % 256 ^ n := by
  induction n generalizing x with
  | zero => simp [leBytes, leNat, Nat.mod_one]
  | succ n ih =>
    simp only [leBytes, leNat, ih, BitVec.toNat_ofNat]
    exact (show x % 256 ^ (n + 1) = x % 256 + 256 * (x / 256 % 256 ^ n) by
      rw [show 256 ^ (n + 1) = 256 * 256 ^ n from Nat.pow_succ', Nat.mod_mul]).symm

/-- The number a byte string stands for fits its length. -/
theorem leNat_lt (bs : List Byte) : leNat bs < 256 ^ bs.length := by
  induction bs with
  | nil => simp [leNat]
  | cons b bs ih =>
    have := b.isLt
    simp only [leNat, List.length_cons, Nat.pow_succ]
    omega

/-- The bytes of the number a byte string stands for are that byte string. -/
theorem leBytes_leNat (bs : List Byte) : leBytes bs.length (leNat bs) = bs := by
  induction bs with
  | nil => rfl
  | cons b bs ih =>
    have hb := b.isLt
    simp only [List.length_cons, leBytes, leNat]
    congr 1
    · apply BitVec.eq_of_toNat_eq
      simp only [BitVec.toNat_ofNat]
      omega
    · rw [show (b.toNat + 256 * leNat bs) / 256 = leNat bs by omega, ih]

/-- A word is read back from its eight bytes (R12). -/
@[simp] theorem leWord_le64 (w : Word) : leWord (le64 w) = w := by
  apply BitVec.eq_of_toNat_eq
  have := w.isLt
  simp only [leWord, le64, leNat_leBytes, BitVec.toNat_ofNat]
  omega

/-- Eight bytes are the bytes of their word (R12). -/
theorem le64_leWord {bs : List Byte} (h : bs.length = 8) : le64 (leWord bs) = bs := by
  have h1 := leNat_lt bs
  have h2 := leBytes_leNat bs
  rw [h] at h1 h2
  simp only [le64, leWord, BitVec.toNat_ofNat]
  rw [Nat.mod_eq_of_lt (by omega), h2]

/-! ### Blocks -/

/-- XOR is word by word (R160). -/
@[simp] theorem xorInto_getElem (A B : Block) (k : Nat) (h : k < 128) : (xorInto A B)[k] = A[k] ^^^ B[k] := by
  simp [xorInto]

@[simp] theorem zeroBlock_getElem (k : Nat) (h : k < 128) : zeroBlock[k] = 0 := by simp [zeroBlock]

@[simp] theorem fromBytes_getElem (s : List Byte) (k : Nat) (h : k < 128) :
    (fromBytes s)[k] = leWord ((s.drop (8 * k)).take 8) := by simp [fromBytes]

theorem xorInto_comm (A B : Block) : xorInto A B = xorInto B A := by
  ext k hk
  simp [BitVec.xor_comm]

@[simp] theorem xorInto_self (A : Block) : xorInto A A = zeroBlock := by
  ext k hk
  simp

@[simp] theorem xorInto_zero (A : Block) : xorInto A zeroBlock = A := by
  ext k hk
  simp

@[simp] theorem zero_xorInto (A : Block) : xorInto zeroBlock A = A := by
  ext k hk
  simp

/-- A list of equal-length pieces: the length of the whole. -/
theorem flatMap_le64_length (ws : List Word) : (ws.flatMap le64).length = 8 * ws.length := by
  induction ws with
  | nil => rfl
  | cons w ws ih =>
    simp only [List.flatMap_cons, List.length_append, le64_length, ih, List.length_cons]
    omega

/-- ToBytes gives exactly 1024 bytes (R12). -/
@[simp] theorem toBytes_length (B : Block) : (toBytes B).length = 1024 := by
  simp [toBytes]

/-! ### The round function -/

/-- A round on some words leaves every other word alone. -/
theorem mixAt_getElem_ne {n : Nat} (v : Vector Word n) (a b c d : Fin n) (k : Nat) (hk : k < n)
    (ha : a.val ≠ k) (hb : b.val ≠ k) (hc : c.val ≠ k) (hd : d.val ≠ k) : (mixAt v a b c d)[k] = v[k] := by
  simp [mixAt, ha, hb, hc, hd]

theorem roundOn_getElem_ne {n : Nat} (idx : Fin 16 → Fin n) (v : Vector Word n) (k : Nat) (hk : k < n)
    (h : ∀ j, (idx j).val ≠ k) : (roundOn idx v)[k] = v[k] := by
  simp [roundOn, mixAt_getElem_ne, h]

/-- The word numbers of a group are those of R183. -/
theorem groupWord_val {g : Nat} (hg : g < 16) (j : Fin 16) : (groupWord g j).val = groupIndex g j.val := by
  have hj := j.isLt
  have : groupIndex g j.val < 128 := by
    unfold groupIndex
    split <;> omega
  simp [groupWord, Nat.mod_eq_of_lt this]

/-! ### Blake2b -/

/-- Blake2b returns exactly n bytes, for n up to 64 (R14). -/
theorem blake2b_length (X : List Byte) {n : Nat} (h : n ≤ 64) : (blake2b X n).length = n := by
  simp [blake2b, h]

/-- Byte k of the little-endian bytes of a number. -/
theorem leBytes_getElem (n x k : Nat) (h : k < n) : (leBytes n x)[k]? = some (BitVec.ofNat 8 (x / 256 ^ k)) := by
  induction n generalizing x k with
  | zero => omega
  | succ n ih =>
    cases k with
    | zero => simp [leBytes]
    | succ k =>
      simp only [leBytes, List.getElem?_cons_succ]
      rw [ih _ _ (by omega), Nat.div_div_eq_div_mul, Nat.pow_succ']

/-- Byte k of a word is its bits [8k+7 : 8k] (R80). -/
theorem le64_getElem (w : Word) (k : Nat) (h : k < 8) : (le64 w)[k]? = some (w.extractLsb' (8 * k) 8) := by
  unfold le64
  rw [leBytes_getElem 8 _ k h]
  congr 1
  apply BitVec.eq_of_toNat_eq
  simp [BitVec.extractLsb'_toNat, Nat.shiftRight_eq_div_pow, Nat.pow_mul]

/-- Byte b of a list of words is byte b mod 8 of word b / 8. -/
theorem flatMap_le64_getElem (ws : List Word) (b : Nat) (h : b / 8 < ws.length) : (ws.flatMap le64)[b]? = some ((ws[b / 8]).extractLsb' (8 * (b % 8)) 8) := by
  induction ws generalizing b with
  | nil => simp at h
  | cons w ws ih =>
    simp only [List.flatMap_cons]
    by_cases hb : b < 8
    · rw [List.getElem?_append_left (by simpa using hb)]
      have : b / 8 = 0 := by omega
      simp only [this, List.getElem_cons_zero]
      rw [le64_getElem _ _ hb, Nat.mod_eq_of_lt hb]
    · rw [List.getElem?_append_right (by simp; omega)]
      have h1 : b / 8 = (b - 8) / 8 + 1 := by omega
      have h2 : b % 8 = (b - 8) % 8 := by omega
      simp only [h1, le64_length, List.getElem_cons_succ, h2]
      exact ih (b - 8) (by simp at h; omega)

/-- Byte b of `ToBytes` (R160). -/
theorem toBytes_getElem (B : Block) (b : Nat) (h : b < 1024) : (toBytes B)[b]? = some (B[b / 8].extractLsb' (8 * (b % 8)) 8) := by
  unfold toBytes
  rw [flatMap_le64_getElem _ _ (by simp; omega)]
  simp

end Sys2Proof.Machine
end

