-- ==== Sys2Proof/Laws/Compressor.lean ====
section
/-! SUPPORT. The compressor on zero blocks, and the round function seen through its index group and as the spec writes it
(spec/42_compressor.md R180-R184, R191). -/

namespace Sys2Proof.Machine

/-- G of zeros is zero. -/
theorem mixG_zero : mixG 0 0 0 0 = ⟨0,0,0,0⟩ := by decide

theorem mixAt_zero (a b c d : Fin 128) : mixAt zeroBlock a b c d = zeroBlock := by
  have h : ∀ k : Fin 128, zeroBlock[k] = 0 := by intro k; simp [zeroBlock]
  unfold mixAt
  simp only [h, mixG_zero]
  apply Vector.ext; intro k hk
  simp [zeroBlock]

theorem applyGroup_zero (g) : applyGroup g zeroBlock = zeroBlock := by
  unfold applyGroup roundOn
  simp only [mixAt_zero]

/-- The groups of a zero block leave it zero. -/
theorem applyGroups_zero (l : List Nat) : l.foldl (fun Z g => applyGroup g Z) zeroBlock = zeroBlock := by
  induction l with
  | nil => rfl
  | cons a l ih => simp [applyGroup_zero, ih]

/-- One call of G through two index maps that see the same words. -/
theorem mixAt_rel {n m : Nat} (v : Vector Word n) (w : Vector Word m) (idx : Fin 16 → Fin n) (jdx : Fin 16 → Fin m)
   (hi : Function.Injective idx) (hj : Function.Injective jdx) (h : ∀ j, v[idx j] = w[jdx j]) (a b c d : Fin 16) :
   ∀ j, (mixAt v (idx a) (idx b) (idx c) (idx d))[idx j] = (mixAt w (jdx a) (jdx b) (jdx c) (jdx d))[jdx j] := by
  intro j
  have e1 : ∀ x, ((idx x).val = (idx j).val) = (x = j) := by
    intro x; rw [← Fin.ext_iff, hi.eq_iff]
  have e2 : ∀ x, ((jdx x).val = (jdx j).val) = (x = j) := by
    intro x; rw [← Fin.ext_iff, hj.eq_iff]
  have hx := h j
  simp only [Fin.getElem_fin] at hx
  unfold mixAt
  simp only [h, Fin.getElem_fin, Vector.getElem_set, e1, e2, hx]

/-- The round function through two index maps that see the same words. -/
theorem roundOn_rel {n m : Nat} (v : Vector Word n) (w : Vector Word m) (idx : Fin 16 → Fin n) (jdx : Fin 16 → Fin m)
   (hi : Function.Injective idx) (hj : Function.Injective jdx) (h : ∀ j, v[idx j] = w[jdx j]) :
   ∀ j, (roundOn idx v)[idx j] = (roundOn jdx w)[jdx j] := by
  unfold roundOn
  iterate 8 apply mixAt_rel _ _ _ _ hi hj
  exact h

/-- The 16 words of a group are different words (R183). -/
theorem groupWord_inj (g) (hg : g < 16) : Function.Injective (groupWord g) := by
  intro a b h
  have := congrArg Fin.val h
  rw [groupWord_val hg, groupWord_val hg] at this
  unfold groupIndex at this
  ext
  split at this <;> omega

/-! ### The compressor as the spec writes it -/

/-- The low half as a widening of a narrowing. -/
theorem lo32_eq (x : Word) : lo32 x = (x.setWidth 32).setWidth 64 := by
  apply BitVec.eq_of_toNat_eq
  simp [lo32, BitVec.toNat_setWidth, Nat.and_two_pow_sub_one_eq_mod x.toNat 32]
  omega

/-- `rotr64` is the rotation of bit vectors. -/
theorem rotr64_eq (x : Word) (n : Nat) (h : n < 64) : rotr64 x n = x.rotateRight n := by
  simp [rotr64, BitVec.rotateRight, BitVec.rotateRightAux, Nat.mod_eq_of_lt h]

/-- The words of G, as R180 and R181 write it, are those of `mixG`. -/
theorem writtenG_eq (a b c d : Word) :
    writtenG a b c d = ((mixG a b c d).a, (mixG a b c d).b, (mixG a b c d).c, (mixG a b c d).d) := by
  have hb : ∀ x y : Word, x + y + 2 * ((x.setWidth 32).setWidth 64 * (y.setWidth 32).setWidth 64) = blaMka x y := by
    intro x y; rw [← lo32_eq, ← lo32_eq]; rfl
  simp only [writtenG, mixG, hb, ← rotr64_eq _ 32 (by decide), ← rotr64_eq _ 24 (by decide), ← rotr64_eq _ 16 (by decide),
    ← rotr64_eq _ 63 (by decide)]

theorem roundOn_words (v0 v1 v2 v3 v4 v5 v6 v7 v8 v9 v10 v11 v12 v13 v14 v15 : Word) :
    roundOn id #v[v0, v1, v2, v3, v4, v5, v6, v7, v8, v9, v10, v11, v12, v13, v14, v15] =
      writtenP #v[v0, v1, v2, v3, v4, v5, v6, v7, v8, v9, v10, v11, v12, v13, v14, v15] := by
  simp [writtenP, writtenG_eq, roundOn, mixAt]

/-- P, as R182 writes it, is the round on a vector of 16 words. -/
theorem roundOn_id (v : Vector Word 16) : roundOn id v = writtenP v := by
  have e : v = #v[v[0], v[1], v[2], v[3], v[4], v[5], v[6], v[7], v[8], v[9], v[10], v[11], v[12], v[13], v[14],
      v[15]] := by
    apply Vector.ext
    intro i hi
    interval_cases i <;> rfl
  rw [e]
  exact roundOn_words ..

/-- A group applied to a block, as R183 writes it. -/
theorem applyGroup_eq {g : Nat} (hg : g < 16) (Z : Block) : applyGroup g Z = writtenGroup g Z := by
  have hval : ∀ j : Fin 16, writtenIndex g j.val = (groupWord g j).val := fun j => (groupWord_val hg j).symm
  apply Vector.ext
  intro k hk
  unfold writtenGroup
  rw [Vector.getElem_ofFn]
  have hW : ∀ j : Fin 16, (applyGroup g Z)[groupWord g j] =
      (writtenP (Vector.ofFn fun j : Fin 16 => Z[writtenIndex g j.val]?.getD 0))[j] := by
    intro j
    rw [← roundOn_id]
    refine roundOn_rel Z _ (groupWord g) id (groupWord_inj g hg) (fun _ _ h => h) (fun i => ?_) j
    simp [hval]
  split
  · next j hj =>
    have h := List.find?_some hj
    simp only [beq_iff_eq] at h
    rw [← hW]
    simp only [Fin.getElem_fin, ← hval, h]
  · next hj =>
    refine roundOn_getElem_ne _ _ _ hk fun j h => ?_
    have := List.find?_eq_none.1 hj j (List.mem_finRange j)
    simp [hval, h] at this

end Sys2Proof.Machine
end

