-- ==== Sys2Proof/Laws/Config.lean ====
section
/-! SUPPORT. CheckConfig and the geometry (spec/45_engine.md R273, R276): when the check passes, and the numbers the
geometry registers then hold. -/

namespace Sys2Proof.Machine

/-- CheckConfig passes exactly when all nine rows of R273 hold. -/
theorem checkConfig_eq_none {p : Params} {c : Caps} :
    checkConfig p c = none ↔
      (1 ≤ p.lanes.toNat ∧ p.lanes.toNat ≤ Config.maxLanes) ∧ 8 * p.lanes.toNat ≤ p.memKib.toNat ∧
      1 ≤ p.iter.toNat ∧ Config.minOutLen ≤ p.outLen.toNat ∧ (p.version = 0x10 ∨ p.version = 0x13) ∧
      (p.type = 0 ∨ p.type = 1 ∨ p.type = 2) ∧ memBlocksOf p ≤ c.maxBlocks ∧
      p.pwdLen.toNat + p.saltLen.toNat + p.secretLen.toNat + p.adLen.toNat ≤ c.msgBytes ∧
      p.outLen.toNat ≤ c.obufBytes := by
  unfold checkConfig
  constructor
  · intro h
    split_ifs at h
    simp_all
  · rintro ⟨h1, h2, h3, h4, h5, h6, h7, h8, h9⟩
    rw [if_neg (not_not.2 h1), if_neg (not_not.2 h2), if_neg (not_not.2 h3), if_neg (not_not.2 h4),
      if_neg (not_not.2 h5), if_neg (not_not.2 h6), if_neg (not_not.2 h7), if_neg (not_not.2 h8),
      if_neg (not_not.2 h9)]

/-- CheckConfig never answers NONE as an error. -/
theorem checkConfig_ne_none {p : Params} {c : Caps} {e : ErrCode} (h : checkConfig p c = some e) : e ≠ .none := by
  rintro rfl
  unfold checkConfig at h
  split_ifs at h <;> simp at h

/-- The rounded memory size is at most MEMKIB (R277). -/
theorem memBlocksOf_le (p : Params) : memBlocksOf p ≤ p.memKib.toNat := by
  unfold memBlocksOf segLenOf
  exact Nat.mul_div_le _ _

/-- What a validated configuration says about the numbers in the registers (R273, R276). -/
structure State.Geom (s : State) : Prop where
  lanes_pos : 1 ≤ s.lanes
  iter_pos : 1 ≤ s.iter
  seg_ge : 2 ≤ s.segLen
  laneLen_eq : s.laneLen = 4 * s.segLen
  memBlocks_eq : s.memBlocks = s.lanes * s.laneLen
  memBlocks_le : s.memBlocks ≤ s.caps.maxBlocks
  outLen_ge : 4 ≤ s.outLen
  outLen_le : s.outLen ≤ s.caps.obufBytes

/-- The geometry registers of a passing configuration. -/
theorem geom_of_check {s : State} (hc : checkConfig s.params s.caps = none) (hg : s.geom = geometryOf s.params) :
    s.Geom := by
  obtain ⟨⟨hl, -⟩, hm, hi, ho, -, -, hb, -, hob⟩ := checkConfig_eq_none.1 hc
  have hlt : memBlocksOf s.params < 2 ^ 32 := lt_of_le_of_lt (memBlocksOf_le _) s.params.memKib.isLt
  have hsegdef : segLenOf s.params = s.params.memKib.toNat / (4 * s.params.lanes.toNat) := rfl
  have hseg2 : 2 ≤ segLenOf s.params := by
    rw [hsegdef, Nat.le_div_iff_mul_le (by omega)]
    omega
  have hmul : memBlocksOf s.params = s.params.lanes.toNat * (4 * segLenOf s.params) := by
    unfold memBlocksOf
    ring
  have hle : 4 * segLenOf s.params ≤ memBlocksOf s.params := by
    rw [hmul]
    exact Nat.le_mul_of_pos_left _ (by omega)
  have e1 : s.memBlocks = memBlocksOf s.params := by
    simp only [State.memBlocks, hg, geometryOf, BitVec.toNat_ofNat]
    exact Nat.mod_eq_of_lt hlt
  have e2 : s.laneLen = 4 * segLenOf s.params := by
    simp only [State.laneLen, hg, geometryOf, BitVec.toNat_ofNat]
    exact Nat.mod_eq_of_lt (by omega)
  have e3 : s.segLen = segLenOf s.params := by
    simp only [State.segLen, hg, geometryOf, BitVec.toNat_ofNat]
    exact Nat.mod_eq_of_lt (by omega)
  exact
    { lanes_pos := hl
      iter_pos := hi
      seg_ge := by omega
      laneLen_eq := by omega
      memBlocks_eq := by rw [e1, e2, hmul]; rfl
      memBlocks_le := by omega
      outLen_ge := ho
      outLen_le := hob }

/-- In a state of a run with CFG = 1 the geometry numbers are those of R276. -/
theorem State.Inv.geom {s : State} (h : s.Inv) (hc : s.cfg = true) : s.Geom :=
  geom_of_check (h.configured hc).1 (h.configured hc).2

/-- With CFG = 0, MEMBLOCKS = 0 (R43), so no matrix selector is valid (R116). -/
theorem State.Inv.memBlocks_le {s : State} (h : s.Inv) : s.memBlocks ≤ s.caps.maxBlocks := by
  cases hc : s.cfg with
  | true => exact (h.geom hc).memBlocks_le
  | false =>
    have := h.unconfigured hc
    simp [State.memBlocks, this, Geometry.zero]

/-- The numbers are the same in a state with the same registers. -/
theorem State.Geom.congr {s t : State} (h : s.Geom) (hp : t.params = s.params) (hg : t.geom = s.geom)
    (hc : t.caps = s.caps) : t.Geom := by
  obtain ⟨h1, h2, h3, h4, h5, h6, h7, h8⟩ := h
  constructor <;>
    simp_all only [State.lanes, State.iter, State.segLen, State.laneLen, State.memBlocks, State.outLen]

end Sys2Proof.Machine
end

