-- ==== Sys2Proof/Laws/Reference.lean ====
section
/-! SUPPORT. The index arithmetic of the filler (spec/44_filler.md R232-R238): flat indices, and where a reference
lies. -/

namespace Sys2Proof.Machine

/-- Two lanes and columns with the same flat index are the same (10_state.md R51). -/
theorem flatIndex_inj {q l c l' c' : Nat} (hc : c < q) (hc' : c' < q)
    (h : flatIndex q l c = flatIndex q l' c') : l = l' ∧ c = c' := by
  unfold flatIndex at h
  have hq : 0 < q := by omega
  have h1 : l = l' := by
    have e1 : (l * q + c) / q = l := by
      rw [Nat.mul_comm, Nat.mul_add_div hq, Nat.div_eq_of_lt hc, Nat.add_zero]
    have e2 : (l' * q + c') / q = l' := by
      rw [Nat.mul_comm, Nat.mul_add_div hq, Nat.div_eq_of_lt hc', Nat.add_zero]
    rw [← e1, ← e2, h]
  subst h1
  exact ⟨rfl, by omega⟩

/-- A lane and a column of the matrix name a block below MEMBLOCKS (20_memory.md R89). -/
theorem flatIndex_lt {q p l c : Nat} (hl : l < p) (hc : c < q) : flatIndex q l c < p * q := by
  unfold flatIndex
  have : (l + 1) * q ≤ p * q := Nat.mul_le_mul_right q hl
  rw [Nat.add_mul, Nat.one_mul] at this
  omega

/-- Every index below MEMBLOCKS is a lane and a column. -/
theorem exists_flatIndex {q p k : Nat} (hk : k < p * q) : ∃ l c, l < p ∧ c < q ∧ k = flatIndex q l c := by
  have hq : 0 < q := by
    rcases Nat.eq_zero_or_pos q with h | h
    · simp [h] at hk
    · exact h
  refine ⟨k / q, k % q, (Nat.div_lt_iff_lt_mul hq).2 hk, Nat.mod_lt _ hq, ?_⟩
  unfold flatIndex
  rw [Nat.mul_comm]
  exact (Nat.div_add_mod k q).symm

/-- The relative position is inside a nonempty area (R237, R242 (b)). -/
theorem relativePosition_lt {A : Nat} (h : 1 ≤ A) (J1 : Nat) : relativePosition A J1 < A := by
  unfold relativePosition
  omega

/-- The reference lane is a lane (R234). -/
theorem referenceLane_lt {p pass slice lane : Nat} (hl : lane < p) (J : Word) :
    referenceLane p pass slice lane J < p := by
  unfold referenceLane
  split
  · exact hl
  · exact Nat.mod_lt _ (by omega)

/-- The reference column is a column (R238). -/
theorem reference_col_lt {p q seg pass slice lane i : Nat} (hq : 0 < q) (J : Word) :
    (reference p q seg pass slice lane i J).col < q := Nat.mod_lt _ hq

/-- The area is never empty at a position the filler visits (R242 (a)). -/
theorem areaSize_pos {q seg pass slice i : Nat} {same : Bool} (hseg : 2 ≤ seg) (hq : q = 4 * seg) (hs : slice < 4)
    (hi : startIndex pass slice ≤ i) : 1 ≤ areaSize q seg pass slice i same := by
  unfold areaSize
  unfold startIndex at hi
  by_cases hp : pass = 0
  · simp only [hp, if_true, true_and] at hi ⊢
    by_cases h0 : slice = 0
    · simp only [h0, if_true] at hi ⊢
      omega
    · simp only [h0, if_false] at hi ⊢
      interval_cases slice <;> (split <;> first | omega | (split <;> omega))
  · simp only [hp, if_false] at hi ⊢
    cases same <;> simp <;> (try split) <;> omega

/-- In pass 0 every reference lies in the blocks already computed: in the current lane below the previous block,
in another lane below the current slice (R235, R242 (f)). -/
theorem reference_pass0 {p q seg slice lane i : Nat} (hseg : 2 ≤ seg) (hq : q = 4 * seg) (hs : slice < 4)
    (hi : startIndex 0 slice ≤ i) (hi' : i < seg) (J : Word) :
    let r := reference p q seg 0 slice lane i J
    (r.lane = lane → r.col + 1 < slice * seg + i) ∧ (r.lane ≠ lane → r.col < slice * seg) := by
  have hpos := fun same => areaSize_pos (same := same) hseg hq hs hi
  simp only [reference, areaStart, if_true, Nat.zero_add]
  have hforced : slice = 0 → referenceLane p 0 slice lane J = lane := fun h => by simp [referenceLane, h]
  generalize referenceLane p 0 slice lane J = rl at hforced
  have hrel := relativePosition_lt (hpos (rl == lane)) (lo32 J).toNat
  generalize relativePosition (areaSize q seg 0 slice i (rl == lane)) (lo32 J).toNat = rel at hrel
  have hA : areaSize q seg 0 slice i (rl == lane) ≤ q := by
    unfold areaSize
    simp only [if_true]
    interval_cases slice <;> simp <;> (try split) <;> (try split) <;> omega
  rw [Nat.mod_eq_of_lt (by omega)]
  unfold startIndex at hi
  unfold areaSize at hrel
  simp only [if_true] at hrel
  constructor
  · rintro rfl
    simp only [beq_self_eq_true, if_true] at hrel
    interval_cases slice <;> simp at hrel hi ⊢ <;> omega
  · intro hne
    have hb : (rl == lane) = false := by simpa using hne
    simp only [hb, Bool.false_eq_true, if_false] at hrel
    by_cases h0 : slice = 0
    · exact absurd (hforced h0) hne
    · interval_cases slice <;> simp at hrel ⊢ <;> (try split at hrel) <;> omega

/-- From pass 1 on, a reference in another lane lies outside the current slice; one in the current lane lies below the
previous block, or from the next slice on (R235, R236, R242). -/
theorem reference_later {p q seg pass slice lane i : Nat} (hp : pass ≠ 0) (hseg : 2 ≤ seg) (hq : q = 4 * seg)
    (hs : slice < 4) (hi' : i < seg) (J : Word) :
    let r := reference p q seg pass slice lane i J
    (r.lane ≠ lane → r.col < slice * seg ∨ slice * seg + seg ≤ r.col) ∧
      (r.lane = lane → r.col + 1 < slice * seg + i ∨
        slice * seg + seg ≤ r.col ∧ (slice = 0 → i = 0 → r.col + 1 < q)) := by
  have hpos := fun same => areaSize_pos (pass := pass) (slice := slice) (i := i) (same := same) hseg hq hs
    (by simp [startIndex, hp])
  simp only [reference, areaStart, hp, if_false]
  generalize referenceLane p pass slice lane J = rl
  have hrel := relativePosition_lt (hpos (rl == lane)) (lo32 J).toNat
  generalize relativePosition (areaSize q seg pass slice i (rl == lane)) (lo32 J).toNat = rel at hrel
  unfold areaSize at hrel
  simp only [hp, if_false] at hrel
  have hmod : ∀ x, x < 2 * q → x % q = if x < q then x else x - q := by
    intro x hx
    split
    · next h => exact Nat.mod_eq_of_lt h
    · next h => rw [Nat.mod_eq_sub_mod (by omega), Nat.mod_eq_of_lt (by omega)]
  by_cases hsame : rl = lane
  · simp only [hsame, beq_self_eq_true, if_true] at hrel ⊢
    rw [hmod _ (by interval_cases slice <;> simp <;> omega)]
    interval_cases slice <;> simp <;> split <;> omega
  · have hb : (rl == lane) = false := by simpa using hsame
    simp only [hb, Bool.false_eq_true, if_false] at hrel ⊢
    rw [hmod _ (by interval_cases slice <;> simp <;> (try split at hrel) <;> omega)]
    refine ⟨fun _ => ?_, fun h => absurd h hsame⟩
    interval_cases slice <;> simp <;> split <;> (try split at hrel) <;> omega

end Sys2Proof.Machine
end

