-- ==== Sys2Proof/Laws/Filler.lean ====
section
/-! SUPPORT. What filling does: the one lemma that says everything one block computation can do, the frame of every
fill, properties carried through all loops, and when a fill answers. -/

namespace Sys2Proof.Machine

/-! ### The frame: a fill writes the matrix and the working blocks and nothing else -/

/-- t is s but for the matrix and the working blocks. -/
def FillFrame (s t : State) : Prop := t = { s with mtx := t.mtx, wb := t.wb }

theorem FillFrame.refl (s : State) : FillFrame s s := rfl

theorem FillFrame.trans {s t u : State} (h1 : FillFrame s t) (h2 : FillFrame t u) : FillFrame s u := by
  unfold FillFrame at *
  rw [h2, h1]

theorem FillFrame.writeMtx (s : State) (k : Nat) (B : Block) : FillFrame s (s.writeMtx k B) := rfl

theorem FillFrame.writeWb (s : State) (r : WbReg) (B : Block) : FillFrame s (s.writeWb r B) := rfl

theorem FillFrame.params {s t : State} (h : FillFrame s t) : t.params = s.params := by rw [h]
theorem FillFrame.geom {s t : State} (h : FillFrame s t) : t.geom = s.geom := by rw [h]
theorem FillFrame.caps {s t : State} (h : FillFrame s t) : t.caps = s.caps := by rw [h]
theorem FillFrame.lanes {s t : State} (h : FillFrame s t) : t.lanes = s.lanes := by rw [h]; rfl
theorem FillFrame.iter {s t : State} (h : FillFrame s t) : t.iter = s.iter := by rw [h]; rfl
theorem FillFrame.segLen {s t : State} (h : FillFrame s t) : t.segLen = s.segLen := by rw [h]; rfl
theorem FillFrame.laneLen {s t : State} (h : FillFrame s t) : t.laneLen = s.laneLen := by rw [h]; rfl
theorem FillFrame.memBlocks {s t : State} (h : FillFrame s t) : t.memBlocks = s.memBlocks := by rw [h]; rfl

theorem FillFrame.dataIndependent {s t : State} (h : FillFrame s t) (pass slice : Nat) :
    t.dataIndependent pass slice = s.dataIndependent pass slice := by rw [h]; rfl

theorem FillFrame.xorPolicy {s t : State} (h : FillFrame s t) (pass : Nat) :
    t.xorPolicy pass = s.xorPolicy pass := by rw [h]; rfl

theorem FillFrame.referenceOf {s t : State} (h : FillFrame s t) (pass slice lane i : Nat) (J : Word) :
    t.referenceOf pass slice lane i J = s.referenceOf pass slice lane i J := by rw [h]; rfl

theorem FillFrame.geomNumbers {s t : State} (h : FillFrame s t) (hg : s.Geom) : t.Geom :=
  hg.congr h.params h.geom h.caps

/-! ### One generation and one block -/

/-- The regeneration step: one generation, or nothing (R240). It touches AIN and ABLK only. -/
theorem State.regenerate_frame (s : State) (pass slice i : Nat) :
    FillFrame s (s.regenerate pass slice i) ∧ (s.regenerate pass slice i).mtx = s.mtx ∧
      (s.dataIndependent pass slice = false → s.regenerate pass slice i = s) := by
  unfold State.regenerate
  split
  · next hc =>
    simp only [Bool.and_eq_true] at hc
    exact ⟨rfl, rfl, fun hf => by simp [hc.1] at hf⟩
  · exact ⟨rfl, rfl, fun _ => rfl⟩

/-- The block a position computes, from the blocks read (R241, R243). -/
def State.newBlock (s : State) (pass : Nat) (X Y D : Block) : Block :=
  if s.xorPolicy pass then compressFx X Y D else compressF X Y

/-- Everything one block computation can do (R241): the regeneration step, then J, then the previous and the
reference block are read, and the current block is written (after its old contents are read, under the XOR
policy). -/
theorem State.fillBlock_eq_ok {s t : State} {pass slice lane i : Nat} :
    s.fillBlock pass slice lane i = .ok t ↔
      ∃ J X Y D, (s.regenerate pass slice i).pseudoRandom pass slice lane i = .ok J ∧
        s.mtx.read (flatIndex s.laneLen lane (previousColumn s.laneLen s.segLen slice i)) = some X ∧
        s.mtx.read (s.referenceOf pass slice lane i J).flat = some Y ∧
        (s.xorPolicy pass = true →
          s.mtx.read (flatIndex s.laneLen lane (currentColumn s.segLen slice i)) = some D) ∧
        t = (s.regenerate pass slice i).writeMtx (flatIndex s.laneLen lane (currentColumn s.segLen slice i))
          (s.newBlock pass X Y D) := by
  obtain ⟨hf, hm, -⟩ := s.regenerate_frame pass slice i
  unfold State.fillBlock
  simp only [bind_eq_ok, State.readMtx_eq_ok, hf.laneLen, hf.segLen, hf.referenceOf, hf.xorPolicy, hm]
  constructor
  · rintro ⟨J, hJ, X, hX, Y, hY, h⟩
    by_cases hx : s.xorPolicy pass = true
    · rw [if_pos hx] at h
      simp only [bind_eq_ok, State.readMtx_eq_ok, pure_eq_ok, hm] at h
      obtain ⟨D, hD, rfl⟩ := h
      exact ⟨J, X, Y, D, hJ, hX, hY, fun _ => hD, by simp [State.newBlock, hx]⟩
    · rw [if_neg hx, pure_eq_ok] at h
      exact ⟨J, X, Y, X, hJ, hX, hY, fun h' => absurd h' hx, by simp [State.newBlock, hx, h]⟩
  · rintro ⟨J, X, Y, D, hJ, hX, hY, hD, rfl⟩
    refine ⟨J, hJ, X, hX, Y, hY, ?_⟩
    by_cases hx : s.xorPolicy pass = true
    · rw [if_pos hx]
      simp only [bind_eq_ok, State.readMtx_eq_ok, pure_eq_ok, hm]
      exact ⟨D, hD hx, by simp [State.newBlock, hx]⟩
    · rw [if_neg hx, pure_eq_ok]
      simp [State.newBlock, hx]

/-- One block computation writes one matrix block and, at most, AIN and ABLK. -/
theorem State.fillBlock_frame {s t : State} {pass slice lane i : Nat} (h : s.fillBlock pass slice lane i = .ok t) :
    FillFrame s t ∧ (∃ B, t.mtx = s.mtx.write (flatIndex s.laneLen lane (currentColumn s.segLen slice i)) B) ∧
      (s.dataIndependent pass slice = false → t.wb = s.wb) := by
  obtain ⟨J, X, Y, D, -, -, -, -, rfl⟩ := State.fillBlock_eq_ok.1 h
  obtain ⟨hf, hm, hd⟩ := s.regenerate_frame pass slice i
  refine ⟨hf.trans (FillFrame.writeMtx ..), ⟨_, by rw [State.writeMtx_mtx, hm]⟩, fun hdi => ?_⟩
  rw [State.writeMtx_wb, hd hdi]

theorem State.enterSegment_frame (s : State) (pass slice lane : Nat) :
    FillFrame s (s.enterSegment pass slice lane) ∧ (s.enterSegment pass slice lane).mtx = s.mtx ∧
      (s.dataIndependent pass slice = false → s.enterSegment pass slice lane = s) := by
  unfold State.enterSegment State.seedAddress
  split
  · next h => exact ⟨FillFrame.writeWb .., State.writeWb_mtx .., fun hf => by simp [h] at hf⟩
  · exact ⟨rfl, rfl, fun _ => rfl⟩

/-! ### A property carried through every fill

Q relates the state a fill started from and the state it has reached. It is kept by the loops when every block
computation at a legal position, and the seeding of AIN at the start of a segment, keep it. -/

/-- Q is kept by every block computation and every segment entry of a fill of pass `pass`. -/
structure FillKeeps (pass : Nat) (Q : State → Prop) : Prop where
  block : ∀ s t slice lane i, Q s → slice < 4 → lane < s.lanes → startIndex pass slice ≤ i → i < s.segLen →
    s.fillBlock pass slice lane i = .ok t → Q t
  enter : ∀ s slice lane, Q s → slice < 4 → lane < s.lanes → Q (s.enterSegment pass slice lane)

theorem State.fillSegment_keeps {pass slice lane : Nat} {Q : State → Prop} (hQ : FillKeeps pass Q) {s t : State}
    (hs : slice < 4) (hl : lane < s.lanes) (h0 : Q s) (h : s.fillSegment pass slice lane = .ok t) :
    Q t ∧ FillFrame s t := by
  unfold State.fillSegment at h
  have he := s.enterSegment_frame pass slice lane
  refine forRange_invariant (P := fun _ u => Q u ∧ FillFrame s u) ?_ ⟨hQ.enter s slice lane h0 hs hl, he.1⟩ h
  rintro i u u' h1 h2 ⟨hq, hf⟩ hb
  have hseg : u.segLen = s.segLen := hf.segLen
  refine ⟨hQ.block u u' slice lane i hq hs ?_ h1 ?_ hb, hf.trans (State.fillBlock_frame hb).1⟩
  · rw [hf.lanes]
    exact hl
  · rw [hseg]
    omega

theorem State.fillSlice_keeps {pass slice : Nat} {Q : State → Prop} (hQ : FillKeeps pass Q) {s t : State}
    (hs : slice < 4) (h0 : Q s) (h : s.fillSlice pass slice = .ok t) : Q t ∧ FillFrame s t := by
  unfold State.fillSlice at h
  refine forRange_invariant (P := fun _ u => Q u ∧ FillFrame s u) ?_ ⟨h0, rfl⟩ h
  rintro lane u u' - h2 ⟨hq, hf⟩ hb
  have := State.fillSegment_keeps hQ hs (by rw [hf.lanes]; omega) hq hb
  exact ⟨this.1, hf.trans this.2⟩

theorem State.fillPass_keeps {pass : Nat} {Q : State → Prop} (hQ : FillKeeps pass Q) {s t : State}
    (h0 : Q s) (h : s.fillPass pass = .ok t) : Q t ∧ FillFrame s t := by
  unfold State.fillPass at h
  refine forRange_invariant (P := fun _ u => Q u ∧ FillFrame s u) ?_ ⟨h0, rfl⟩ h
  rintro slice u u' - h2 ⟨hq, hf⟩ hb
  have := State.fillSlice_keeps hQ (by simpa [Config.syncPoints] using h2) hq hb
  exact ⟨this.1, hf.trans this.2⟩

theorem State.fillMatrix_keeps {Q : State → Prop} (hQ : ∀ pass, FillKeeps pass Q) {s t : State}
    (h0 : Q s) (h : s.fillMatrix = .ok t) : Q t ∧ FillFrame s t := by
  unfold State.fillMatrix at h
  refine forRange_invariant (P := fun _ u => Q u ∧ FillFrame s u) ?_ ⟨h0, rfl⟩ h
  rintro pass u u' - - ⟨hq, hf⟩ hb
  have := State.fillPass_keeps (hQ pass) hq hb
  exact ⟨this.1, hf.trans this.2⟩

/-- The column a legal position computes is a column of its lane (R232). -/
theorem currentColumn_lt {s : State} (hg : s.Geom) {slice i : Nat} (hs : slice < 4) (hi : i < s.segLen) :
    currentColumn s.segLen slice i < s.laneLen := by
  unfold currentColumn
  have := hg.laneLen_eq
  interval_cases slice <;> omega

theorem previousColumn_lt {s : State} (hg : s.Geom) {slice i : Nat} (hs : slice < 4) (hi : i < s.segLen) :
    previousColumn s.laneLen s.segLen slice i < s.laneLen := by
  have h1 := currentColumn_lt hg hs hi
  unfold previousColumn
  have := hg.laneLen_eq
  have := hg.seg_ge
  split <;> omega

/-- The matrix stays canonical and inside the bank through every fill of a validated configuration. -/
theorem fillKeeps_mtx (pass : Nat) :
    FillKeeps pass (fun s => s.Geom ∧ Memory.wf s.mtx ∧ ∀ e ∈ s.mtx, e.1 < s.caps.maxBlocks) where
  block := by
    rintro s t slice lane i ⟨hg, hw, hb⟩ hs hl - hi' h
    obtain ⟨hf, ⟨B, hB⟩, -⟩ := State.fillBlock_frame h
    refine ⟨hf.geomNumbers hg, ?_, ?_⟩
    · rw [hB]
      exact Memory.wf_write hw _ _
    · rw [hB, hf.caps]
      refine Memory.below_write hb ?_ _
      have h1 := flatIndex_lt hl (currentColumn_lt hg hs hi')
      have h2 := hg.memBlocks_eq
      have h3 := hg.memBlocks_le
      omega
  enter := by
    rintro s slice lane ⟨hg, hw, hb⟩ - -
    obtain ⟨hf, hm, -⟩ := s.enterSegment_frame pass slice lane
    exact ⟨hf.geomNumbers hg, hm ▸ hw, by rw [hm, hf.caps]; exact hb⟩

/-! ### When a fill answers -/

/-- What is specified when the filler reaches index i of segment (pass, slice, lane): in pass 0 the seed columns,
the earlier slices, the lanes of this slice already done and this segment below i; later, every block. -/
def State.filledTo (s : State) (pass slice lane i : Nat) : Prop :=
  ∀ l c, l < s.lanes → c < s.laneLen →
    (0 < pass ∨ c < 2 ∨ c < slice * s.segLen ∨ (l < lane ∧ c < (slice + 1) * s.segLen) ∨
      (l = lane ∧ c < slice * s.segLen + i)) →
    (s.mtx.read (flatIndex s.laneLen l c)).isSome = true

/-- One block computation answers, from the state the filler reaches it in. -/
theorem State.fillBlock_total {s : State} {pass slice lane i : Nat} (hg : s.Geom) (hw : Memory.wf s.mtx)
    (hs : slice < 4) (hl : lane < s.lanes) (hi : startIndex pass slice ≤ i) (hi' : i < s.segLen)
    (hf : s.filledTo pass slice lane i) :
    ∃ t, s.fillBlock pass slice lane i = .ok t ∧ FillFrame s t ∧ Memory.wf t.mtx ∧
      t.filledTo pass slice lane (i + 1) := by
  obtain ⟨huf, hum, -⟩ := s.regenerate_frame pass slice i
  have hq := hg.laneLen_eq
  have hseg := hg.seg_ge
  have hcur := currentColumn_lt hg hs hi'
  have hprevlt := previousColumn_lt hg hs hi'
  have hprev : (s.mtx.read (flatIndex s.laneLen lane (previousColumn s.laneLen s.segLen slice i))).isSome = true := by
    refine hf lane _ hl hprevlt ?_
    rcases Nat.eq_zero_or_pos pass with hp | hp
    · right; right; right; right
      refine ⟨rfl, ?_⟩
      unfold previousColumn currentColumn
      unfold startIndex at hi
      by_cases h0 : slice = 0
      · subst h0
        simp only [hp, and_self, if_true] at hi
        simp only [Nat.zero_mul, Nat.zero_add]
        split <;> omega
      · have : 0 < slice * s.segLen + i := by
          interval_cases slice <;> omega
        rw [if_pos this]
        omega
    · exact Or.inl hp
  obtain ⟨X, hX⟩ := Option.isSome_iff_exists.1 hprev
  have hJ : ∃ J, (s.regenerate pass slice i).pseudoRandom pass slice lane i = .ok J := by
    unfold State.pseudoRandom
    rw [huf.dataIndependent, huf.laneLen, huf.segLen]
    split
    · exact ⟨_, rfl⟩
    · exact ⟨wordOf X 0, by simp only [bind_eq_ok, State.readMtx_eq_ok, pure_eq_ok, hum]; exact ⟨X, hX, rfl⟩⟩
  obtain ⟨J, hJ⟩ := hJ
  have href : (s.mtx.read (s.referenceOf pass slice lane i J).flat).isSome = true := by
    have hcol : (s.referenceOf pass slice lane i J).col < s.laneLen := reference_col_lt (by omega) J
    have hlane : (s.referenceOf pass slice lane i J).lane < s.lanes := referenceLane_lt hl J
    refine hf _ _ hlane hcol ?_
    rcases Nat.eq_zero_or_pos pass with hp | hp
    · subst hp
      obtain ⟨h1, h2⟩ := reference_pass0 (p := s.lanes) (lane := lane) hseg hq hs hi hi' J
      by_cases he : (s.referenceOf 0 slice lane i J).lane = lane
      · have h3 := h1 he
        right; right; right; right
        exact ⟨he, Nat.lt_of_succ_lt h3⟩
      · exact Or.inr (Or.inr (Or.inl (h2 he)))
    · exact Or.inl hp
  obtain ⟨Y, hY⟩ := Option.isSome_iff_exists.1 href
  have hD : ∃ D, s.xorPolicy pass = true →
      s.mtx.read (flatIndex s.laneLen lane (currentColumn s.segLen slice i)) = some D := by
    by_cases hx : s.xorPolicy pass = true
    · have hp : 0 < pass := by
        simp only [State.xorPolicy, Bool.and_eq_true, decide_eq_true_eq] at hx
        exact hx.1
      obtain ⟨D, hD⟩ := Option.isSome_iff_exists.1 (hf lane _ hl hcur (Or.inl hp))
      exact ⟨D, fun _ => hD⟩
    · exact ⟨X, fun h => absurd h hx⟩
  obtain ⟨D, hD⟩ := hD
  refine ⟨_, State.fillBlock_eq_ok.2 ⟨J, X, Y, D, hJ, hX, hY, hD, rfl⟩,
    huf.trans (FillFrame.writeMtx ..), ?_, ?_⟩
  · rw [State.writeMtx_mtx, hum]
    exact Memory.wf_write hw _ _
  · intro l c hl' hc' hcase
    simp only [State.writeMtx_mtx, State.writeMtx_laneLen, State.writeMtx_segLen, State.writeMtx_lanes,
      huf.laneLen, huf.segLen, huf.lanes, hum] at hl' hc' hcase ⊢
    rw [Memory.read_write hw]
    split
    · rfl
    · next hne =>
      refine hf l c hl' hc' ?_
      rcases hcase with h | h | h | h | ⟨h1, h2⟩
      · exact Or.inl h
      · exact Or.inr (Or.inl h)
      · exact Or.inr (Or.inr (Or.inl h))
      · exact Or.inr (Or.inr (Or.inr (Or.inl h)))
      · right; right; right; right
        refine ⟨h1, ?_⟩
        subst h1
        have : c ≠ currentColumn s.segLen slice i := fun h => hne (by rw [h])
        unfold currentColumn at this
        omega

/-- A segment fill answers, from the state the filler reaches it in. -/
theorem State.fillSegment_total {s : State} {pass slice lane : Nat} (hg : s.Geom) (hw : Memory.wf s.mtx)
    (hs : slice < 4) (hl : lane < s.lanes) (hf : s.filledTo pass slice lane 0) :
    ∃ t, s.fillSegment pass slice lane = .ok t ∧ FillFrame s t ∧ Memory.wf t.mtx ∧
      t.filledTo pass slice (lane + 1) 0 := by
  obtain ⟨hef, hem, -⟩ := s.enterSegment_frame pass slice lane
  have hseg := hg.seg_ge
  have hstart : startIndex pass slice ≤ s.segLen := by
    unfold startIndex
    split <;> omega
  have key := forRange_total (a := startIndex pass slice) (n := s.segLen - startIndex pass slice)
    (s := s.enterSegment pass slice lane) (body := fun i s => s.fillBlock pass slice lane i)
    (P := fun i u => FillFrame s u ∧ Memory.wf u.mtx ∧ u.filledTo pass slice lane i)
    (fun i u h1 h2 hP => by
      obtain ⟨huf, huw, hufill⟩ := hP
      obtain ⟨v, hv, hvf, hvw, hvfill⟩ := State.fillBlock_total (huf.geomNumbers hg) huw hs
        (by rw [huf.lanes]; exact hl) h1 (by rw [huf.segLen]; omega) hufill
      exact ⟨v, hv, huf.trans hvf, hvw, hvfill⟩)
    (by
      refine ⟨hef, by rw [hem]; exact hw, ?_⟩
      · intro l c hl' hc' hcase
        simp only [hem, hef.lanes, hef.laneLen, hef.segLen] at hl' hc' hcase ⊢
        refine hf l c hl' hc' ?_
        rcases hcase with h | h | h | h | ⟨h1, h2⟩
        · exact Or.inl h
        · exact Or.inr (Or.inl h)
        · exact Or.inr (Or.inr (Or.inl h))
        · exact Or.inr (Or.inr (Or.inr (Or.inl h)))
        · unfold startIndex at h2
          split at h2
          · next h0 =>
            rw [h0.2] at h2
            exact Or.inr (Or.inl (by omega))
          · exact Or.inr (Or.inr (Or.inl (by omega))))
  obtain ⟨t, ht, htf, htw, htfill⟩ := key
  refine ⟨t, ht, htf, htw, ?_⟩
  intro l c hl' hc' hcase
  refine htfill l c hl' hc' ?_
  rw [htf.segLen] at hcase ⊢
  rcases hcase with h | h | h | ⟨h1, h2⟩ | ⟨-, h2⟩
  · exact Or.inl h
  · exact Or.inr (Or.inl h)
  · exact Or.inr (Or.inr (Or.inl h))
  · rcases Nat.lt_succ_iff_lt_or_eq.1 h1 with h | h
    · exact Or.inr (Or.inr (Or.inr (Or.inl ⟨h, h2⟩)))
    · right; right; right; right
      refine ⟨h, ?_⟩
      rw [Nat.add_mul, Nat.one_mul] at h2
      omega
  · exact Or.inr (Or.inr (Or.inl (by omega)))

theorem State.fillSlice_total {s : State} {pass slice : Nat} (hg : s.Geom) (hw : Memory.wf s.mtx)
    (hs : slice < 4) (hf : s.filledTo pass slice 0 0) :
    ∃ t, s.fillSlice pass slice = .ok t ∧ FillFrame s t ∧ Memory.wf t.mtx ∧ t.filledTo pass (slice + 1) 0 0 := by
  have key := forRange_total (a := 0) (n := s.lanes) (s := s)
    (body := fun lane s => s.fillSegment pass slice lane)
    (P := fun lane u => FillFrame s u ∧ Memory.wf u.mtx ∧ u.filledTo pass slice lane 0)
    (fun lane u _ h2 hP => by
      obtain ⟨huf, huw, hufill⟩ := hP
      obtain ⟨v, hv, hvf, hvw, hvfill⟩ := State.fillSegment_total (huf.geomNumbers hg) huw hs
        (by rw [huf.lanes]; omega) hufill
      exact ⟨v, hv, huf.trans hvf, hvw, hvfill⟩)
    ⟨rfl, hw, hf⟩
  obtain ⟨t, ht, htf, htw, htfill⟩ := key
  refine ⟨t, ht, htf, htw, ?_⟩
  intro l c hl' hc' hcase
  refine htfill l c hl' hc' ?_
  rcases hcase with h | h | h | ⟨h1, -⟩ | ⟨h1, h2⟩
  · exact Or.inl h
  · exact Or.inr (Or.inl h)
  · right; right; right; left
    refine ⟨?_, h⟩
    rw [htf.lanes] at hl'
    omega
  · omega
  · right; right; right; left
    refine ⟨?_, by omega⟩
    rw [htf.lanes] at hl'
    omega

theorem State.fillPass_total {s : State} {pass : Nat} (hg : s.Geom) (hw : Memory.wf s.mtx)
    (hf : s.filledTo pass 0 0 0) :
    ∃ t, s.fillPass pass = .ok t ∧ FillFrame s t ∧ Memory.wf t.mtx ∧ t.filledTo (pass + 1) 0 0 0 := by
  have key := forRange_total (a := 0) (n := Config.syncPoints) (s := s)
    (body := fun slice s => s.fillSlice pass slice)
    (P := fun slice u => FillFrame s u ∧ Memory.wf u.mtx ∧ u.filledTo pass slice 0 0)
    (fun slice u _ h2 hP => by
      obtain ⟨huf, huw, hufill⟩ := hP
      obtain ⟨v, hv, hvf, hvw, hvfill⟩ := State.fillSlice_total (huf.geomNumbers hg) huw
        (by simpa [Config.syncPoints] using h2) hufill
      exact ⟨v, hv, huf.trans hvf, hvw, hvfill⟩)
    ⟨rfl, hw, hf⟩
  obtain ⟨t, ht, htf, htw, htfill⟩ := key
  refine ⟨t, ht, htf, htw, ?_⟩
  intro l c hl' hc' _
  refine htfill l c hl' hc' (Or.inr (Or.inr (Or.inl ?_)))
  have := (htf.geomNumbers hg).laneLen_eq
  simp only [Config.syncPoints]
  omega

/-- The whole filler answers from a seeded matrix, and leaves every block of it specified (R247). -/
theorem State.fillMatrix_total {s : State} (hg : s.Geom) (hw : Memory.wf s.mtx) (hf : s.seeded) :
    ∃ t, s.fillMatrix = .ok t ∧ FillFrame s t ∧ Memory.wf t.mtx ∧ t.matrixSpecified := by
  have key := forRange_total (a := 0) (n := s.iter) (s := s) (body := fun pass s => s.fillPass pass)
    (P := fun pass u => FillFrame s u ∧ Memory.wf u.mtx ∧ u.filledTo pass 0 0 0)
    (fun pass u _ _ hP => by
      obtain ⟨huf, huw, hufill⟩ := hP
      obtain ⟨v, hv, hvf, hvw, hvfill⟩ := State.fillPass_total (huf.geomNumbers hg) huw hufill
      exact ⟨v, hv, huf.trans hvf, hvw, hvfill⟩)
    (by
      refine ⟨rfl, hw, ?_⟩
      intro l c hl' hc' hcase
      have hc2 : c < 2 := by omega
      have := hf l hl'
      interval_cases c
      · exact this.1
      · exact this.2)
  obtain ⟨t, ht, htf, htw, htfill⟩ := key
  refine ⟨t, ht, htf, htw, ?_⟩
  intro k hk
  have htg := htf.geomNumbers hg
  rw [htg.memBlocks_eq] at hk
  obtain ⟨l, c, hl, hc, rfl⟩ := exists_flatIndex hk
  have hi := hg.iter_pos
  exact htfill l c hl hc (Or.inl (by omega))

/-! ### The seed check of FMATRIX, and the address blocks of a segment -/

/-- The seed check answers exactly when the seeds are specified, and changes nothing (R247). -/
theorem State.checkSeeds_eq_ok {s t : State} : s.checkSeeds = .ok t ↔ s.seeded ∧ t = s := by
  constructor
  · intro h
    have := forRange_invariant (P := fun l u => u = s ∧ ∀ lane, lane < l → s.blockSpecified lane 0 ∧ s.blockSpecified lane 1)
      (a := 0) (n := s.lanes) (fun v u u' h1 h2 hP hb => by
        obtain ⟨rfl, hP⟩ := hP
        simp only [bind_eq_ok, State.readMtx_eq_ok, pure_eq_ok] at hb
        obtain ⟨A, hA, B, hB, rfl⟩ := hb
        refine ⟨rfl, fun lane hl => ?_⟩
        rcases Nat.lt_succ_iff_lt_or_eq.1 hl with hl | rfl
        · exact hP lane hl
        · unfold State.blockSpecified; simp [hA, hB]) ⟨rfl, fun _ h => absurd h (Nat.not_lt_zero _)⟩ h
    exact ⟨fun lane hl => this.2 lane (by omega), this.1⟩
  · rintro ⟨h, rfl⟩
    obtain ⟨u, hu, rfl⟩ := forRange_total (P := fun _ u => u = t) (a := 0) (n := t.lanes) (s := t)
      (body := (fun lane s => do
        let _ ← s.readMtx (flatIndex s.laneLen lane 0)
        let _ ← s.readMtx (flatIndex s.laneLen lane 1)
        return s)) (fun v u h1 h2 hu => by
        subst hu
        obtain ⟨ha, hb⟩ := h v (by omega)
        obtain ⟨A, hA⟩ := Option.isSome_iff_exists.1 ha
        obtain ⟨B, hB⟩ := Option.isSome_iff_exists.1 hb
        refine ⟨u, ?_, rfl⟩
        simp only [bind_eq_ok, State.readMtx_eq_ok, pure_eq_ok]
        exact ⟨A, hA, B, hB, trivial⟩) rfl
    exact hu

/-- The input block of a segment after n generations (R210, R211). -/
def State.segmentInput (s : State) (pass slice lane n : Nat) : Block :=
  (inputBlock pass lane slice s.memBlocks s.iter s.type).set 6 (BitVec.ofNat 64 n)

/-- The number of generations before index i of a segment (R240). -/
def generationsBefore (pass slice i : Nat) : Nat := if i ≤ startIndex pass slice then 0 else 1 + (i - 1) / 128

/-- The working blocks of a data-independent segment of s before index i (R240). -/
def State.addressWb (s : State) (pass slice lane i : Nat) : Working :=
  let n := generationsBefore pass slice i
  { s.wb with
    ain := .written (s.segmentInput pass slice lane n)
    ablk := if n = 0 then s.wb.ablk else .written (addressBlock (s.segmentInput pass slice lane n)) }

/-- Each generation adds 1 to word 6 (R211). -/
theorem bumpCounter_segmentInput (s : State) (pass slice lane n : Nat) :
    bumpCounter (s.segmentInput pass slice lane n) = s.segmentInput pass slice lane (n + 1) := by
  unfold bumpCounter State.segmentInput
  apply Vector.ext
  intro k hk
  simp only [Vector.getElem_set]
  split <;> simp [BitVec.ofNat_add, *]

theorem generationsBefore_succ {pass slice i : Nat} (hi : startIndex pass slice ≤ i) :
    generationsBefore pass slice (i + 1) = 1 + i / 128 := by
  unfold generationsBefore; rw [if_neg (by omega)]; rfl

/-- The generation step before index i (R240). -/
theorem regenerate_addressWb {s u : State} {pass slice lane i : Nat} (hd : s.dataIndependent pass slice = true)
    (hf : FillFrame s u) (hw : u.wb = s.addressWb pass slice lane i) (hi : startIndex pass slice ≤ i) :
    (u.regenerate pass slice i).wb = s.addressWb pass slice lane (i + 1) := by
  have hs2 : startIndex pass slice = 0 ∨ startIndex pass slice = 2 := by unfold startIndex; split <;> simp
  have hn1 := generationsBefore_succ hi
  unfold State.regenerate
  rw [hf.dataIndependent, hd]
  simp only [Bool.true_and, Bool.or_eq_true, beq_iff_eq, Config.addressesInBlock]
  split
  · next hc =>
    have hn : generationsBefore pass slice (i + 1) = generationsBefore pass slice i + 1 := by
      rw [hn1]; unfold generationsBefore; split <;> omega
    have hA : u.readWb .ain = s.segmentInput pass slice lane (generationsBefore pass slice i) := by
      simp only [State.readWb, Working.held, hw, State.addressWb, Held.written]
    simp only [State.generate, hA, State.writeWb, Working.set, hw, State.addressWb, bumpCounter_segmentInput, hn]
    rw [if_neg (by omega)]
  · next hc =>
    have hn : generationsBefore pass slice (i + 1) = generationsBefore pass slice i := by
      rw [hn1]; unfold generationsBefore; rw [if_neg (by omega)]; omega
    rw [hw]; simp only [State.addressWb, hn]

/-- ABLK is specified when a data-independent segment reads it at index i, so the read needs no record. -/
theorem regenerate_ablk_specified {s u : State} {pass slice lane i : Nat} (hd : s.dataIndependent pass slice = true)
    (hf : FillFrame s u) (hw : u.wb = s.addressWb pass slice lane i) (hi : startIndex pass slice ≤ i) :
    (u.regenerate pass slice i).wb.ablk.specified = true ∧ u.wb.ain.specified = true := by
  rw [regenerate_addressWb hd hf hw hi, hw]
  refine ⟨?_, rfl⟩
  simp only [State.addressWb, generationsBefore_succ hi]
  rw [if_neg (by omega)]
  rfl

/-- AIN as a data-independent segment seeds it (R240). -/
theorem enterSegment_addressWb {s : State} {pass slice lane : Nat} (hd : s.dataIndependent pass slice = true) :
    (s.enterSegment pass slice lane).wb = s.addressWb pass slice lane (startIndex pass slice) := by
  have h0 : generationsBefore pass slice (startIndex pass slice) = 0 := by simp [generationsBefore]
  have hi : s.segmentInput pass slice lane 0 = inputBlock pass lane slice s.memBlocks s.iter s.type := by
    unfold State.segmentInput inputBlock
    apply Vector.ext
    intro k hk
    simp only [Vector.getElem_set, Vector.getElem_ofFn]
    split
    · next h => subst h; rfl
    · rfl
  simp only [State.enterSegment, hd, if_true, State.seedAddress, State.writeWb, Working.set, State.addressWb, h0, hi]

/-- Before index i of a data-independent segment AIN and ABLK are those of R240. -/
theorem State.beforeIndex_wb {s u : State} {pass slice lane i : Nat} (hi : startIndex pass slice ≤ i)
    (hu : s.beforeIndex pass slice lane i = .ok u) :
    FillFrame s u ∧ (s.dataIndependent pass slice = true → u.wb = s.addressWb pass slice lane i) := by
  have := forRange_invariant (P := fun j u => FillFrame s u ∧
      (s.dataIndependent pass slice = true → u.wb = s.addressWb pass slice lane j))
    (fun v u u' h1 _ hP hb => by
      obtain ⟨hf, hw⟩ := hP
      obtain ⟨J, X, Y, D, -, -, -, -, rfl⟩ := State.fillBlock_eq_ok.1 hb
      exact ⟨(hf.trans (u.regenerate_frame pass slice v).1).trans (FillFrame.writeMtx ..),
        fun hd => (State.writeMtx_wb ..).trans (regenerate_addressWb hd hf (hw hd) h1)⟩)
    ⟨(State.enterSegment_frame s pass slice lane).1, enterSegment_addressWb⟩ hu
  rwa [show startIndex pass slice + (i - startIndex pass slice) = i by omega] at this

/-- J of the block at index i, from its previous block (R233, R240). -/
theorem State.pseudoRandom_eq {s u : State} {pass slice lane i : Nat} {J : Word} {X : Block} (hf : FillFrame s u)
    (hw : s.dataIndependent pass slice = true → u.wb = s.addressWb pass slice lane i) (hi : startIndex pass slice ≤ i)
    (hX : u.mtx.read (flatIndex s.laneLen lane (previousColumn s.laneLen s.segLen slice i)) = some X)
    (hJ : (u.regenerate pass slice i).pseudoRandom pass slice lane i = .ok J) :
    J = if s.dataIndependent pass slice = true
      then wordOf (addressBlock (s.segmentInput pass slice lane (1 + i / 128))) i else wordOf X 0 := by
  obtain ⟨hvf, hm, -⟩ := u.regenerate_frame pass slice i
  unfold State.pseudoRandom at hJ
  rw [(hf.trans hvf).dataIndependent] at hJ
  by_cases hd : s.dataIndependent pass slice = true
  · rw [if_pos hd] at hJ ⊢
    have hv := regenerate_addressWb hd hf (hw hd) hi
    simp only [State.readWb, Working.held, hv, State.addressWb, generationsBefore_succ hi] at hJ
    rw [if_neg (by omega)] at hJ
    exact (Except.ok.inj hJ).symm
  · rw [if_neg hd] at hJ ⊢
    simp only [bind_eq_ok, State.readMtx_eq_ok, pure_eq_ok, hm, (hf.trans hvf).laneLen, (hf.trans hvf).segLen, hX] at hJ
    obtain ⟨B, hB, rfl⟩ := hJ
    rw [Option.some.inj hB]

/-- FSEG on legal operands is the segment's fill (R245). -/
theorem exec_fseg {s : State} (hc : s.cfg = true) (h0 : s.args[0].toNat < s.iter) (h1 : s.args[1].toNat < 4)
    (h2 : s.args[2].toNat < s.lanes) :
    exec .fseg s = finish (s.fillSegment s.args[0].toNat s.args[1].toNat s.args[2].toNat) := by
  show execFseg s = _
  unfold execFseg requireConfigured requireOperands
  rw [if_pos hc, if_pos]
  · rfl
  · simp [State.passOk, State.laneOk, sliceOk, State.argNat, State.arg, h0, h1, h2]

end Sys2Proof.Machine
end

