-- ==== Sys2Proof/Laws/Engine.lean ====
section
/-! SUPPORT. The bodies of H0, SEED and FINAL: what each changes, and when it answers (spec/45_engine.md R282, R288,
R292). -/

namespace Sys2Proof.Machine

/-- The byte range of MSG that a command reads answers exactly when every byte of it is specified. -/
theorem State.readMsg_isOk {s : State} {off n : Nat} : (∃ bs, s.readMsg off n = .ok bs) ↔ s.msgSpecified off n := by
  simp only [State.readMsg_eq_ok, Memory.readRange_isOk, State.msgSpecified]

/-- Everything the H0 body can do (R282). -/
theorem State.deriveH0_eq_ok {s t : State} :
    s.deriveH0 = .ok t ↔ ∃ pwd salt secret ad,
      s.readMsg 0 s.params.pwdLen.toNat = .ok pwd ∧
      s.readMsg s.params.pwdLen.toNat s.params.saltLen.toNat = .ok salt ∧
      s.readMsg (s.params.pwdLen.toNat + s.params.saltLen.toNat) s.params.secretLen.toNat = .ok secret ∧
      s.readMsg (s.params.pwdLen.toNat + s.params.saltLen.toNat + s.params.secretLen.toNat)
        s.params.adLen.toNat = .ok ad ∧
      t = s.writeH0 (Config.blake2bDigest (s.h0Input pwd salt secret ad) 64) := by
  unfold State.deriveH0
  simp only [bind_eq_ok, pure_eq_ok]
  constructor
  · rintro ⟨a, ha, b, hb, c, hc, d, hd, h⟩
    exact ⟨a, b, c, d, ha, hb, hc, hd, h.symm⟩
  · rintro ⟨a, b, c, d, ha, hb, hc, hd, h⟩
    exact ⟨a, ha, b, hb, c, hc, d, hd, h.symm⟩

/-- A seeded lane: its two blocks written, the frame of a fill. -/
theorem State.seedLane_frame (s : State) (h : Vector Byte 64) (lane : Nat) :
    FillFrame s (s.seedLane h lane) ∧ (s.seedLane h lane).wb = s.wb := ⟨rfl, rfl⟩

/-- The SEED body answers, seeds every lane, and leaves every block but columns 0 and 1 alone
(R288). -/
theorem State.seedMatrix_total {s : State} (hw : Memory.wf s.mtx) (hq : 2 ≤ s.laneLen) :
    let h := s.h0.value
    ∃ t, s.seedMatrix = .ok t ∧ FillFrame s t ∧ t.wb = s.wb ∧ Memory.wf t.mtx ∧
      (∀ l, l < s.lanes → t.mtx.read (flatIndex s.laneLen l 0) = some (seedBlock h 0 l) ∧
        t.mtx.read (flatIndex s.laneLen l 1) = some (seedBlock h 1 l)) ∧
      (∀ k, (∀ l, l < s.lanes → k ≠ flatIndex s.laneLen l 0 ∧ k ≠ flatIndex s.laneLen l 1) →
        t.mtx.read k = s.mtx.read k) := by
  intro h
  have key := forRange_total (a := 0) (n := s.lanes) (s := s)
    (body := fun lane s => (.ok (s.seedLane h lane) : Except Fault State))
    (P := fun n u => FillFrame s u ∧ u.wb = s.wb ∧ Memory.wf u.mtx ∧
      (∀ l, l < n → u.mtx.read (flatIndex s.laneLen l 0) = some (seedBlock h 0 l) ∧
        u.mtx.read (flatIndex s.laneLen l 1) = some (seedBlock h 1 l)) ∧
      (∀ k, (∀ l, l < n → k ≠ flatIndex s.laneLen l 0 ∧ k ≠ flatIndex s.laneLen l 1) →
        u.mtx.read k = s.mtx.read k))
    (fun lane u _ _ hP => by
      obtain ⟨hf, hwb, huw, hseed, hrest⟩ := hP
      refine ⟨_, rfl, hf.trans (u.seedLane_frame h lane).1, hwb, ?_, ?_, ?_⟩
      · exact Memory.wf_write (Memory.wf_write huw _ _) _ _
      · intro l hl
        simp only [State.seedLane, State.writeMtx_mtx, hf.laneLen]
        rw [Memory.read_write (Memory.wf_write huw _ _), Memory.read_write huw,
          Memory.read_write (Memory.wf_write huw _ _), Memory.read_write huw]
        by_cases hll : l = lane
        · subst hll
          have h01 : flatIndex s.laneLen l 1 ≠ flatIndex s.laneLen l 0 := fun he => by
            have := (flatIndex_inj (by omega) (by omega) he).2
            omega
          simp [h01]
        · have hne : ∀ c c', c < 2 → c' < 2 → flatIndex s.laneLen lane c ≠ flatIndex s.laneLen l c' :=
            fun c c' hc hc' he => hll (flatIndex_inj (by omega) (by omega) he).1.symm
          have hl' : l < lane := by omega
          rw [if_neg (hne 1 0 (by omega) (by omega)), if_neg (hne 0 0 (by omega) (by omega)),
            if_neg (hne 1 1 (by omega) (by omega)), if_neg (hne 0 1 (by omega) (by omega))]
          exact hseed l hl'
      · intro k hk
        have hk' := hk lane (by omega)
        simp only [State.seedLane, State.writeMtx_mtx, hf.laneLen]
        rw [Memory.read_write (Memory.wf_write huw _ _), Memory.read_write huw, if_neg (Ne.symm hk'.2),
          if_neg (Ne.symm hk'.1)]
        exact hrest k fun l hl => hk l (by omega))
    ⟨rfl, rfl, hw, fun l hl => absurd hl (by omega), fun k _ => rfl⟩
  obtain ⟨t, ht, hf, hwb, htw, hseed, hrest⟩ := key
  refine ⟨t, ht, hf, hwb, htw, ?_, ?_⟩
  · intro l hl
    exact hseed l (by omega)
  · intro k hk
    exact hrest k fun l hl => hk l (by omega)

/-- The XOR of the last column answers when every last block is specified. -/
theorem State.lastColumn_total {s : State} (hp : 1 ≤ s.lanes) (hl : s.lastColumnSpecified) :
    ∃ B, s.lastColumn = .ok B := by
  unfold State.lastColumn
  obtain ⟨B0, hB0⟩ := Option.isSome_iff_exists.1 (hl 0 (by omega))
  have key := forRange_total (a := 1) (n := s.lanes - 1) (s := B0)
    (body := fun lane B => do
      let C ← s.readMtx (flatIndex s.laneLen lane (s.laneLen - 1))
      return xorInto B C)
    (P := fun _ _ => True)
    (fun lane B _ h2 _ => by
      obtain ⟨C, hC⟩ := Option.isSome_iff_exists.1 (hl lane (by omega))
      exact ⟨xorInto B C, bind_eq_ok.2 ⟨C, State.readMtx_eq_ok.2 hC, rfl⟩, trivial⟩)
    trivial
  obtain ⟨B, hB, -⟩ := key
  exact ⟨B, bind_eq_ok.2 ⟨B0, State.readMtx_eq_ok.2 hB0, hB⟩⟩

/-- Everything the FINAL body can do (R292). -/
theorem State.finalize_eq_ok {s t : State} :
    s.finalize = .ok t ↔ ∃ B, s.lastColumn = .ok B ∧
      t = (s.writeWb .fin B).writeObuf 0 (hprime (toBytes B) s.outLen) := by
  unfold State.finalize
  simp only [bind_eq_ok, pure_eq_ok]
  exact exists_congr fun B => and_congr_right fun _ => eq_comm

end Sys2Proof.Machine
end

