-- ==== Sys2Proof/Laws/PerInstr.lean ====
section
/-! SUPPORT. Statements made instruction by instruction: what every command's encoding is (spec/30_encoding.md R110,
R112): a well-formed CMD value whose reserved bits [63:8] are zero. -/

namespace Sys2Proof.Laws.EncodingWellFormed

/-- The CMD value of a command is legal (R111) and has nothing but an opcode in it (R110). -/
def Statement (i : Instr) : Prop :=
  i.wellFormed = true ∧ cmdWellFormed (encode i) = true ∧ cmdReserved (encode i) = 0

theorem nop : Statement .nop := by unfold Statement; decide
theorem config : Statement .config := by unfold Statement; decide
theorem derive : Statement .derive := by unfold Statement; decide
theorem zeroize : Statement .zeroize := by unfold Statement; decide
theorem hprime : Statement .hprime := by unfold Statement; decide
theorem bxor : Statement .bxor := by unfold Statement; decide
theorem bclear : Statement .bclear := by unfold Statement; decide
theorem btobytes : Statement .btobytes := by unfold Statement; decide
theorem bfrombytes : Statement .bfrombytes := by unfold Statement; decide
theorem blamka : Statement .blamka := by unfold Statement; decide
theorem gmix : Statement .gmix := by unfold Statement; decide
theorem pround : Statement .pround := by unfold Statement; decide
theorem fblock : Statement .fblock := by unfold Statement; decide
theorem fblockx : Statement .fblockx := by unfold Statement; decide
theorem ainit : Statement .ainit := by unfold Statement; decide
theorem anext : Statement .anext := by unfold Statement; decide
theorem aword : Statement .aword := by unfold Statement; decide
theorem refindex : Statement .refindex := by unfold Statement; decide
theorem fseg : Statement .fseg := by unfold Statement; decide
theorem fmatrix : Statement .fmatrix := by unfold Statement; decide
theorem h0 : Statement .h0 := by unfold Statement; decide
theorem seed : Statement .seed := by unfold Statement; decide
theorem final : Statement .final := by unfold Statement; decide

end Sys2Proof.Laws.EncodingWellFormed
end

