-- ==== Sys2Proof/Laws/Segments.lean ====
section
/-! SUPPORT. The matrix filler as FSEG commands, one a segment, in the order of spec/44_filler.md R247. -/

namespace Sys2Proof.Machine

/-- u has the matrix, the working blocks and everything a fill reads of s. -/
def FillSame (s u : State) : Prop := u.mtx = s.mtx ∧ u.wb = s.wb ∧ u.params = s.params ∧ u.geom = s.geom

/-- One block computation reads and writes the same of both (R241). -/
theorem State.fillBlock_same {pass slice lane i : Nat} {s s' u : State} (h : FillSame s u)
    (hs : s.fillBlock pass slice lane i = .ok s') : ∃ u', u.fillBlock pass slice lane i = .ok u' ∧ FillSame s' u' := by
  obtain ⟨hm, hw, hp, hg⟩ := h
  obtain ⟨J, X, Y, D, hJ, hX, hY, hD, rfl⟩ := State.fillBlock_eq_ok.1 hs
  have hseg : u.segLen = s.segLen := by simp [State.segLen, hg]
  have hlan : u.laneLen = s.laneLen := by simp [State.laneLen, hg]
  have hl : u.lanes = s.lanes := by simp [State.lanes, hp]
  have hd : u.dataIndependent pass slice = s.dataIndependent pass slice := by
    simp [State.dataIndependent, State.type, hp]
  have hx : u.xorPolicy pass = s.xorPolicy pass := by simp [State.xorPolicy, hp]
  have hn : u.newBlock pass X Y D = s.newBlock pass X Y D := by simp [State.newBlock, hx]
  have hsame : FillSame (s.regenerate pass slice i) (u.regenerate pass slice i) := by
    unfold State.regenerate
    rw [hd]
    split
    · simp [FillSame, State.generate, State.readWb, hm, hw, hp, hg]
    · exact ⟨hm, hw, hp, hg⟩
  have hvf := (s.regenerate_frame pass slice i).1
  have hwf := (u.regenerate_frame pass slice i).1
  refine ⟨(u.regenerate pass slice i).writeMtx (flatIndex s.laneLen lane (currentColumn s.segLen slice i))
    (s.newBlock pass X Y D), ?_, ?_⟩
  · rw [State.fillBlock_eq_ok]
    refine ⟨J, X, Y, D, ?_, ?_, ?_, ?_, ?_⟩
    · unfold State.pseudoRandom at hJ ⊢
      rw [hvf.dataIndependent] at hJ
      rw [hwf.dataIndependent, hd]
      rw [hvf.laneLen, hvf.segLen] at hJ
      rw [hwf.laneLen, hwf.segLen, hlan, hseg]
      simpa only [State.readWb, State.readMtx, hsame.1, hsame.2.1] using hJ
    · rw [hlan, hseg, hm]; exact hX
    · rw [show u.referenceOf pass slice lane i J = s.referenceOf pass slice lane i J by
        simp [State.referenceOf, hl, hlan, hseg], hm]; exact hY
    · rw [hx, hlan, hseg, hm]; exact hD
    · rw [hlan, hseg, hn]
  · exact ⟨by simp [hsame.1], by simp [hsame.2.1], by simp [hsame.2.2.1], by simp [hsame.2.2.2]⟩

/-- One segment's fill reads and writes the same of both (R245). -/
theorem State.fillSegment_same {pass slice lane : Nat} {s s' u : State} (h : FillSame s u)
    (hs : s.fillSegment pass slice lane = .ok s') : ∃ u', u.fillSegment pass slice lane = .ok u' ∧ FillSame s' u' := by
  have hseg : u.segLen = s.segLen := by simp [State.segLen, h.2.2.2]
  unfold State.fillSegment at hs ⊢
  rw [hseg]
  refine forRange_related (R := FillSame) (fun v a a' b _ _ hR hf => State.fillBlock_same hR hf) ?_ hs
  obtain ⟨hm, hw, hp, hg⟩ := h
  have hd : u.dataIndependent pass slice = s.dataIndependent pass slice := by simp [State.dataIndependent, State.type, hp]
  unfold State.enterSegment
  rw [hd]
  split
  · simp [FillSame, State.seedAddress, hm, hw, hp, hg, State.memBlocks, State.iter, State.type]
  · exact ⟨hm, hw, hp, hg⟩

/-- A list of FSEG commands cut in two. -/
theorem runFsegs_append (l m : List (Nat × Nat × Nat)) (s : State) :
    runFsegs (l ++ m) s = match runFsegs l s with | .next t => runFsegs m t | .fault f => .fault f | .refused r => .refused r := by
  induction l generalizing s with
  | nil => rfl
  | cons a l ih =>
    obtain ⟨p, q, r⟩ := a
    simp only [List.cons_append, runFsegs]
    split <;> simp [*]

/-- A loop and the FSEG commands of its indices, related index by index, are related as a whole. -/
theorem runFsegs_flatMap {l : Nat → List (Nat × Nat × Nat)} {n : Nat} {body : Nat → State → Except Fault State} {P : State → Prop}
    (hbody : ∀ v s s' u, v < n → P u → FillSame s u → body v s = .ok s' → ∃ u', runFsegs (l v) u = .next u' ∧ FillSame s' u' ∧ P u')
    {s s' u : State} (hP : P u) (h : FillSame s u) (hs : forRange 0 n body s = .ok s') :
    ∃ u', runFsegs ((List.range n).flatMap l) u = .next u' ∧ FillSame s' u' ∧ P u' := by
  induction n generalizing s' with
  | zero => cases hs; exact ⟨u, rfl, h, hP⟩
  | succ n ih =>
    rw [forRange_add, bind_eq_ok] at hs
    obtain ⟨v, hv, hs⟩ := hs
    rw [forRange_succ, bind_eq_ok] at hs
    obtain ⟨w, hw, hs⟩ := hs
    cases hs
    obtain ⟨u1, hu1, hs1, hP1⟩ := ih (fun v s s' u h => hbody v s s' u (by omega)) hv
    rw [Nat.zero_add] at hw
    obtain ⟨u2, hu2, hs2, hP2⟩ := hbody n v _ u1 (by omega) hP1 hs1 hw
    refine ⟨u2, ?_, hs2, hP2⟩
    rw [List.range_succ, List.flatMap_append, runFsegs_append, hu1]
    simpa using hu2

/-- The fill of the whole matrix leaves the blocks that one FSEG command a segment leaves (R247). -/
theorem State.fillMatrix_runFsegs {s t : State} (hc : s.cfg = true) (ht : s.fillMatrix = .ok t) :
    ∃ u, runFsegs s.segments s = .next u ∧ FillSame t u := by
  have hP : ∀ pass slice lane, pass < s.iter → slice < 4 → lane < s.lanes → ∀ a a' u : State, 
      (u.cfg = true ∧ u.iter = s.iter ∧ u.lanes = s.lanes) → FillSame a u → a.fillSegment pass slice lane = .ok a' →
      ∃ u', runFsegs [(pass, slice, lane)] u = .next u' ∧ FillSame a' u' ∧ (u'.cfg = true ∧ u'.iter = s.iter ∧ u'.lanes = s.lanes) := by
    intro pass slice lane h0 h1 h2 a a' u ⟨huc, hui, hul⟩ hsame hfill
    have hi : s.iter < 2 ^ 32 := s.params.iter.isLt
    have hl : s.lanes < 2 ^ 32 := s.params.lanes.isLt
    let u0 : State := { u with args := ((u.args.set 0 (BitVec.ofNat 64 pass)).set 1 (BitVec.ofNat 64 slice)).set 2 (BitVec.ofNat 64 lane) }
    have e0 : u0.args[0].toNat = pass := by simp [u0]; omega
    have e1 : u0.args[1].toNat = slice := by simp [u0]; omega
    have e2 : u0.args[2].toNat = lane := by simp [u0]; omega
    have hex := exec_fseg (s := u0) huc (by rw [e0]; exact hui ▸ h0) (by rw [e1]; exact h1) (by rw [e2]; exact hul ▸ h2)
    rw [e0, e1, e2] at hex
    obtain ⟨u1, hu1, hs1⟩ := State.fillSegment_same (u := u0) hsame hfill
    rw [hu1, finish_ok] at hex
    have hfr := (State.fillSegment_keeps (Q := fun _ => True) ⟨fun _ _ _ _ _ _ _ _ _ _ _ => trivial, fun _ _ _ _ _ _ => trivial⟩
      h1 (show lane < u0.lanes from hul ▸ h2) trivial hu1).2
    refine ⟨u1.complete, ?_, hs1, ?_, ?_, ?_⟩
    · show (match exec .fseg u0 with | .next t => _ | .fault f => _ | .refused r => _) = _
      rw [hex]; rfl
    · show u1.cfg = true
      rw [hfr]; exact huc
    · exact hfr.iter.trans hui
    · exact hfr.lanes.trans hul
  have hmap : ∀ (n : Nat) (f : Nat → Nat × Nat × Nat), (List.range n).map f = (List.range n).flatMap fun v => [f v] := by
    intro n f; rw [List.map_eq_flatMap]
  obtain ⟨u, hu, hs, -⟩ := runFsegs_flatMap (n := s.iter) (P := fun u => u.cfg = true ∧ u.iter = s.iter ∧ u.lanes = s.lanes)
    (l := fun pass => (List.range 4).flatMap fun slice => (List.range s.lanes).map fun lane => (pass, slice, lane))
    (fun pass a a' u h0 hu hsame ha => by
      refine runFsegs_flatMap (fun slice a a' u h1 hu hsame ha => ?_) hu hsame ha
      rw [hmap]
      have hal : a.lanes = s.lanes := by rw [← hu.2.2]; simp [State.lanes, hsame.2.2.1]
      unfold State.fillSlice at ha
      rw [hal] at ha
      exact runFsegs_flatMap (fun lane a a' u h2 hu hsame ha => hP pass slice lane h0 h1 h2 a a' u hu hsame ha) hu hsame ha)
    ⟨hc, rfl, rfl⟩ ⟨rfl, rfl, rfl, rfl⟩ ht
  exact ⟨u, hu, hs⟩
end Sys2Proof.Machine
end

