-- ==== Sys2Proof/Laws/Vlhash.lean ====
section
/-! SUPPORT. The length and the chunks of the chain of H' (spec/40_vlhash.md R140, R141). -/

namespace Sys2Proof.Machine

theorem hprimeChain_length (more last : Nat) (V : List Byte) (hV : V.length = 64) (hl : last ≤ 64) :
    (hprimeChain more last V).length = 32 * (more + 1) + last := by
  induction more generalizing V with
  | zero => simp [hprimeChain, hV, blake2b_length _ hl]
  | succ n ih => simp [hprimeChain, hV, ih _ (blake2b_length _ (le_refl 64))]; omega

end Sys2Proof.Machine
end

