-- ==== Sys2Proof/Tests/Slice0.lean ====
section
/-! SUPPORT. The model's own tests: the WellFormed smoke tests, a word of every command written out from R112, one step
of every command against a value of spec/95_test_vectors.md, and, for every obligation with hypotheses, a witness
that meets them. -/

open Sys2Proof Sys2Proof.Machine

namespace Sys2Proof.Tests

set_option Elab.async false

/-! ### Ill-formed terms are refused -/

theorem test_wf_reserved_bit : cmdWellFormed 0x100 = false := by decide
theorem test_wf_top_bit : cmdWellFormed 0x8000000000000000 = false := by decide
theorem test_wf_unassigned_opcode : cmdWellFormed 0x35 = false := by decide
theorem test_wf_final : cmdWellFormed 0x62 = true := by decide
theorem test_wf_narrow_access : (HostAccess.read 0x008 4).wellFormed = false := by decide
theorem test_wf_misaligned_access : (HostAccess.write 0x014 8 0).wellFormed = false := by decide
theorem test_wf_access_beyond_window : (HostAccess.read 0x30000 8).wellFormed = false := by decide
theorem test_wf_last_access : (HostAccess.read 0x2FFF8 8).wellFormed = true := by decide
theorem test_wf_too_few_operands : (Stmt.command .bxor [0, 0]).wellFormed = false := by decide
theorem test_wf_too_many_operands : (Stmt.command .nop [0]).wellFormed = false := by decide
theorem test_wf_loadmsg_offset : (Stmt.loadmsg 4 [0]).wellFormed = false := by decide
theorem test_wf_loadmsg_end :
    (Stmt.loadmsg 0xFFF8 (List.replicate 8 0)).wellFormed = true ∧
      (Stmt.loadmsg 0xFFF8 (List.replicate 9 0)).wellFormed = false := by decide +kernel
theorem test_wf_readout_end :
    (Stmt.readout 0xFFF8 8).wellFormed = true ∧ (Stmt.readout 0xFFF8 9).wellFormed = false := by decide +kernel

/-! ### Decoding: OPC in bits [7:0], written out from the opcode map of R112 -/

theorem test_decode_nop : decode 0b00000000 = .command .nop := by decide
theorem test_decode_config : decode 0b00000001 = .command .config := by decide
theorem test_decode_derive : decode 0b00000010 = .command .derive := by decide
theorem test_decode_zeroize : decode 0b00000011 = .command .zeroize := by decide
theorem test_decode_hprime : decode 0b00010000 = .command .hprime := by decide
theorem test_decode_bxor : decode 0b00100000 = .command .bxor := by decide
theorem test_decode_bclear : decode 0b00100001 = .command .bclear := by decide
theorem test_decode_btobytes : decode 0b00100010 = .command .btobytes := by decide
theorem test_decode_bfrombytes : decode 0b00100011 = .command .bfrombytes := by decide
theorem test_decode_blamka : decode 0b00110000 = .command .blamka := by decide
theorem test_decode_gmix : decode 0b00110001 = .command .gmix := by decide
theorem test_decode_pround : decode 0b00110010 = .command .pround := by decide
theorem test_decode_fblock : decode 0b00110011 = .command .fblock := by decide
theorem test_decode_fblockx : decode 0b00110100 = .command .fblockx := by decide
theorem test_decode_ainit : decode 0b01000000 = .command .ainit := by decide
theorem test_decode_anext : decode 0b01000001 = .command .anext := by decide
theorem test_decode_aword : decode 0b01000010 = .command .aword := by decide
theorem test_decode_refindex : decode 0b01010000 = .command .refindex := by decide
theorem test_decode_fseg : decode 0b01010001 = .command .fseg := by decide
theorem test_decode_fmatrix : decode 0b01010010 = .command .fmatrix := by decide
theorem test_decode_h0 : decode 0b01100000 = .command .h0 := by decide
theorem test_decode_seed : decode 0b01100001 = .command .seed := by decide
theorem test_decode_final : decode 0b01100010 = .command .final := by decide
/-- 95_test_vectors.md §3.7: 0x04 and 0x35 are not assigned, 0x100 and 2^32 have a reserved bit set. -/
theorem test_decode_illegal :
    decode 0x04 = .illegal .unassignedOpcode ∧ decode 0x35 = .illegal .unassignedOpcode ∧
      decode 0x100 = .illegal .reservedBits ∧ decode 0x100000000 = .illegal .reservedBits := by decide
theorem test_table_word : decodeTableWord 32 0x52 = some .fmatrix ∧ decodeTableWord 32 0x152 = none := by decide

/-! ### Small states -/

/-- The state after reset with the smallest buffers R8 allows and 64 matrix blocks, given operands and blocks. -/
def small (args : Vector Word 6) (wb : Working := Working.atReset 0) : State :=
  { State.reset with caps := { maxBlocks := 64, msgBytes := 1024, obufBytes := 1024 }, args := args, wb := wb }

/-- The block with w[i] = i of 95_test_vectors.md §3.3. -/
def ramp : Block := Vector.ofFn fun k => BitVec.ofNat 64 k.val

/-- T0 = ramp, every other working block zero. -/
def rampWb : Working := { Working.cleared with t0 := .written ramp }

/-- The parameters y, v = 0x13, t, m, p, OUTLEN = 32 and four empty strings. -/
def someParams (y t m p : Half) : Params :=
  { Params.reset with type := y, version := 0x13, iter := t, memKib := m, lanes := p, outLen := 32 }

/-- A state with these parameters validated and 8 zero blocks per lane, for m = 8 * p. -/
def zeroed (y t p : Half) (args : Vector Word 6) : State :=
  { small args Working.cleared with
    params := someParams y t (8 * p) p, cfg := true, geom := geometryOf (someParams y t (8 * p) p)
    mtx := (List.range (8 * p.toNat)).map fun k => (k, zeroBlock)
    h0 := .written (Vector.replicate 64 0) }

/-- The next state of an outcome. -/
def after : Step → Option State
  | .next s => some s
  | _ => none

/-- STATUS after an outcome. -/
def statusAfter (o : Step) : Option Word := (after o).map State.statusWord

/-- Some words of a block after an outcome. -/
def wordsAfter (o : Step) (r : BlockRef) (ks : List Nat) : Option (List Word) :=
  (after o).bind fun s => (s.holding r).map fun B => ks.map (wordOf B.value)

/-- The fault of an outcome. -/
def faultOf : Step → Option Fault
  | .fault f => some f
  | _ => none

/-! ### One step of every command, against 95_test_vectors.md -/

/-- §3.7: NOP on a reset core gives STATUS = 0x2. -/
theorem test_nop : statusAfter (exec .nop (small (Vector.replicate 6 0))) = some 0x2 := by
  decide +kernel

/-- §3.7: LANES = 3, MEMKIB = 100 gives MEMBLOCKS 96; here CAP_BLOCKS is 64, so 3 and 67 give 60, 20 and 5 (R276). -/
theorem test_config :
    (after (exec .config { small (Vector.replicate 6 0) with params := someParams 0 1 67 3 })).map
      (fun s => (s.statusWord, s.memBlocks, s.laneLen, s.segLen)) = some (0x12, 60, 20, 5) := by
  decide +kernel

/-- §3.7: LANES = 1, MEMKIB = 7, ITER = 0 gives CFG_MEMORY, the first failing row. -/
theorem test_config_order :
    statusAfter (exec .config { small (Vector.replicate 6 0) with params := someParams 0 0 7 1 }) = some 0x1104 := by
  decide +kernel

/-- §3.7: DERIVE with LANES = 0 gives CFG_LANES. -/
theorem test_derive_error :
    statusAfter (exec .derive { small (Vector.replicate 6 0) with params := someParams 0 1 8 0 }) = some 0x1004 := by
  decide +kernel

/-- R119, §3.1: HPRIME with T = 0 fails with BAD_OPERAND. -/
theorem test_hprime_zero_length : statusAfter (exec .hprime (small #v[0, 0, 0, 0, 0, 0])) = some 0x204 := by
  decide +kernel

/-- §3.1: HPRIME 2^64-1, 2, 32 fails with BAD_OPERAND: the sum does not wrap (R118). -/
theorem test_hprime_no_wrap : statusAfter (exec .hprime (small #v[-1, 2, 32, 0, 0, 0])) = some 0x204 := by
  decide +kernel

/-- §3.2 row 3: BXOR T1, T1, T0 with T1 = T0 leaves T1 zero: a destination that is also a source. -/
theorem test_bxor_destination_is_source :
    wordsAfter (exec .bxor (small #v[0x8000000000000005, 0x8000000000000005, 0x8000000000000004, 0, 0, 0]
      { rampWb with t1 := .written ramp })) (.wb .t1) [0, 1, 127] = some [0, 0, 0] := by
  decide +kernel

/-- §3.2 row 9: BXOR T0, 2^63+8, T0: selector bit 3 is set in WB space, BAD_OPERAND. -/
theorem test_bxor_selector :
    statusAfter (exec .bxor (small #v[0x8000000000000004, 0x8000000000000008, 0x8000000000000004, 0, 0, 0] rampWb)) =
      some 0x204 := by
  decide +kernel

/-- §3.2 row 12: BCLEAR of a working block. -/
theorem test_bclear :
    wordsAfter (exec .bclear (small #v[0x8000000000000004, 0, 0, 0, 0, 0] rampWb)) (.wb .t0) [1, 127] = some [0, 0] := by
  decide +kernel

/-- §3.2 row 6: BCLEAR M[0] with CFG = 0 fails with BAD_OPERAND, because MEMBLOCKS = 0. -/
theorem test_bclear_unconfigured : statusAfter (exec .bclear (small (Vector.replicate 6 0))) = some 0x204 := by
  decide +kernel

/-- §3.2, row 1: FromBytes of the bytes k mod 256 (R163). -/
theorem test_from_bytes :
    [0, 1, 31, 32].map (wordOf (fromBytes ((List.range 1024).map fun k => BitVec.ofNat 8 k))) =
      [0x0706050403020100, 0x0f0e0d0c0b0a0908, 0xfffefdfcfbfaf9f8, 0x0706050403020100] := by
  decide +kernel

/-- §3.2, row 4: BTOBYTES T0, 8, here with the ramp: byte 8 of the block, the low byte of w[1], goes to OBUF[16] (R80,
R162). -/
theorem test_btobytes (s : State)
    (hs : s = { small #v[0x8000000000000004, 8, 0, 0, 0, 0] rampWb with caps := ⟨64, 1024, 2048⟩ }) :
    ∃ t, exec .btobytes s = .next t ∧ t.obuf.read 16 = some 1 ∧ t.obuf.read 17 = some 0 ∧ t.obuf.read 7 = none := by
  have h1 : s.sourceBlock 0 = some (.wb .t0) := by subst hs; decide +kernel
  have h2 : rangeOk 8 Config.blockBytes s.caps.obufBytes = true := by subst hs; decide +kernel
  have h3 : s.readBlock (.wb .t0) = .ok ramp := by subst hs; rfl
  have h4 : s.argNat 1 = 8 := by subst hs; decide +kernel
  have h5 : s.obuf = [] := by subst hs; rfl
  have hb : (toBytes ramp)[8]? = some 1 ∧ (toBytes ramp)[9]? = some 0 := by decide +kernel
  refine ⟨((s.noteBlock (.wb .t0)).writeObuf 8 (toBytes ramp)).complete, ?_, ?_⟩
  · simp only [exec, execBtobytes, h1, h2, h3, h4, requireOperands, if_true, ok_bind]
    rfl
  · simp only [State.complete, State.writeObuf, State.noteBlock, State.noteWb, State.note, h5, Memory.read_writeRange Memory.wf_nil, toBytes_length]
    simpa [List.getElem?_eq_some_iff] using hb

/-- §3.2, row 7: BTOBYTES one beyond the last legal offset. -/
theorem test_btobytes_range :
    statusAfter (exec .btobytes (small #v[0x8000000000000004, 1, 0, 0, 0, 0] rampWb)) = some 0x204 := by
  decide +kernel

/-- R61: BFROMBYTES on a reset core is a model fault. -/
theorem test_bfrombytes_unspecified :
    faultOf (exec .bfrombytes (small #v[0x8000000000000004, 0, 0, 0, 0, 0])) = some (.unspecRead (.msg 0)) := by
  decide +kernel

/-- R180: 2^32-1 and 2^32-1 give 2 * (2^32-1) + 2 * (2^32-1)^2 modulo 2^64 = 0xfffffffe00000000. -/
theorem test_blamka :
    (after (exec .blamka (small #v[0xffffffff, 0xffffffff, 0, 0, 0, 0]))).map (fun s => s.res[0]) =
      some 0xfffffffe00000000 := by
  decide +kernel

/-- §3.3: the last row of the GMIX table. -/
theorem test_gmix :
    (after (exec .gmix (small
      #v[0x0123456789abcdef, 0xfedcba9876543210, 0x0f1e2d3c4b5a6978, 0x8796a5b4c3d2e1f0, 0, 0]))).map State.res =
      some #v[0xcf91aecfafa873ea, 0x8eda3c2ee8387799, 0x55bdad4303820779, 0x2631c68056e0577a] := by
  decide +kernel

/-- §3.3: PROUND T0, 8, a column group. -/
theorem test_pround_column :
    wordsAfter (exec .pround (small #v[0x8000000000000004, 8, 0, 0, 0, 0] rampWb)) (.wb .t0) [0, 1, 2, 113, 127] =
      some [0xc518d68f4192de38, 0x925aacb920471a18, 2, 0x38f567b6a2bd7887, 127] := by decide +kernel

/-- §3.3: PROUND T0, 7, a row group. -/
theorem test_pround_row :
    wordsAfter (exec .pround (small #v[0x8000000000000004, 7, 0, 0, 0, 0] rampWb)) (.wb .t0) [111, 112, 113, 127] =
      some [111, 0xbf9f321890f5067e, 0xdfa7c6f4b87ea2b4, 0xfd39a47825d4e99b] := by decide +kernel

/-- §3.3: FBLOCK T1, ZERO, T0. -/
theorem test_fblock :
    wordsAfter (exec .fblock (small #v[0x8000000000000005, 0x8000000000000000, 0x8000000000000004, 0, 0, 0] rampWb))
      (.wb .t1) [0, 1, 2, 3, 127] =
      some [0xc1b5682006cab594, 0xeaf582377f3b0190, 0x7d2c74fb13e92fd7, 0x6a03b60cdbdad745, 0x364d79fa588abf87] := by
  decide +kernel

/-- §3.3: FBLOCKX to WB0 is rejected, as PROUND ZERO, 0 is (R117). -/
theorem test_fblockx_zero_destination :
    statusAfter (exec .fblockx (small #v[0x8000000000000000, 0, 0, 0, 0, 0] rampWb)) = some 0x204 := by
  decide +kernel

/-- §3.4: AINIT gives pass, lane, slice, MEMBLOCKS, ITER, TYPE and a zero counter. -/
theorem test_ainit :
    wordsAfter (exec .ainit (zeroed 1 3 4 #v[0, 1, 0, 0, 0, 0])) (.wb .ain) [0, 1, 2, 3, 4, 5, 6, 7] =
      some [0, 1, 0, 32, 3, 1, 0, 0] := by decide +kernel

/-- §3.4: AINIT 0, 0, 4 fails with BAD_OPERAND. -/
theorem test_ainit_slice : statusAfter (exec .ainit (zeroed 1 3 4 #v[0, 0, 4, 0, 0, 0])) = some 0x214 := by
  decide +kernel

/-- §3.4: ANEXT on a freshly reset core is a model fault (R327: recorded); after ZEROIZE AIN is specified, its counter
becomes 1, and ABLK.w[0] = 0x3521f609352bca91. -/
theorem test_anext :
    (after (exec .anext (small (Vector.replicate 6 0)))).map (fun s => (s.statusWord, s.unspecRead)) = some (0x2, true) ∧
      (after (exec .anext (small (Vector.replicate 6 0) Working.cleared))).map
        (fun s => (s.statusWord, s.unspecRead, s.wb.ain.value[6], s.wb.ablk.value[0])) =
        some (0x2, false, 1, 0x3521f609352bca91) := by
  decide +kernel

/-- §3.4: AWORD 2^64-125 reads word 3. -/
theorem test_aword :
    (after (exec .aword (small #v[-125, 0, 0, 0, 0, 0] { rampWb with ablk := .written ramp }))).map (fun s => s.res[0]) =
      some 3 := by
  decide +kernel

/-- §3.5, row 11: the configuration p = 4, m = 64, t = 2; other lane, slice 2, the start position wraps. -/
theorem test_refindex_wrap :
    (after (exec .refindex { small #v[0x200000000, 1, 2, 1, 2, 0] with
      params := someParams 0 2 64 4, cfg := true, geom := geometryOf (someParams 0 2 64 4) })).map
      (fun s => s.res.toList) = some [2, 7, 39, 12] := by
  decide +kernel

/-- §3.5, row 7: pass 0, same lane, slice 3. -/
theorem test_refindex_pass0 :
    (after (exec .refindex { small #v[0x180000000, 0, 3, 1, 3, 0] with
      params := someParams 0 2 64 4, cfg := true, geom := geometryOf (someParams 0 2 64 4) })).map
      (fun s => s.res.toList) = some [1, 10, 26, 14] := by
  decide +kernel

/-- §3.6: with m = 8 and p = 1, FSEG 0, 0, 0 writes no block; with y = 1 it sets AIN with counter 0. -/
theorem test_fseg_empty :
    (after (exec .fseg (zeroed 1 1 1 (Vector.replicate 6 0)))).map
      (fun s => (s.statusWord, s.mtx == (zeroed 1 1 1 (Vector.replicate 6 0)).mtx, s.wb.ain.value[3], s.wb.ain.value[6])) =
      some (0x12, true, 8, 0) := by decide +kernel

/-- §3.6: FSEG 0, 4, 0 fails with BAD_OPERAND. -/
theorem test_fseg_slice : statusAfter (exec .fseg (zeroed 0 1 1 #v[0, 4, 0, 0, 0, 0])) = some 0x214 := by decide +kernel

/-- §3.6, §3.7: FMATRIX and H0 with CFG = 0 fail with NOT_CONFIGURED. -/
theorem test_not_configured :
    statusAfter (exec .fmatrix (small (Vector.replicate 6 0))) = some 0x304 ∧
      statusAfter (exec .h0 (small (Vector.replicate 6 0))) = some 0x304 := by
  decide +kernel

/-- R247: FMATRIX with an unspecified seed block, column 1 of the only lane, is a model fault. -/
theorem test_fmatrix_unseeded :
    faultOf (exec .fmatrix { zeroed 0 1 1 (Vector.replicate 6 0) with mtx := [(0, zeroBlock)] }) =
      some (.unspecRead (.mtx 1)) := by
  decide +kernel

/-- §3.7: SEED on a reset core that is configured is a model fault (recorded), H0 being unspecified. -/
theorem test_seed_unspecified :
    (after (exec .seed { zeroed 0 1 1 (Vector.replicate 6 0) with h0 := State.reset.h0 })).map
      (fun s => (s.statusWord, s.unspecRead, s.ended)) = some (0x12, true, false) := by
  decide +kernel

/-- §3.2: BXOR T0, T1, ZERO on a core never zeroized is a model fault (recorded), T1 being unspecified. -/
theorem test_bxor_unspecified :
    (after (exec .bxor (small #v[0x8000000000000004, 0x8000000000000005, 0x8000000000000000, 0, 0, 0]))).map
      (fun s => (s.statusWord, s.unspecRead, s.wb.t0.specified)) = some (0x2, true, true) := by
  decide +kernel

/-- §3.7: FINAL right after CONFIG on a reset core is a model fault, MTX[LANELEN-1] being unspecified. -/
theorem test_final_unspecified :
    faultOf (exec .final { zeroed 0 1 1 (Vector.replicate 6 0) with mtx := [] }) = some (.unspecRead (.mtx 7)) := by
  decide +kernel

/-- R300: ZEROIZE clears ARG, RES and every buffer byte, and keeps CTRL. -/
theorem test_zeroize :
    (after (exec .zeroize { small #v[1, 2, 3, 4, 5, 6] with ie := true, caps := ⟨1, 8, 8⟩ })).map
      (fun s => (s.args, s.ie, s.mtx.length, s.obuf)) =
      some (Vector.replicate 6 0, true, 1, (List.range 8).map fun k => (k, 0#8)) := by
  decide +kernel

/-- §3.7: a STATUS write of 0x4 clears ERR and ERRCODE and keeps WIGN. -/
theorem test_status_w1c :
    (after ({ small (Vector.replicate 6 0) with err := true, errCode := .illegalCmd, wign := true }.hostAccess
      (.write 0x008 8 0x4))).map State.statusWord = some 0x8 := by
  decide +kernel

/-- §3.7: while BUSY an ARG0 write is ignored and STATUS = 0x9. -/
theorem test_write_while_busy :
    (after ({ small (Vector.replicate 6 0) with latch := some 4 }.hostAccess (.write 0x080 8 5))).map
      (fun s => (s.statusWord, s.args[0])) = some (0x9, 0) := by
  decide +kernel

/-- §3.7: the interrupt is raised by CTRL <- 1 when DONE is already 1. -/
theorem test_irq :
    (after ({ small (Vector.replicate 6 0) with done := true }.hostAccess (.write 0x000 8 1))).map State.irq =
      some true := by
  decide +kernel

/-- §4 Program 2: LOADMSG 0, "abc" is one host write of 0x636261. -/
theorem test_loadmsg : stmtEvents (.loadmsg 0 [0x61, 0x62, 0x63]) = [hostSet 0x10000 0x636261] := by
  decide +kernel

/-- R123: READOUT of no byte reads nothing; 8 bytes from offset 4 take two words. -/
theorem test_readout :
    stmtEvents (.readout 4 0) = [] ∧ stmtEvents (.readout 4 8) = [hostGet 0x20000, hostGet 0x20008] := by
  decide +kernel

/-! ### Witnesses: states and operands that meet the hypotheses of each obligation together -/

/-- TYPE 1, v = 0x13, ITER = 2, MEMKIB = 16, LANES = 2, OUTLEN = 4 and a password of one byte. -/
def demoParams : Params :=
  { Params.reset with type := 1, version := 0x13, iter := 2, memKib := 16, lanes := 2, outLen := 4, pwdLen := 1 }

/-- A validated, seeded and filled machine of zero blocks: two lanes of 8 blocks, SEGLEN = 2. -/
def demo (args : Vector Word 6) : State :=
  { small args Working.cleared with
    params := demoParams, cfg := true, geom := geometryOf demoParams
    mtx := (List.range 16).map fun k => (k, zeroBlock)
    h0 := .written (Vector.replicate 64 0)
    msg := [(0, 0x61)] }

/-- The demo machine with operands 0. -/
def demo0 : State := demo (Vector.replicate 6 0)

theorem demo0_inv : demo0.Inv where
  capBlocks := by decide +kernel
  capMsg := by decide +kernel
  capObuf := by decide +kernel
  mtxWf := by decide +kernel
  msgWf := by decide +kernel
  obufWf := by decide +kernel
  mtxBelow := by decide +kernel
  msgBelow := by decide +kernel
  obufBelow := by decide +kernel
  oneEnd := by decide +kernel
  busyClear := by decide +kernel
  errCodeNone := by decide +kernel
  configured := by decide +kernel
  unconfigured := by decide +kernel

/-- The invariant of the demo machine does not depend on the operands. -/
theorem demo_inv (args : Vector Word 6) : (demo args).Inv :=
  ⟨demo0_inv.capBlocks, demo0_inv.capMsg, demo0_inv.capObuf, demo0_inv.mtxWf, demo0_inv.msgWf, demo0_inv.obufWf,
    demo0_inv.mtxBelow, demo0_inv.msgBelow, demo0_inv.obufBelow, demo0_inv.oneEnd, demo0_inv.busyClear,
    demo0_inv.errCodeNone, demo0_inv.configured, demo0_inv.unconfigured⟩

theorem demo0_specified : ∀ k, k < 16 → (demo0.mtx.read k).isSome = true := by decide +kernel

theorem demo_block (args : Vector Word 6) {lane col : Nat} (hl : lane < 2) (hc : col < 8) :
    (demo args).blockSpecified lane col := by
  refine demo0_specified (lane * 8 + col) ?_
  omega

theorem demo_fillable (args : Vector Word 6) (pass slice : Nat) : (demo args).fillable pass slice :=
  fun _ _ hl hc _ => demo_block args hl hc

/-- A reset machine with the small buffers and one input to come. -/
def waiting (e : Event) : State := { small (Vector.replicate 6 0) with agenda := [e] }

/-- The same while a command is outstanding. -/
def waitingBusy (e : Event) : State := { waiting e with latch := some 0 }

theorem witness_ResetLeavesTheTable :
    WbReg.t3 ≠ .zero ∧ 1016 + 8 ≤ Config.msgBytes ∧ 1016 + 8 ≤ Config.obufBytes ∧
      (waiting .reset).agenda = .reset :: [] :=
  ⟨by decide, Nat.le_add_left _ _, Nat.le_add_left _ _, rfl⟩

/-- A reset machine with the small buffers meets the invariant, whatever its latch. -/
theorem busy_inv : (waitingBusy .core).Inv where
  capBlocks := by decide +kernel
  capMsg := by decide +kernel
  capObuf := by decide +kernel
  mtxWf := List.Pairwise.nil
  msgWf := List.Pairwise.nil
  obufWf := List.Pairwise.nil
  mtxBelow := by decide +kernel
  msgBelow := by decide +kernel
  obufBelow := by decide +kernel
  oneEnd := by decide +kernel
  busyClear := by decide +kernel
  errCodeNone := by decide +kernel
  configured := by decide +kernel
  unconfigured := fun _ => rfl

theorem witness_StepKeepsTheInvariant :
    ∃ s t : State, s.Inv ∧ s.latch = some 0 ∧ step s = .next t := ⟨waitingBusy .core, _, busy_inv, rfl, rfl⟩

theorem witness_IllegalCommandEndsWithError :
    (∀ v ∈ [(0x100 : Word), 0x04, 0x63, 0xFF, 0x8000000000000000],
      256 ≤ v.toNat ∨ v.toNat % 256 ∉ assignedOpcodes) ∧
    (∀ v ∈ [(0x00 : Word), 0x62], v.toNat < 256 ∧ v.toNat ∈ assignedOpcodes) ∧
    (∃ (s : State) (v : Word), s.agenda = [] ∧ s.latch = some v ∧ v = 0x8000000000000000) ∧
    (∃ (s : State) (v : Word), s.agenda = .core :: [] ∧ s.latch = some v ∧ v = 0x04) := by
  refine ⟨by simp [assignedOpcodes], by simp [assignedOpcodes],
    ⟨{ small (Vector.replicate 6 0) with latch := some 0x8000000000000000 }, _, rfl, rfl, rfl⟩,
    ⟨{ waiting .core with latch := some 0x04 }, _, rfl, rfl, rfl⟩⟩

theorem witness_StepRunsTheDecodedCommand :
    (∃ (s : State) (v : Word) (i : Instr), s.agenda = [] ∧ s.latch = some v ∧ decode v = .command i) ∧
    (∃ (s : State) (v : Word) (i : Instr), s.agenda = .core :: [] ∧ s.latch = some v ∧ decode v = .command i) ∧
    (∃ s : State, s.agenda = [] ∧ s.latch = none) ∧ (∃ s : State, s.agenda = .core :: [] ∧ s.latch = none) :=
  ⟨⟨{ State.reset with latch := some 0x62 }, 0x62, .final, rfl, rfl, by decide⟩,
    ⟨waitingBusy .core, 0, .nop, rfl, rfl, by decide⟩, ⟨State.reset, rfl, rfl⟩, ⟨waiting .core, rfl, rfl⟩⟩

theorem witness_CmdWriteIssues :
    ((waiting (.host (.write 0x010 8 0x62))).busy = false ∧
      (waiting (.host (.write 0x010 8 0x62))).agenda = .host (.write 0x010 8 0x62) :: []) ∧
    ((waitingBusy (.host (.write 0x010 8 0x62))).busy = true ∧
      (waitingBusy (.host (.write 0x010 8 0x62))).agenda = .host (.write 0x010 8 0x62) :: []) ∧
    (waitingBusy (.host (.read 0x010 8))).agenda = .host (.read 0x010 8) :: [] :=
  ⟨⟨rfl, rfl⟩, ⟨rfl, rfl⟩, rfl⟩

theorem witness_AccessesWhileBusy :
    (∀ a, (waitingBusy (.host a)).busy = true ∧ (waitingBusy (.host a)).agenda = .host a :: []) ∧
    (∀ off ∈ [0x010, 0x018, 0x0E8, 0x10000, 0x2FFF8], off % 8 = 0 ∧ 0x010 ≤ off ∧ off < 0x30000) ∧
    (∀ off ∈ [0x000, 0x008, paramOffset .type, paramOffset .adLen, 0x068, 0x078, 0x0E0], off % 8 = 0 ∧ off < 0x30000) ∧
    (∀ off ∈ [0x0B0, 0x0C8, 0x10000, 0x2FFF8], off % 8 = 0 ∧ off < 0x30000 ∧
      (0x0B0 ≤ off ∧ off < 0x0D0 ∨ 0x10000 ≤ off)) :=
  ⟨fun _ => ⟨rfl, rfl⟩, by decide, by decide, by decide⟩

theorem witness_ParameterWriteClearsConfig :
    (∀ v, (waiting (.host (.write (paramOffset .type) 8 v))).busy = false ∧
      (waiting (.host (.write (paramOffset .type) 8 v))).agenda = .host (.write (paramOffset .type) 8 v) :: []) ∧
    ((waiting (.host (.read (paramOffset .adLen) 8))).busy = false ∧
      (waiting (.host (.read (paramOffset .adLen) 8))).agenda = .host (.read (paramOffset .adLen) 8) :: []) :=
  ⟨fun _ => ⟨rfl, rfl⟩, rfl, rfl⟩

theorem witness_StatusWriteReturnsFromError :
    (∀ v, (waiting (.host (.write 0x008 8 v))).agenda = .host (.write 0x008 8 v) :: []) ∧
    ((0xE : Word).getLsbD 1 = true ∧ (0xE : Word).getLsbD 2 = true ∧ (0xE : Word).getLsbD 3 = true) ∧
    ((0x1 : Word).getLsbD 1 = false ∧ (0x1 : Word).getLsbD 2 = false ∧ (0x1 : Word).getLsbD 3 = false) :=
  ⟨fun _ => rfl, by decide, by decide⟩

theorem witness_OtherAccessesAreRefused :
    (∀ a, (waiting (.host a)).agenda = .host a :: []) ∧
    (∀ a ∈ [HostAccess.read 0x008 4, .write 0x004 8 0, .read 0x30004 8], a.width ≠ 8 ∨ a.offset % 8 ≠ 0) ∧
    (∀ a ∈ [HostAccess.read 0x30000 8, .write 0x30000 8 1],
      a.width = 8 ∧ a.offset % 8 = 0 ∧ 0x30000 ≤ a.offset) :=
  ⟨fun _ => rfl, by decide, by decide⟩

theorem witness_HostReadsHaveNoSideEffects :
    (∀ off ∈ [0x000, 0x0A8, 0x0B0, 0x0C8, 0x0D0, 0xFFF8, 0x10000, 0x2FFF8], off % 8 = 0 ∧ off < 0x30000) ∧
    (∀ off, ({ waiting .core with agenda := [.host (.read off 8), .host (.read off 8)] }).agenda =
      .host (.read off 8) :: .host (.read off 8) :: []) ∧
    (0xFFF8 < 0x10000 ∧ (0xFFF8 < 0x0B0 ∨ 0x0D0 ≤ 0xFFF8)) ∧ (waiting .core).busy = false :=
  ⟨by decide, fun _ => rfl, by decide, rfl⟩

theorem witness_BufferWindowsAreLittleEndian :
    (∀ e, (waiting e).busy = false ∧ Memory.wf (waiting e).msg ∧ Memory.wf (waiting e).obuf ∧
      (waiting e).agenda = e :: []) ∧
    (∀ k ∈ [0, 1016, 1024, 0xFFF8], k % 8 = 0 ∧ k < 0x10000) ∧
    ((waiting .core).caps.msgBytes = 1024 ∧ (waiting .core).caps.obufBytes = 1024) ∧
    demo0.msg.read (0 + 0) = some 0x61 :=
  ⟨fun _ => ⟨rfl, List.Pairwise.nil, List.Pairwise.nil, rfl⟩, by decide, ⟨rfl, rfl⟩, by decide +kernel⟩

theorem witness_RegisterMapWhenIdle :
    (∀ e, (waiting e).busy = false ∧ (waiting e).agenda = e :: []) ∧
    (∀ off ∈ [0x068, 0x078, 0x0B0, 0x0E8, 0xFFF8], off % 8 = 0 ∧
      (0x068 ≤ off ∧ off < 0x080 ∨ 0x0B0 ≤ off ∧ off < 0x10000)) ∧
    (∀ off ∈ [0x000, 0x008, 0x068, 0x070, 0x078, 0x080, 0x0A8, 0x0B0, 0x0C8, 0x0D0, 0x0D8, 0x0E0, 0x0E8, 0xFFF8],
      off % 8 = 0 ∧ off < 0x10000) :=
  ⟨fun _ => ⟨rfl, rfl⟩, by decide, by decide⟩

theorem witness_InterruptIsALevel :
    (∃ (s t : State) (v : Word), s.agenda = .host (.write 0x000 8 v) :: [] ∧ step s = .next t) ∧
    (∃ (s t : State) (v : Word), ¬(s.done = true ∧ s.err = true) ∧ s.agenda = .host (.write 0x008 8 v) :: [] ∧
      step s = .next t ∧ s.done = true ∧ v.getLsbD 1 = true) ∧
    (∃ (s t : State) (v : Word), ¬(s.done = true ∧ s.err = true) ∧ s.agenda = .host (.write 0x008 8 v) :: [] ∧
      step s = .next t ∧ s.err = true ∧ v.getLsbD 2 = true) ∧
    (∃ (s t : State) (v : Word), s.busy = false ∧ s.agenda = .host (.write 0x010 8 v) :: [] ∧ step s = .next t) ∧
    (∃ s t : State, s.agenda = .reset :: [] ∧ step s = .next t) :=
  ⟨⟨waiting (.host (.write 0x000 8 1)), _, 1, rfl, rfl⟩,
    ⟨{ waiting (.host (.write 0x008 8 2)) with done := true }, _, 2, by decide, rfl, rfl, rfl, by decide⟩,
    ⟨{ waiting (.host (.write 0x008 8 4)) with err := true, errCode := .badOperand }, _, 4, by decide, rfl, rfl, rfl,
      by decide⟩,
    ⟨waiting (.host (.write 0x010 8 0)), _, 0, rfl, rfl, rfl⟩, ⟨waiting .reset, _, rfl, rfl⟩⟩

theorem witness_OperandsHeldUntilPerformed :
    ∃ (s : State) (v : Word) (as : List HostAccess), s.latch = some v ∧ s.agenda = as.map Event.host ∧
      (∀ a ∈ as, a.wellFormed = true) ∧ as ≠ [] :=
  ⟨{ small (Vector.replicate 6 0) with
      latch := some 0x30, agenda := [.host (.write 0x080 8 5), .host (.read 0x2FFF8 8)] },
    0x30, [.write 0x080 8 5, .read 0x2FFF8 8], rfl, rfl, by decide, by decide⟩

theorem witness_NotConfiguredCommands :
    (small (Vector.replicate 6 0)).cfg = false ∧
      Instr.final ∈ [Instr.ainit, .refindex, .fseg, .fmatrix, .h0, .seed, .final] := by decide

theorem witness_BlockSelectorNames :
    ((15 : Word).toNat < 2 ^ 63 ∧ (15 : Word).toNat < 16) ∧
    (∀ sel ∈ [(16 : Word), 0x7FFFFFFFFFFFFFFF], sel.toNat < 2 ^ 63 ∧ 16 ≤ sel.toNat) ∧
    ((0x8000000000000000 : Word).toNat = 2 ^ 63 + wbNumber .zero ∧
      (0x8000000000000007 : Word).toNat = 2 ^ 63 + wbNumber .t3) ∧
    (∀ sel ∈ [(0x8000000000000008 : Word), 0xFFFFFFFFFFFFFFFF], 2 ^ 63 + 8 ≤ sel.toNat) := by
  simp [wbNumber]

theorem witness_BadOperandChecks :
    (Instr.fblockx ∈ [Instr.bxor, .bclear, .bfrombytes, .pround, .fblock, .fblockx] ∧
      blockOfSelector (demo #v[16, 0, 0, 0, 0, 0]).memBlocks 16 = none ∧ (0x8000000000000000 : Word).toNat = 2 ^ 63) ∧
    (demo #v[0, 0x8000000000000008, 16, 0, 0, 0]).args[1] = 0x8000000000000008 ∧
    blockOfSelector demo0.memBlocks 0x8000000000000008 = none ∧
    (demo #v[0, 1, 0, 0, 0, 0]).caps.obufBytes < (demo #v[0, 1, 0, 0, 0, 0]).args[1].toNat + 1024 ∧
    (demo #v[0, 1, 0, 0, 0, 0]).caps.msgBytes < (demo #v[0, 1, 0, 0, 0, 0]).args[1].toNat + 1024 ∧
    16 ≤ (demo #v[0, 16, 0, 0, 0, 0]).args[1].toNat ∧
    ((demo #v[1, 1024, 1, 0, 0, 0]).caps.msgBytes <
        (demo #v[1, 1024, 1, 0, 0, 0]).args[0].toNat + (demo #v[1, 1024, 1, 0, 0, 0]).args[1].toNat ∧
      (demo #v[0, 0, 0, 0, 0, 0]).args[2].toNat = 0 ∧
      (demo #v[0, 0, 1025, 0, 0, 0]).caps.obufBytes < (demo #v[0, 0, 1025, 0, 0, 0]).args[2].toNat) ∧
    (demo0.cfg = true ∧ demo0.iter ≤ (demo #v[2, 2, 4, 0, 0, 0]).args[0].toNat ∧
      demo0.lanes ≤ (demo #v[2, 2, 4, 0, 0, 0]).args[1].toNat ∧ 4 ≤ (demo #v[2, 2, 4, 0, 0, 0]).args[2].toNat) ∧
    (demo0.iter ≤ (demo #v[2, 4, 2, 0, 0, 0]).args[0].toNat ∧ 4 ≤ (demo #v[2, 4, 2, 0, 0, 0]).args[1].toNat ∧
      demo0.lanes ≤ (demo #v[2, 4, 2, 0, 0, 0]).args[2].toNat) ∧
    (demo0.segLen ≤ (demo #v[0, 0, 0, 0, 2, 0]).args[4].toNat ∧
      (demo #v[0, 0, 0, 0, 1, 0]).args[1].toNat = 0 ∧ (demo #v[0, 0, 0, 0, 1, 0]).args[2].toNat = 0 ∧
      (demo #v[0, 0, 0, 0, 1, 0]).args[4].toNat < 2) := by decide +kernel

theorem witness_ErrorsArePrecise :
    (∃ s t : State, s.err = false ∧ exec .ainit s = .next t ∧ t.err = true) ∧
    (∃ s t : State, s.err = false ∧ exec .config s = .next t ∧ t.err = true) :=
  ⟨⟨small (Vector.replicate 6 0), _, rfl, rfl, rfl⟩, ⟨small (Vector.replicate 6 0), _, rfl, rfl, rfl⟩⟩

theorem witness_ExactlyOneEnd :
    (∃ s t : State, s.done = false ∧ s.err = false ∧ s.errCode = .none ∧ exec .nop s = .next t) ∧
    (∃ s t : State, s.done = false ∧ s.err = false ∧ s.errCode = .none ∧ exec .seed s = .next t) :=
  ⟨⟨State.reset, _, rfl, rfl, rfl, rfl⟩, ⟨State.reset, _, rfl, rfl, rfl, rfl⟩⟩

/-- NOP meets the premise of every clause. -/
theorem witness_OnlyNamedCommandsWrite :
    (∃ s t : State, exec .nop s = .next t) ∧ Instr.nop ≠ .zeroize ∧
    Instr.nop ∉ [Instr.blamka, .gmix, .aword, .refindex, .zeroize] ∧ Instr.nop ∉ [Instr.config, .derive] ∧
    Instr.nop ∉ [Instr.h0, .derive, .zeroize] ∧ Instr.nop ∉ [Instr.hprime, .btobytes, .final, .derive, .zeroize] ∧
    Instr.nop ∈ [Instr.nop, .config, .hprime, .btobytes, .blamka, .gmix, .aword, .refindex, .h0] :=
  ⟨⟨State.reset, _, rfl⟩, by decide⟩

/-- The demo machine with MTX, the working blocks, H0 and MSG unspecified, as after reset. -/
def blank (args : Vector Word 6) : State :=
  { demo args with mtx := [], wb := Working.atReset 0, h0 := State.reset.h0, msg := [] }

theorem witness_UnspecifiedReadsFault :
    (blockOfSelector (blank #v[0x8000000000000004, 15, 0x8000000000000000, 0, 0, 0]).memBlocks 0x8000000000000004 =
        some (.wb .t0) ∧ BlockRef.wb .t0 ≠ .wb .zero ∧ blockOfSelector demo0.memBlocks 15 = some (.mtx 15) ∧
      blockOfSelector demo0.memBlocks 0x8000000000000000 = some (.wb .zero) ∧
      (blank (Vector.replicate 6 0)).holding (.mtx 15) = none ∧
      ((blank (Vector.replicate 6 0)).wb.held .t0).specified = false) ∧
    ((blank #v[0, 0, 0, 0, 0, 0]).args[1].toNat + 1024 ≤ (blank #v[0, 0, 0, 0, 0, 0]).caps.obufBytes ∧
      (blank #v[0, 15, 0, 0, 0, 0]).args[1].toNat < 16) ∧
    ((blank #v[1023, 1, 1024, 0, 0, 0]).args[0].toNat + (blank #v[1023, 1, 1024, 0, 0, 0]).args[1].toNat ≤ 1024 ∧
      1 ≤ (blank #v[1023, 1, 1024, 0, 0, 0]).args[2].toNat ∧
      (blank #v[1023, 1, 1024, 0, 0, 0]).args[2].toNat ≤ (blank (Vector.replicate 6 0)).caps.obufBytes ∧
      0 < (blank #v[1023, 1, 1024, 0, 0, 0]).args[1].toNat ∧ (blank (Vector.replicate 6 0)).msg.read (1023 + 0) = none) ∧
    ((blank (Vector.replicate 6 0)).args[1].toNat + 1024 ≤ (blank (Vector.replicate 6 0)).caps.msgBytes ∧
      (blank (Vector.replicate 6 0)).msg.read (0 + 1023) = none) ∧
    ((blank (Vector.replicate 6 0)).cfg = true ∧ 0 < (blank (Vector.replicate 6 0)).inputBytes ∧
      (blank (Vector.replicate 6 0)).msg.read 0 = none) ∧
    checkConfig (blank (Vector.replicate 6 0)).params (blank (Vector.replicate 6 0)).caps = none ∧
    ((blank (Vector.replicate 6 0)).wb.ain.specified = false ∧ (blank (Vector.replicate 6 0)).wb.ablk.specified = false ∧
      (blank (Vector.replicate 6 0)).h0.specified = false) ∧
    (1 < (blank (Vector.replicate 6 0)).lanes ∧
      ((blank (Vector.replicate 6 0)).mtx.read (flatIndex 8 1 7)).isSome = false) := by decide +kernel

/-- FSEG before index 0 of pass 0, slice 1, lane 0: the previous block unspecified. -/
theorem witness_UnspecifiedReadsFault_previous :
    ∃ s u : State, s.cfg = true ∧ s.args[0].toNat < s.iter ∧ s.args[1].toNat < 4 ∧ s.args[2].toNat < s.lanes ∧
      startIndex s.args[0].toNat s.args[1].toNat ≤ 0 ∧ 0 < s.segLen ∧
      s.beforeIndex s.args[0].toNat s.args[1].toNat s.args[2].toNat 0 = .ok u ∧
      u.mtx.read (flatIndex s.laneLen s.args[2].toNat (previousColumn s.laneLen s.segLen s.args[1].toNat 0)) = none :=
  ⟨blank #v[0, 1, 0, 0, 0, 0], _, rfl, by decide +kernel, by decide +kernel, by decide +kernel, by decide +kernel,
    by decide +kernel, rfl, rfl⟩

/-- The demo machine as Argon2d, only column 1 of lane 0 specified, about to fill pass 0, slice 1, lane 0. -/
def halfSeeded : State :=
  { blank #v[0, 1, 0, 0, 0, 0] with params := { demoParams with type := 0 }, mtx := [(1, zeroBlock)] }

/-- The previous block specified and the reference block not. -/
theorem witness_UnspecifiedReadsFault_reference :
    halfSeeded.cfg = true ∧ 0 < halfSeeded.iter ∧ 0 < halfSeeded.lanes ∧ 0 < halfSeeded.segLen ∧
      halfSeeded.dataIndependent 0 1 = false ∧ startIndex 0 1 ≤ 0 ∧
      halfSeeded.beforeIndex 0 1 0 0 = .ok halfSeeded ∧
      halfSeeded.mtx.read (flatIndex halfSeeded.laneLen 0 (previousColumn halfSeeded.laneLen halfSeeded.segLen 1 0)) =
        some zeroBlock ∧
      halfSeeded.mtx.read (halfSeeded.referenceOf 0 1 0 0 zeroBlock[0]).flat = none := by
  refine ⟨rfl, by decide +kernel, by decide +kernel, by decide +kernel, by decide +kernel, by decide +kernel, rfl,
    by decide +kernel, by decide +kernel⟩

/-- Pass 1 of version 0x13 with the current block unspecified, and a machine that is not seeded. -/
theorem witness_UnspecifiedReadsFault_current :
    let s := blank #v[1, 0, 1, 0, 0, 0]
    Memory.wf s.mtx ∧ s.cfg = true ∧ s.args[0].toNat < s.iter ∧ s.args[1].toNat < 4 ∧ s.args[2].toNat < s.lanes ∧
      0 < s.segLen ∧ 0 < s.args[0].toNat ∧ s.params.version = 0x13 ∧
      s.mtx.read (flatIndex s.laneLen s.args[2].toNat (currentColumn s.segLen s.args[1].toNat 0)) = none ∧
      ¬s.seeded := by
  refine ⟨List.Pairwise.nil, rfl, by decide +kernel, by decide +kernel, by decide +kernel, by decide +kernel,
    by decide +kernel, rfl, rfl, fun h => ?_⟩
  have := (h 0 (by decide +kernel)).1
  cases this

/-- A recorded UNSPEC_READ: commands that read an unspecified register and answer, and the record after a step. -/
theorem witness_UnspecifiedReadsFault_recorded :
    (∃ t, (blank (Vector.replicate 6 0)).wb.ain.specified = false ∧ exec .anext (blank (Vector.replicate 6 0)) = .next t) ∧
    (∃ t, (blank (Vector.replicate 6 0)).wb.ablk.specified = false ∧ exec .aword (blank (Vector.replicate 6 0)) = .next t) ∧
    (∃ t, (blank (Vector.replicate 6 0)).h0.specified = false ∧ (blank (Vector.replicate 6 0)).cfg = true ∧
      exec .seed (blank (Vector.replicate 6 0)) = .next t) ∧
    (let s := blank #v[0x8000000000000004, 0x8000000000000005, 0x8000000000000000, 0, 0, 0];
      blockOfSelector s.memBlocks s.args[0] = some (.wb .t0) ∧ blockOfSelector s.memBlocks s.args[1] = some (.wb .t1) ∧
      blockOfSelector s.memBlocks s.args[2] = some (.wb .zero) ∧ (s.wb.held .t1).specified = false ∧
      (after (exec .bxor s)).isSome = true ∧ (after (exec .fblockx s)).isSome = true) ∧
    (let s := blank #v[0x8000000000000004, 0, 0, 0, 0, 0];
      blockOfSelector s.memBlocks s.args[0] = some (.wb .t0) ∧ (s.wb.held .t0).specified = false ∧ s.err = false ∧
      (after (exec .btobytes s)).isSome = true ∧ (after (exec .pround s)).isSome = true) ∧
    (∃ t, step { State.reset with unspecRead := true } = .next t) := by
  refine ⟨⟨_, rfl, rfl⟩, ⟨_, rfl, rfl⟩, ?_, by decide +kernel, by decide +kernel, ⟨_, rfl⟩⟩
  exact ⟨_, rfl, rfl, rfl⟩

theorem witness_ZeroBlockIsHardwired :
    ∃ s : State, Instr.pround ∈ [Instr.bxor, .bclear, .bfrombytes, .pround, .fblock, .fblockx] ∧
      s.args[0].toNat = 2 ^ 63 :=
  ⟨demo #v[0x8000000000000000, 0, 0, 0, 0, 0], by decide, by decide +kernel⟩

theorem witness_ConfigSetsTheGeometry :
    let s := demo0
    (1 ≤ s.lanes ∧ s.lanes ≤ 16777216) ∧ 8 * s.lanes ≤ s.params.memKib.toNat ∧ 1 ≤ s.iter ∧ 4 ≤ s.outLen ∧
      (s.params.version = 0x10 ∨ s.params.version = 0x13) ∧ s.type ≤ 2 ∧
      4 * s.lanes * (s.params.memKib.toNat / (4 * s.lanes)) ≤ s.caps.maxBlocks ∧ s.inputBytes ≤ s.caps.msgBytes ∧
      s.outLen ≤ s.caps.obufBytes := by decide +kernel

/-- A state whose parameters are the demo's with one change. -/
def changed (f : Params → Params) : State := { small (Vector.replicate 6 0) with params := f demoParams }

/-- One failing row of R273 at a time, each at a boundary, the rows before it passing: the error is the row's. -/
theorem witness_CheckConfigOrder :
    checkConfig (changed fun p => { p with lanes := 0 }).params demo0.caps = some .cfgLanes ∧
    checkConfig (changed fun p => { p with lanes := 16777217 }).params demo0.caps = some .cfgLanes ∧
    checkConfig (changed fun p => { p with memKib := 15 }).params demo0.caps = some .cfgMemory ∧
    checkConfig (changed fun p => { p with iter := 0 }).params demo0.caps = some .cfgIter ∧
    checkConfig (changed fun p => { p with outLen := 3 }).params demo0.caps = some .cfgOutlen ∧
    checkConfig (changed fun p => { p with version := 0x12 }).params demo0.caps = some .cfgVersion ∧
    checkConfig (changed fun p => { p with type := 3 }).params demo0.caps = some .cfgType ∧
    checkConfig (changed fun p => { p with memKib := 72 }).params demo0.caps = some .resMatrix ∧
    checkConfig (changed fun p => { p with pwdLen := 1025 }).params demo0.caps = some .resMsg ∧
    checkConfig (changed fun p => { p with outLen := 1025 }).params demo0.caps = some .resObuf := by decide +kernel

theorem witness_GeometryBounds :
    (∃ s : State, s.Inv ∧ s.cfg = true) ∧ (∃ s : State, s.Inv ∧ s.cfg = false) :=
  ⟨⟨demo0, demo0_inv, rfl⟩,
    ⟨{ demo0 with cfg := false, geom := Geometry.zero },
      ⟨demo0_inv.capBlocks, demo0_inv.capMsg, demo0_inv.capObuf, demo0_inv.mtxWf, demo0_inv.msgWf, demo0_inv.obufWf,
        demo0_inv.mtxBelow, demo0_inv.msgBelow, demo0_inv.obufBelow, demo0_inv.oneEnd, demo0_inv.busyClear,
        demo0_inv.errCodeNone, by decide +kernel, fun _ => rfl⟩, rfl⟩⟩

theorem witness_HprimeLength : 1 ≤ 1 := by decide

theorem witness_HprimeChunks : 64 ≤ 64 ∧ 64 < 65 := by decide

theorem witness_HprimeCommand :
    let s := demo #v[0, 1, 1024, 0, 0, 0]
    Memory.wf s.obuf ∧ s.args[0].toNat + s.args[1].toNat ≤ s.caps.msgBytes ∧ 1 ≤ s.args[2].toNat ∧
      s.args[2].toNat ≤ s.caps.obufBytes ∧ [(0x61 : Byte)].length = s.args[1].toNat ∧
      (∀ j, j < [(0x61 : Byte)].length → s.msg.read (s.args[0].toNat + j) = [(0x61 : Byte)][j]?) := by decide +kernel

theorem witness_BlockFunctions : (List.replicate 1024 (0 : Byte)).length = 1024 ∧ 1023 < 1024 :=
  ⟨List.length_replicate, by decide⟩

/-- The operands of the block commands: a matrix destination that is also a source, and WB0 as a source. -/
theorem witness_block_commands :
    let s := demo #v[15, 15, 0x8000000000000000, 0, 0, 0]
    Memory.wf s.mtx ∧ blockOfSelector s.memBlocks s.args[0] = some (.mtx 15) ∧ BlockRef.mtx 15 ≠ .wb .zero ∧
      blockOfSelector s.memBlocks s.args[1] = some (.mtx 15) ∧
      blockOfSelector s.memBlocks s.args[2] = some (.wb .zero) ∧
      s.holding (.mtx 15) = some (.written zeroBlock) ∧ s.holding (.wb .zero) = some (.written zeroBlock) := by
  decide +kernel

theorem witness_BxorCommand :
    ∃ (s : State) (d a b : BlockRef) (A B : Held Block), Memory.wf s.mtx ∧ blockOfSelector s.memBlocks s.args[0] = some d ∧
      d ≠ .wb .zero ∧ blockOfSelector s.memBlocks s.args[1] = some a ∧ blockOfSelector s.memBlocks s.args[2] = some b ∧
      s.holding a = some A ∧ s.holding b = some B := ⟨_, _, _, _, _, _, witness_block_commands⟩

theorem witness_BclearCommand :
    ∃ (s : State) (d : BlockRef), Memory.wf s.mtx ∧ blockOfSelector s.memBlocks s.args[0] = some d ∧ d ≠ .wb .zero :=
  ⟨_, _, witness_block_commands.1, witness_block_commands.2.1, witness_block_commands.2.2.1⟩

theorem witness_BtobytesCommand :
    let s := demo #v[0x8000000000000000, 0, 0, 0, 0, 0]
    Memory.wf s.obuf ∧ blockOfSelector s.memBlocks s.args[0] = some (.wb .zero) ∧
      s.holding (.wb .zero) = some (.written zeroBlock) ∧ s.args[1].toNat + 1024 ≤ s.caps.obufBytes := by decide +kernel

theorem witness_BfrombytesCommand :
    ∃ (s : State) (d : BlockRef) (bs : List Byte), Memory.wf s.mtx ∧ blockOfSelector s.memBlocks s.args[0] = some d ∧
      d ≠ .wb .zero ∧ s.args[1].toNat + 1024 ≤ s.caps.msgBytes ∧ bs.length = 1024 ∧
      (∀ j, j < 1024 → s.msg.read (s.args[1].toNat + j) = bs[j]?) := by
  refine ⟨{ demo0 with msg := demo0.msg.fillBelow 1024 0 }, .mtx 0, List.replicate 1024 0, ?_, ?_, by decide, ?_,
    List.length_replicate, fun j hj => ?_⟩
  · exact demo0_inv.mtxWf
  · decide +kernel
  · decide +kernel
  · have h : ∀ a, ({ demo0 with msg := demo0.msg.fillBelow 1024 0 } : State).args[1].toNat + a = a := by
      intro a; exact Nat.zero_add a
    rw [h, Memory.read_fillBelow demo0_inv.msgWf, List.getElem?_replicate, if_pos hj, if_pos hj]

theorem witness_ProundCommand :
    ∃ (s : State) (d : BlockRef) (Z : Held Block), Memory.wf s.mtx ∧ blockOfSelector s.memBlocks s.args[0] = some d ∧
      d ≠ .wb .zero ∧ s.holding d = some Z ∧ s.args[1].toNat < 16 ∧ s.args[1].toNat = 15 :=
  ⟨_, _, _, witness_block_commands.1, witness_block_commands.2.1, witness_block_commands.2.2.1,
    witness_block_commands.2.2.2.2.2.1, by decide +kernel, by decide +kernel⟩

theorem witness_FblockCommand :
    ∃ (s : State) (d x y : BlockRef) (X Y : Held Block), Memory.wf s.mtx ∧ blockOfSelector s.memBlocks s.args[0] = some d ∧
      d ≠ .wb .zero ∧ blockOfSelector s.memBlocks s.args[1] = some x ∧ blockOfSelector s.memBlocks s.args[2] = some y ∧
      s.holding x = some X ∧ s.holding y = some Y := ⟨_, _, _, _, _, _, witness_block_commands⟩

theorem witness_FblockxCommand :
    ∃ (s : State) (d x y : BlockRef) (X Y D : Held Block), Memory.wf s.mtx ∧
      blockOfSelector s.memBlocks s.args[0] = some d ∧ d ≠ .wb .zero ∧
      blockOfSelector s.memBlocks s.args[1] = some x ∧ blockOfSelector s.memBlocks s.args[2] = some y ∧
      s.holding x = some X ∧ s.holding y = some Y ∧ s.holding d = some D ∧ x = d ∧ y = d :=
  ⟨demo0, .mtx 0, .mtx 0, .mtx 0, .written zeroBlock, .written zeroBlock, .written zeroBlock, by decide +kernel⟩

theorem witness_AinitCommand :
    let s := demo #v[1, 1, 3, 0, 0, 0]
    s.cfg = true ∧ s.args[0].toNat < s.iter ∧ s.args[1].toNat < s.lanes ∧ s.args[2].toNat < 4 := by decide +kernel

/-- The operands of REFINDEX at a legal position. -/
def refindexLegal (s : State) : Prop :=
  s.args[1].toNat < s.iter ∧ s.args[2].toNat < 4 ∧ s.args[3].toNat < s.lanes ∧ s.args[4].toNat < s.segLen ∧
    ¬(s.args[1].toNat = 0 ∧ s.args[2].toNat = 0 ∧ s.args[4].toNat < 2)

/-- A legal position in pass 1, and one in pass 0 where i = 0 is legal. -/
theorem witness_RefindexCommand :
    (∃ s : State, s.Inv ∧ s.cfg = true ∧ refindexLegal s) ∧ refindexLegal (demo #v[0, 0, 3, 1, 0, 0]) := by
  refine ⟨⟨demo #v[0, 1, 3, 1, 1, 0], demo_inv _, rfl, ?_⟩, ?_⟩ <;> unfold refindexLegal <;> decide +kernel

theorem witness_ReferenceInvariants :
    (∃ s : State, s.Inv ∧ s.cfg = true ∧ s.legalPosition 1 3 1 1) ∧ demo0.legalPosition 0 1 0 0 := by
  refine ⟨⟨demo0, demo0_inv, rfl, ?_⟩, ?_⟩ <;> unfold State.legalPosition <;> decide +kernel

theorem witness_FsegCommand :
    (∃ s : State, s.Inv ∧ s.cfg = true ∧ s.args[0].toNat < s.iter ∧ s.args[1].toNat < 4 ∧ s.args[2].toNat < s.lanes ∧
      s.fillable s.args[0].toNat s.args[1].toNat ∧ s.dataIndependent 1 3 = true) ∧
    ({ demo0 with params := { demoParams with type := 0 } }).dataIndependent 0 0 = false :=
  ⟨⟨demo #v[1, 3, 1, 0, 0, 0], demo_inv _, rfl, by decide +kernel, by decide +kernel, by decide +kernel,
    demo_fillable _ _ _, by decide +kernel⟩, by decide +kernel⟩

/-- In pass 1 of a v = 0x13 machine every index is from startIndex on, and the XOR policy holds. -/
theorem witness_SegmentSatisfiesTheRecurrence :
    (∃ s : State, s.Inv ∧ s.cfg = true ∧ s.args[0].toNat < s.iter ∧ s.args[1].toNat < 4 ∧ s.args[2].toNat < s.lanes ∧
      s.fillable s.args[0].toNat s.args[1].toNat) ∧
    (startIndex 1 0 ≤ 0 ∧ 0 < demo0.segLen ∧ 0 < 1 ∧ demo0.params.version = 0x13) ∧
    (startIndex 0 1 ≤ 1 ∧ 1 < demo0.segLen ∧ ¬(0 < 0 ∧ demo0.params.version = 0x13)) :=
  ⟨⟨demo #v[1, 0, 1, 0, 0, 0], demo_inv _, rfl, by decide +kernel, by decide +kernel, by decide +kernel,
    demo_fillable _ _ _⟩, by decide +kernel, by decide +kernel⟩

theorem witness_LaneOrderDoesNotMatter :
    ∃ (s : State) (pass slice a b : Word), s.Inv ∧ s.cfg = true ∧ pass.toNat < s.iter ∧ slice.toNat < 4 ∧
      a.toNat < s.lanes ∧ b.toNat < s.lanes ∧ a ≠ b ∧ s.fillable pass.toNat slice.toNat :=
  ⟨demo0, 1, 3, 0, 1, demo0_inv, rfl, by decide +kernel, by decide +kernel, by decide +kernel, by decide +kernel,
    by decide, demo_fillable _ _ _⟩

/-- The demo machine with another TYPE meets the invariant. -/
theorem demo_inv_type (y : Half) (hc : checkConfig { demoParams with type := y } demo0.caps = none) :
    ({ demo0 with params := { demoParams with type := y } } : State).Inv :=
  ⟨demo0_inv.capBlocks, demo0_inv.capMsg, demo0_inv.capObuf, demo0_inv.mtxWf, demo0_inv.msgWf, demo0_inv.obufWf,
    demo0_inv.mtxBelow, demo0_inv.msgBelow, demo0_inv.obufBelow, demo0_inv.oneEnd, demo0_inv.busyClear,
    demo0_inv.errCodeNone, fun _ => ⟨hc, rfl⟩, fun h => absurd h (show ¬(true = false) by decide)⟩

/-- A seeded machine of each TYPE. -/
theorem witness_FmatrixCommand :
    ∀ y ∈ [(0 : Half), 1, 2], ∃ s : State, s.Inv ∧ s.cfg = true ∧ s.seeded ∧ s.params.type = y := by
  intro y hy
  refine ⟨{ demo0 with params := { demoParams with type := y } }, demo_inv_type y ?_, rfl,
    fun l hl => ⟨demo0_specified (l * 8 + 0) ?_, demo0_specified (l * 8 + 1) ?_⟩, rfl⟩
  · simp only [List.mem_cons, List.not_mem_nil, or_false] at hy
    rcases hy with rfl | rfl | rfl <;> decide +kernel
  all_goals
    have : l < 2 := hl
    omega

theorem witness_H0Command :
    ∃ (s : State) (P S K X : List Byte), s.cfg = true ∧ P.length = s.params.pwdLen.toNat ∧
      S.length = s.params.saltLen.toNat ∧ K.length = s.params.secretLen.toNat ∧ X.length = s.params.adLen.toNat ∧
      (∀ j, j < s.inputBytes → s.msg.read j = (P ++ S ++ K ++ X)[j]?) :=
  ⟨demo0, [0x61], [], [], [], by decide +kernel⟩

theorem witness_SeedCommand : ∃ s : State, s.Inv ∧ s.cfg = true := ⟨demo0, demo0_inv, rfl⟩

theorem witness_FinalCommand :
    ∃ (s : State) (C : Nat → Block), s.Inv ∧ s.cfg = true ∧
      (∀ l, l < s.lanes → s.mtx.read (l * s.laneLen + (s.laneLen - 1)) = some (C l)) :=
  ⟨demo0, fun _ => zeroBlock, demo0_inv, rfl, by decide +kernel⟩

theorem demo0_input : demo0.msgSpecified 0 demo0.inputBytes := by unfold State.msgSpecified; decide +kernel

theorem witness_DeriveEqualsThePrimitiveSequence :
    ∃ s : State, s.Inv ∧ checkConfig s.params s.caps = none ∧ s.msgSpecified 0 s.inputBytes ∧ 0 < s.inputBytes :=
  ⟨demo0, demo0_inv, by decide +kernel, demo0_input, by decide +kernel⟩

theorem witness_DeriveCompletesAndZeroizes :
    ∃ s : State, s.Inv ∧ checkConfig s.params s.caps = none ∧ s.msgSpecified 0 s.inputBytes :=
  ⟨demo0, demo0_inv, by decide +kernel, demo0_input⟩

theorem witness_ZeroizeCommand :
    ∃ s : State, Memory.wf s.mtx ∧ Memory.wf s.msg ∧ Memory.wf s.obuf :=
  ⟨demo0, demo0_inv.mtxWf, demo0_inv.msgWf, demo0_inv.obufWf⟩

/-- An idle machine, a command statement with operands, and LOADMSG up to the end of the MSG window. -/
theorem witness_StatementRunsToItsEnd :
    demo0.busy = false ∧ Memory.wf demo0.msg ∧ (Stmt.command .bxor [15, 15, 0x8000000000000000]).wellFormed = true ∧
      (Stmt.command .anext []).wellFormed = true ∧ (Stmt.loadmsg 0xFFF0 (List.replicate 9 0x61)).wellFormed = true ∧
      (∃ u, exec .nop { demo0 with latch := some (encode .nop) } = .next u) ∧
      (∃ f, exec .fmatrix { blank (Vector.replicate 6 0) with latch := some (encode .fmatrix) } = .fault f) :=
  ⟨rfl, demo0_inv.msgWf, rfl, rfl, by decide +kernel, ⟨_, rfl⟩, ⟨.unspecRead (.mtx 0), by rfl⟩⟩

end Sys2Proof.Tests
end

section
/-! PROOF. What one step and one command can do: the input a step takes, and every end a command can come to
(spec/45_engine.md R270, spec/60_exceptions.md R310, R318). -/

namespace Sys2Proof.Machine

/-! ### One step -/

/-- A step is one input: the first of the agenda, or the core's turn when the agenda is empty. -/
theorem step_eq_event (s : State) : ∃ e l, step s = (s.setAgenda l).event e := by
  cases hl : s.agenda with
  | nil =>
    have hs : s.setAgenda [] = s := by rw [← hl]; rfl
    exact ⟨.core, [], by rw [step_nil hl, hs]; rfl⟩
  | cons e l => exact ⟨e, l, step_cons hl⟩

/-- Everything one input can answer. -/
inductive State.Answers (s : State) : State → Prop
  | idle : Answers s s
  | illegal {v : Word} (hv : s.latch = some v) : Answers s (s.raiseError .illegalCmd)
  | command {v : Word} {i : Instr} {t : State} (hv : s.latch = some v) (h : exec i s = .next t) : Answers s t
  | read (off : Nat) : Answers s (s.hostRead off)
  | write (off : Nat) (v : Word) : Answers s (s.hostWrite off v)
  | reset : Answers s s.hardReset

/-- The core's turn idles, rejects the latched value, or runs the command it decodes to (R111, R270). -/
theorem State.coreTurn_answers {s t : State} (h : s.coreTurn = .next t) : s.Answers t := by
  cases hv : s.latch with
  | none =>
    rw [State.coreTurn_idle hv] at h
    cases h
    exact .idle
  | some v =>
    rw [State.coreTurn_busy hv] at h
    cases hd : decode v with
    | command i => exact .command hv (State.perform_command hd ▸ h)
    | illegal e =>
      rw [State.perform_illegal hd] at h
      cases h
      exact .illegal hv

theorem State.event_answers {s t : State} {e : Event} (h : s.event e = .next t) : s.Answers t := by
  cases e with
  | core => exact State.coreTurn_answers h
  | reset =>
    cases h
    exact .reset
  | host a =>
    obtain ⟨-, rfl⟩ := State.hostAccess_eq_next.1 h
    cases a with
    | read off w => exact .read off
    | write off w v => exact .write off v

/-- Everything one step can do: an input is taken from the agenda, and the machine answers it. -/
theorem step_answers {s t : State} (h : step s = .next t) : ∃ l, (s.setAgenda l).Answers t := by
  obtain ⟨e, l, he⟩ := step_eq_event s
  exact ⟨l, State.event_answers (he ▸ h)⟩

/-! ### The record of a read of an unspecified register -/

/-- The commands that read a working block or H0 and so can record UNSPEC_READ (R61, R327). -/
abbrev registerReaders : List Instr := [.bxor, .btobytes, .pround, .fblock, .fblockx, .anext, .aword, .seed]

/-- n is s, but that a command that reads registers may have recorded an UNSPEC_READ. -/
structure State.Recorded (s : State) (i : Instr) (n : State) : Prop where
  frame : n = { s with unspecRead := n.unspecRead }
  mono : s.unspecRead = true → n.unspecRead = true
  only : i ∉ registerReaders → n.unspecRead = s.unspecRead

theorem State.Recorded.refl (s : State) (i : Instr) : s.Recorded i s := ⟨rfl, id, fun _ => rfl⟩

theorem State.Recorded.note {s n : State} {i : Instr} (h : s.Recorded i n) (hi : i ∈ registerReaders) (b : Bool) :
    s.Recorded i (n.note b) where
  frame := by rw [h.frame]; rfl
  mono hs := by simp [h.mono hs]
  only hni := absurd hi hni

theorem State.Recorded.noteBlock {s n : State} {i : Instr} (h : s.Recorded i n) (hi : i ∈ registerReaders)
    (r : BlockRef) : s.Recorded i (n.noteBlock r) := by
  cases r with
  | mtx k => exact h
  | wb r => exact h.note hi _

/-! ### The effect of a command -/

/-- Everything a command whose checks pass can do before it completes. -/
inductive State.Effect (s : State) : Instr → State → Prop
  | nop : Effect s .nop s
  | config (h : checkConfig s.params s.caps = none) : Effect s .config (s.configure (geometryOf s.params))
  | derive {u : State} (h : checkConfig s.params s.caps = none)
      (hu : (s.configure (geometryOf s.params)).deriveBody = .ok u) : Effect s .derive u
  | zeroize : Effect s .zeroize s.zeroize
  | block {i : Instr} {n : State} {d : BlockRef}
      (hi : i ∈ [Instr.bxor, .bclear, .bfrombytes, .pround, .fblock, .fblockx])
      (hn : s.Recorded i n) (hd : s.destBlock 0 = some d) (C : Block) : Effect s i (n.writeBlock d C)
  | obuf {i : Instr} {n : State} {off : Nat} {bs : List Byte} (hi : i ∈ [Instr.hprime, .btobytes])
      (hn : s.Recorded i n) (hlen : off + bs.length ≤ s.caps.obufBytes) : Effect s i (n.writeObuf off bs)
  | res {i : Instr} {n : State} (hi : i ∈ [Instr.blamka, .gmix, .aword, .refindex])
      (hn : s.Recorded i n) (r : Vector Word 4) : Effect s i { n with res := r }
  | working {i : Instr} {n : State} (hi : i ∈ [Instr.ainit, .anext])
      (hn : s.Recorded i n) (w : Working) : Effect s i { n with wb := w }
  | fseg {pass slice lane : Nat} {u : State} (hc : s.cfg = true) (hs : slice < 4) (hl : lane < s.lanes)
      (hu : s.fillSegment pass slice lane = .ok u) : Effect s .fseg u
  | fmatrix {u : State} (hc : s.cfg = true) (hu : s.fillMatrix = .ok u) : Effect s .fmatrix u
  | h0 {u : State} (hc : s.cfg = true) (hu : s.deriveH0 = .ok u) : Effect s .h0 u
  | seed {u : State} (hc : s.cfg = true) (hu : s.noteH0.seedMatrix = .ok u) : Effect s .seed u
  | final {u : State} (hc : s.cfg = true) (hu : s.finalize = .ok u) : Effect s .final u

/-- Everything a command that answers can come to: a core error, with the configuration cleared besides after a
CheckConfig failure (R274, R318), or its effect and completion (R270). -/
inductive State.Ends (s : State) (i : Instr) : State → Prop
  | error {e : ErrCode} (he : e ≠ .none) : Ends s i (s.raiseError e)
  | badConfig {e : ErrCode} (he : e ≠ .none) (hi : i ∈ [Instr.config, .derive]) :
      Ends s i (s.clearConfig.raiseError e)
  | complete {u : State} (h : s.Effect i u) : Ends s i u.complete

variable {s t u : State} {i : Instr}

theorem finish_ends {x : Except Fault State} (h : finish x = .next t) (hx : ∀ u, x = .ok u → s.Effect i u) :
    s.Ends i t := by
  obtain ⟨u, hu, rfl⟩ := finish_eq_next.1 h
  exact .complete (hx u hu)

theorem finish_ok_ends {u : State} (h : finish (.ok u) = .next t) (hu : s.Effect i u) : s.Ends i t := by
  cases h
  exact .complete hu

theorem failWith_badOperand_ends (h : failWith s .badOperand = .next t) : s.Ends i t := by
  rw [failWith_eq_next] at h
  exact h ▸ .error (by decide)

theorem requireConfigured_ends {b : Step} (h : requireConfigured s b = .next t)
    (hb : s.cfg = true → b = .next t → s.Ends i t) : s.Ends i t := by
  rw [requireConfigured_eq] at h
  split at h
  · next hc => exact hb hc h
  · cases h
    exact .error (by decide)

theorem requireOperands_ends {ok : Bool} {b : Step} (h : requireOperands s ok b = .next t)
    (hb : ok = true → b = .next t → s.Ends i t) : s.Ends i t := by
  rw [requireOperands_eq] at h
  split at h
  · next hok => exact hb hok h
  · cases h
    exact .error (by decide)

/-- A command that checks its configuration first fails, or goes on with CheckConfig passed (R272, R296). -/
theorem checkConfig_ends {b : Step} (hi : i ∈ [Instr.config, .derive])
    (hm : (match checkConfig s.params s.caps with | some e => failConfig s e | none => b) = .next t)
    (hb : checkConfig s.params s.caps = none → b = .next t → s.Ends i t) : s.Ends i t := by
  split at hm
  · next e he =>
    rw [failConfig, failWith_eq_next] at hm
    exact hm ▸ .badConfig (checkConfig_ne_none he) hi
  · next hc => exact hb hc hm

/-! ### H' has the length asked for (spec/40_vlhash.md R140) -/

@[simp] theorem hprime_length (X : List Byte) (T : Nat) : (hprime X T).length = T := by
  unfold hprime
  split
  · next hT => exact blake2b_length _ hT
  · next hT =>
    rw [hprimeChain_length _ _ _ (blake2b_length _ (le_refl 64)) (by unfold hprimeChunks; omega)]
    unfold hprimeChunks
    omega

/-! ### The ends of each command -/

theorem execNop_ends (h : execNop s = .next t) : s.Ends .nop t := finish_ok_ends h .nop

theorem execConfig_ends (h : execConfig s = .next t) : s.Ends .config t :=
  checkConfig_ends (by simp) h fun hc h => finish_ok_ends h (.config hc)

theorem execDerive_ends (h : execDerive s = .next t) : s.Ends .derive t :=
  checkConfig_ends (by simp) h fun hc h => finish_ends h fun _ hu => .derive hc hu

theorem execZeroize_ends (h : execZeroize s = .next t) : s.Ends .zeroize t := finish_ok_ends h .zeroize

theorem execHprime_ends (h : execHprime s = .next t) : s.Ends .hprime t := by
  refine requireOperands_ends h fun hok h => finish_ends h fun u hu => ?_
  simp only [State.hprimeLenOk, Bool.and_eq_true, decide_eq_true_eq] at hok
  simp only [bind_eq_ok, pure_eq_ok] at hu
  obtain ⟨X, -, rfl⟩ := hu
  exact .obuf (by simp) (.refl s _) (by simpa using hok.2.2)

theorem execBtobytes_ends (h : execBtobytes s = .next t) : s.Ends .btobytes t := by
  unfold execBtobytes at h
  split at h
  · next a ha =>
    refine requireOperands_ends h fun hok h => finish_ends h fun u hu => ?_
    simp only [bind_eq_ok, pure_eq_ok] at hu
    obtain ⟨B, -, rfl⟩ := hu
    exact .obuf (by simp) ((State.Recorded.refl s _).noteBlock (by simp) a)
      (by simpa [rangeOk, Config.blockBytes] using hok)
  · exact failWith_badOperand_ends h

theorem execBxor_ends (h : execBxor s = .next t) : s.Ends .bxor t := by
  unfold execBxor at h
  split at h
  · next d a b hd ha hb =>
    refine finish_ends h fun u hu => ?_
    simp only [bind_eq_ok, pure_eq_ok] at hu
    obtain ⟨A, -, B, -, rfl⟩ := hu
    exact .block (by simp) (((State.Recorded.refl s _).noteBlock (by simp) a).noteBlock (by simp) b) hd _
  · exact failWith_badOperand_ends h

theorem execFblock_ends (h : execFblock s = .next t) : s.Ends .fblock t := by
  unfold execFblock at h
  split at h
  · next d x y hd hx hy =>
    refine finish_ends h fun u hu => ?_
    simp only [bind_eq_ok, pure_eq_ok] at hu
    obtain ⟨X, -, Y, -, rfl⟩ := hu
    exact .block (by simp) (((State.Recorded.refl s _).noteBlock (by simp) x).noteBlock (by simp) y) hd _
  · exact failWith_badOperand_ends h

theorem execFblockx_ends (h : execFblockx s = .next t) : s.Ends .fblockx t := by
  unfold execFblockx at h
  split at h
  · next d x y hd hx hy =>
    refine finish_ends h fun u hu => ?_
    simp only [bind_eq_ok, pure_eq_ok] at hu
    obtain ⟨X, -, Y, -, D, -, rfl⟩ := hu
    exact .block (by simp) ((((State.Recorded.refl s _).noteBlock (by simp) x).noteBlock (by simp) y).noteBlock
      (by simp) d) hd _
  · exact failWith_badOperand_ends h

theorem execBclear_ends (h : execBclear s = .next t) : s.Ends .bclear t := by
  unfold execBclear at h
  split at h
  · next d hd =>
    exact finish_ok_ends h (.block (by simp) (.refl s _) hd _)
  · exact failWith_badOperand_ends h

theorem execBfrombytes_ends (h : execBfrombytes s = .next t) : s.Ends .bfrombytes t := by
  unfold execBfrombytes at h
  split at h
  · next d hd =>
    refine requireOperands_ends h fun _ h => finish_ends h fun u hu => ?_
    simp only [bind_eq_ok, pure_eq_ok] at hu
    obtain ⟨bs, -, rfl⟩ := hu
    exact .block (by simp) (.refl s _) hd _
  · exact failWith_badOperand_ends h

theorem execPround_ends (h : execPround s = .next t) : s.Ends .pround t := by
  unfold execPround at h
  split at h
  · next d hd =>
    refine requireOperands_ends h fun _ h => finish_ends h fun u hu => ?_
    simp only [bind_eq_ok, pure_eq_ok] at hu
    obtain ⟨Z, -, rfl⟩ := hu
    exact .block (by simp) ((State.Recorded.refl s _).noteBlock (by simp) d) hd _
  · exact failWith_badOperand_ends h

theorem execRefindex_ends (h : execRefindex s = .next t) : s.Ends .refindex t :=
  requireConfigured_ends h fun _ h => requireOperands_ends h fun _ h =>
    finish_ok_ends h (.res (by simp) (.refl s _) _)

theorem execBlamka_ends (h : execBlamka s = .next t) : s.Ends .blamka t :=
  finish_ok_ends h (.res (by simp) (.refl s _) _)

theorem execGmix_ends (h : execGmix s = .next t) : s.Ends .gmix t :=
  finish_ok_ends h (.res (by simp) (.refl s _) _)

theorem execAword_ends (h : execAword s = .next t) : s.Ends .aword t :=
  finish_ok_ends h (.res (by simp) ((State.Recorded.refl s _).note (by simp) _) _)

theorem execAinit_ends (h : execAinit s = .next t) : s.Ends .ainit t :=
  requireConfigured_ends h fun _ h => requireOperands_ends h fun _ h =>
    finish_ok_ends h (.working (by simp) (.refl s _) _)

theorem execAnext_ends (h : execAnext s = .next t) : s.Ends .anext t :=
  finish_ok_ends h (.working (by simp) ((State.Recorded.refl s _).note (by simp) _) _)

theorem execFseg_ends (h : execFseg s = .next t) : s.Ends .fseg t :=
  requireConfigured_ends h fun hc h => requireOperands_ends h fun hok h => finish_ends h fun u hu => by
    simp only [State.laneOk, sliceOk, Config.syncPoints, Bool.and_eq_true, decide_eq_true_eq] at hok
    obtain ⟨⟨-, hs⟩, hl⟩ := hok
    exact .fseg hc hs hl hu

theorem execFmatrix_ends (h : execFmatrix s = .next t) : s.Ends .fmatrix t :=
  requireConfigured_ends h fun hc h => finish_ends h fun u hu => by
    obtain ⟨v, hv, hfill⟩ := bind_eq_ok.1 hu
    obtain ⟨-, rfl⟩ := State.checkSeeds_eq_ok.1 hv
    exact .fmatrix hc hfill

theorem execH0_ends (h : execH0 s = .next t) : s.Ends .h0 t :=
  requireConfigured_ends h fun hc h => finish_ends h fun _ hu => .h0 hc hu

theorem execSeed_ends (h : execSeed s = .next t) : s.Ends .seed t :=
  requireConfigured_ends h fun hc h => finish_ends h fun _ hu => .seed hc hu

theorem execFinal_ends (h : execFinal s = .next t) : s.Ends .final t :=
  requireConfigured_ends h fun hc h => finish_ends h fun _ hu => .final hc hu

/-- Everything a command can come to. -/
theorem exec_ends (h : exec i s = .next t) : s.Ends i t := by
  cases i with
  | nop => exact execNop_ends h
  | config => exact execConfig_ends h
  | derive => exact execDerive_ends h
  | zeroize => exact execZeroize_ends h
  | hprime => exact execHprime_ends h
  | bxor => exact execBxor_ends h
  | bclear => exact execBclear_ends h
  | btobytes => exact execBtobytes_ends h
  | bfrombytes => exact execBfrombytes_ends h
  | blamka => exact execBlamka_ends h
  | gmix => exact execGmix_ends h
  | pround => exact execPround_ends h
  | fblock => exact execFblock_ends h
  | fblockx => exact execFblockx_ends h
  | ainit => exact execAinit_ends h
  | anext => exact execAnext_ends h
  | aword => exact execAword_ends h
  | refindex => exact execRefindex_ends h
  | fseg => exact execFseg_ends h
  | fmatrix => exact execFmatrix_ends h
  | h0 => exact execH0_ends h
  | seed => exact execSeed_ends h
  | final => exact execFinal_ends h

/-! ### What the bodies of the commands write -/

theorem State.writeBlock_frame (s : State) (d : BlockRef) (B : Block) : FillFrame s (s.writeBlock d B) := by
  cases d <;> rfl

/-- SEED writes matrix blocks and nothing else (R288). -/
theorem State.seedMatrix_frame (ht : s.seedMatrix = .ok t) : FillFrame s t ∧ t.wb = s.wb := by
  refine forRange_invariant (P := fun _ u => FillFrame s u ∧ u.wb = s.wb) ?_ ⟨.refl s, rfl⟩ ht
  rintro lane u u' - - ⟨hf, hwb⟩ hb
  cases hb
  exact ⟨hf.trans (u.seedLane_frame _ lane).1, hwb⟩

/-- The five bodies DERIVE runs one after another (R296). -/
theorem State.deriveBody_eq_ok :
    s.deriveBody = .ok t ↔ ∃ a b c d, s.deriveH0 = .ok a ∧ a.seedMatrix = .ok b ∧ b.fillMatrix = .ok c ∧
      c.finalize = .ok d ∧ t = d.cleanup := by
  unfold State.deriveBody
  simp only [bind_eq_ok, pure_eq_ok]
  constructor
  · rintro ⟨a, ha, b, hb, c, hc, d, hd, rfl⟩
    exact ⟨a, b, c, d, ha, hb, hc, hd, rfl⟩
  · rintro ⟨a, b, c, d, ha, hb, hc, hd, rfl⟩
    exact ⟨a, ha, b, hb, c, hc, d, hd, rfl⟩

/-- The H0 body writes H0 and nothing else (R282). -/
theorem State.deriveH0_frame (ht : s.deriveH0 = .ok t) : t = { s with h0 := t.h0 } := by
  obtain ⟨_, _, _, _, -, -, -, -, rfl⟩ := State.deriveH0_eq_ok.1 ht
  rfl

/-- The FINAL body writes FIN and OBUF and nothing else (R292). -/
theorem State.finalize_frame (ht : s.finalize = .ok t) : t = { s with wb := t.wb, obuf := t.obuf } := by
  obtain ⟨B, -, rfl⟩ := State.finalize_eq_ok.1 ht
  rfl

/-- Filling touches the matrix and the working blocks only. -/
theorem fillKeeps_true (pass : Nat) : FillKeeps pass fun _ => True :=
  ⟨fun _ _ _ _ _ _ _ _ _ _ _ => trivial, fun _ _ _ _ _ _ => trivial⟩

theorem State.fillMatrix_frame (ht : s.fillMatrix = .ok t) : FillFrame s t :=
  (State.fillMatrix_keeps fillKeeps_true trivial ht).2

theorem State.fillSegment_frame {pass slice lane : Nat} (hs : slice < 4) (hl : lane < s.lanes)
    (ht : s.fillSegment pass slice lane = .ok t) : FillFrame s t :=
  (State.fillSegment_keeps (fillKeeps_true pass) hs hl trivial ht).2

/-- DERIVE's steps 2 to 7 write MTX, WB1 .. WB7, H0 and OBUF and nothing else (R296). -/
theorem State.deriveBody_frame (ht : s.deriveBody = .ok t) :
    t = { s with mtx := t.mtx, wb := t.wb, h0 := t.h0, obuf := t.obuf } := by
  obtain ⟨a, b, c, d, ha, hb, hc, hd, rfl⟩ := State.deriveBody_eq_ok.1 ht
  unfold State.cleanup
  rw [State.finalize_frame hd, State.fillMatrix_frame hc, (State.seedMatrix_frame hb).1, State.deriveH0_frame ha]

/-- The frame of every effect: what no command writes but to end (R62, R270). -/
theorem State.Effect.frame (h : s.Effect i u) :
    u = { s with
      cfg := u.cfg, geom := u.geom, args := u.args, res := u.res, mtx := u.mtx, wb := u.wb, h0 := u.h0,
      msg := u.msg, obuf := u.obuf, unspecRead := u.unspecRead } := by
  cases h with
  | nop | config | zeroize => rfl
  | derive _ hu => exact State.deriveBody_frame hu ▸ rfl
  | @block _ n d _ hn _ C => exact State.writeBlock_frame n d C ▸ hn.frame ▸ rfl
  | obuf _ hn | res _ hn | working _ hn => exact hn.frame ▸ rfl
  | fseg _ hs hl hu => exact State.fillSegment_frame hs hl hu ▸ rfl
  | fmatrix _ hu => exact State.fillMatrix_frame hu ▸ rfl
  | h0 _ hu => exact State.deriveH0_frame hu ▸ rfl
  | seed _ hu => exact (State.seedMatrix_frame hu).1 ▸ rfl
  | final _ hu => exact State.finalize_frame hu ▸ rfl

end Sys2Proof.Machine
end

section
/-! PROOF. Every operation of the machine keeps the invariant of every run, so every step does (spec/10_state.md R43,
R48, R50, R55, R56; spec/60_exceptions.md R311). -/

namespace Sys2Proof.Machine

variable {s t u : State} {i : Instr}

/-! ### Operations on one field -/

theorem State.Inv.setAgenda (h : s.Inv) (l : List Event) : (s.setAgenda l).Inv := { h with }

theorem State.Inv.hostRead (h : s.Inv) (off : Nat) : (s.hostRead off).Inv := { h with }

theorem State.Inv.writeCtrl (h : s.Inv) (v : Word) : (s.writeCtrl v).Inv := { h with }

theorem State.Inv.writeArg (h : s.Inv) (n : Fin 6) (v : Word) : (s.writeArg n v).Inv := { h with }

theorem State.Inv.ignoreWrite (h : s.Inv) : s.ignoreWrite.Inv := { h with }

theorem State.Inv.writeH0 (h : s.Inv) (v : Vector Byte 64) : (s.writeH0 v).Inv := { h with }

theorem State.Inv.setRes (h : s.Inv) (r : Vector Word 4) : State.Inv { s with res := r } := { h with }

theorem State.Inv.setWb (h : s.Inv) (w : Working) : State.Inv { s with wb := w } := { h with }

theorem State.Inv.recorded (h : s.Inv) (hn : s.Recorded i t) : t.Inv := by
  rw [hn.frame]
  exact { h with }

theorem State.Inv.writeMtx (h : s.Inv) {k : Nat} (hk : k < s.caps.maxBlocks) (B : Block) : (s.writeMtx k B).Inv :=
  { h with
    mtxWf := Memory.wf_write h.mtxWf k B
    mtxBelow := Memory.below_write h.mtxBelow hk B }

theorem State.Inv.writeObuf (h : s.Inv) {off : Nat} {bs : List Byte} (hn : off + bs.length ≤ s.caps.obufBytes) :
    (s.writeObuf off bs).Inv :=
  { h with
    obufWf := Memory.wf_writeRange h.obufWf off bs
    obufBelow := Memory.below_writeRange h.obufBelow off bs (.inr hn) }

/-! ### Host writes -/

/-- A write of a buffer window stores nothing at or beyond the capacity (R82). -/
theorem windowWrite_below {m : Memory Byte} {cap : Nat} (h : m.below cap) (k : Nat) (v : Word) :
    (windowWrite m cap k v).below cap := by
  refine Memory.below_writeRange h k _ ?_
  rcases Nat.lt_or_ge k cap with hk | hk
  · right
    simp only [List.length_take]
    omega
  · left
    simp [Nat.sub_eq_zero_of_le hk]

theorem State.Inv.writeStatus (h : s.Inv) (v : Word) : (s.writeStatus v).Inv :=
  { h with
    oneEnd := by
      simp only [State.writeStatus_done, State.writeStatus_err, Bool.and_eq_true]
      exact fun ⟨hd, he⟩ => h.oneEnd ⟨hd.1, he.1⟩
    busyClear := fun hb => by
      obtain ⟨hd, he⟩ := h.busyClear hb
      simp [hd, he]
    errCodeNone := by
      simp only [State.writeStatus_err, State.writeStatus_errCode]
      cases v.getLsbD 2 <;> simp [h.errCodeNone] }

theorem State.Inv.issue (h : s.Inv) (v : Word) : (s.issue v).Inv :=
  { h with
    oneEnd := by simp
    busyClear := fun _ => ⟨rfl, rfl⟩
    errCodeNone := by simp }

theorem State.Inv.clearConfig (h : s.Inv) : s.clearConfig.Inv :=
  { h with
    configured := fun hc => absurd hc (by simp)
    unconfigured := fun _ => rfl }

theorem State.Inv.writeParam (h : s.Inv) (p : ParamReg) (v : Word) : (s.writeParam p v).Inv :=
  { h with
    configured := fun hc => absurd hc (by simp)
    unconfigured := fun _ => rfl }

theorem State.Inv.writeIdle (h : s.Inv) (v : Word) (r : HostReg) : (s.writeIdle v r).Inv := by
  cases r with
  | ctrl => exact h.writeCtrl v
  | status => exact h.writeStatus v
  | cmd => exact h.issue v
  | param p => exact h.writeParam p v
  | arg n => exact h.writeArg n v
  | msg k =>
    exact { h with
      msgWf := Memory.wf_writeRange h.msgWf _ _
      msgBelow := windowWrite_below h.msgBelow k v }
  | obuf k =>
    exact { h with
      obufWf := Memory.wf_writeRange h.obufWf _ _
      obufBelow := windowWrite_below h.obufBelow k v }
  | memBlocks | segLen | laneLen | res | capBlocks | capMsg | capObuf | reserved => exact h

/-- What a write while BUSY = 1 can do (R92). -/
theorem State.writeBusy_cases (s : State) (v : Word) (r : HostReg) :
    s.writeBusy v r = s.writeCtrl v ∨ s.writeBusy v r = s.writeStatus v ∨ s.writeBusy v r = s.ignoreWrite := by
  cases r with
  | ctrl => exact .inl rfl
  | status => exact .inr (.inl rfl)
  | _ => exact .inr (.inr rfl)

theorem State.Inv.hostWrite (h : s.Inv) (off : Nat) (v : Word) : (s.hostWrite off v).Inv := by
  unfold State.hostWrite
  split
  · rcases s.writeBusy_cases v (hostReg off) with hw | hw | hw <;> rw [hw]
    · exact h.writeCtrl v
    · exact h.writeStatus v
    · exact h.ignoreWrite
  · exact h.writeIdle v _

/-! ### The ends of a command -/

theorem State.Inv.complete (h : s.Inv) (hb : s.busy = true) : s.complete.Inv :=
  { h with
    oneEnd := by simp [(h.busyClear hb).2]
    busyClear := by simp }

theorem State.Inv.raiseError (h : s.Inv) (hb : s.busy = true) {e : ErrCode} (he : e ≠ .none) :
    (s.raiseError e).Inv :=
  { h with
    oneEnd := by simp [(h.busyClear hb).1]
    busyClear := by simp
    errCodeNone := by simpa using he }

theorem State.Inv.hardReset (h : s.Inv) : s.hardReset.Inv :=
  { h with
    mtxWf := Memory.wf_nil
    msgWf := Memory.wf_nil
    obufWf := Memory.wf_nil
    mtxBelow := by simp
    msgBelow := by simp
    obufBelow := by simp
    oneEnd := by simp
    busyClear := by simp
    errCodeNone := by simp
    configured := by simp
    unconfigured := fun _ => rfl }

/-! ### Effects of commands -/

theorem State.Inv.configure (h : s.Inv) (hc : checkConfig s.params s.caps = none) :
    (s.configure (geometryOf s.params)).Inv :=
  { h with
    configured := fun _ => ⟨hc, rfl⟩
    unconfigured := fun hf => absurd hf (by simp) }

/-- A change of the matrix and the working blocks inside the bank. -/
theorem State.Inv.fillFrame (h : s.Inv) (hf : FillFrame s t) (hw : Memory.wf t.mtx)
    (hb : t.mtx.below s.caps.maxBlocks) : t.Inv := by
  rw [hf]
  exact { h with mtxWf := hw, mtxBelow := hb }

theorem State.Inv.writeBlock (h : s.Inv) {d : BlockRef} (hd : ∀ k, d = .mtx k → k < s.caps.maxBlocks) (B : Block) :
    (s.writeBlock d B).Inv := by
  cases d with
  | mtx k => exact h.writeMtx (hd k rfl) B
  | wb r => exact h.setWb _

/-- A matrix block that a destination selector names is below MEMBLOCKS (R116, R117). -/
theorem State.destBlock_lt {n : Fin 6} {k : Nat} (h : s.destBlock n = some (.mtx k)) : k < s.memBlocks := by
  have hs : s.sourceBlock n = some (.mtx k) := by
    unfold State.destBlock at h
    split at h
    · cases h
    · exact h
  unfold State.sourceBlock blockOfSelector at hs
  split_ifs at hs with _ hlt
  · cases hs
    exact hlt
  · cases hs

/-- What every block computation of a fill keeps, a fill of a whole segment or of the matrix keeps. -/
theorem State.Inv.fillSegment {pass slice lane : Nat} (h : s.Inv) (hc : s.cfg = true) (hs : slice < 4)
    (hl : lane < s.lanes) (ht : s.fillSegment pass slice lane = .ok t) : t.Inv := by
  obtain ⟨⟨-, hw, hb⟩, hf⟩ :=
    State.fillSegment_keeps (fillKeeps_mtx pass) hs hl ⟨h.geom hc, h.mtxWf, h.mtxBelow⟩ ht
  exact h.fillFrame hf hw (hf.caps ▸ hb)

theorem State.Inv.fillMatrix (h : s.Inv) (hc : s.cfg = true) (ht : s.fillMatrix = .ok t) : t.Inv := by
  obtain ⟨⟨-, hw, hb⟩, hf⟩ := State.fillMatrix_keeps fillKeeps_mtx ⟨h.geom hc, h.mtxWf, h.mtxBelow⟩ ht
  exact h.fillFrame hf hw (hf.caps ▸ hb)

theorem State.Inv.seedLane (h : s.Inv) (hc : s.cfg = true) (v : Vector Byte 64) {lane : Nat} (hl : lane < s.lanes) :
    (s.seedLane v lane).Inv := by
  have hg := h.geom hc
  have hlt : ∀ c, c < 2 → flatIndex s.laneLen lane c < s.caps.maxBlocks := fun c hc2 => by
    have h1 := flatIndex_lt (q := s.laneLen) (c := c) hl (by have := hg.laneLen_eq; have := hg.seg_ge; omega)
    have h2 := hg.memBlocks_eq
    have h3 := hg.memBlocks_le
    omega
  exact (h.writeMtx (hlt 0 (by omega)) _).writeMtx (hlt 1 (by omega)) _

theorem State.Inv.seedMatrix (h : s.Inv) (hc : s.cfg = true) (ht : s.seedMatrix = .ok t) : t.Inv := by
  refine (forRange_invariant (P := fun _ u => FillFrame s u ∧ u.Inv) ?_ ⟨.refl s, h⟩ ht).2
  rintro lane u u' - hlt ⟨hf, hu⟩ hb
  cases hb
  refine ⟨hf.trans (u.seedLane_frame _ lane).1, hu.seedLane ?_ _ ?_⟩
  · rw [hf]
    exact hc
  · rw [hf.lanes]
    omega

theorem State.Inv.deriveH0 (h : s.Inv) (ht : s.deriveH0 = .ok t) : t.Inv := by
  obtain ⟨_, _, _, _, -, -, -, -, rfl⟩ := State.deriveH0_eq_ok.1 ht
  exact h.writeH0 _

theorem State.Inv.finalize (h : s.Inv) (hc : s.cfg = true) (ht : s.finalize = .ok t) : t.Inv := by
  obtain ⟨B, -, rfl⟩ := State.finalize_eq_ok.1 ht
  refine (h.setWb _).writeObuf (s := s.writeWb .fin B) ?_
  simpa using (h.geom hc).outLen_le

theorem State.Inv.cleanup (h : s.Inv) : s.cleanup.Inv :=
  { h with
    mtxWf := Memory.wf_fillBelow h.mtxWf _ _
    mtxBelow := Memory.below_fillBelow h.mtxBelow h.memBlocks_le _ }

theorem State.Inv.zeroize (h : s.Inv) : s.zeroize.Inv :=
  { h with
    mtxWf := Memory.wf_fillBelow h.mtxWf _ _
    msgWf := Memory.wf_fillBelow h.msgWf _ _
    obufWf := Memory.wf_fillBelow h.obufWf _ _
    mtxBelow := Memory.below_fillBelow h.mtxBelow (le_refl _) _
    msgBelow := Memory.below_fillBelow h.msgBelow (le_refl _) _
    obufBelow := Memory.below_fillBelow h.obufBelow (le_refl _) _ }

theorem State.Inv.deriveBody (h : s.Inv) (hc : s.cfg = true) (ht : s.deriveBody = .ok t) : t.Inv := by
  obtain ⟨a, b, c, d, ha, hb, hcm, hd, rfl⟩ := State.deriveBody_eq_ok.1 ht
  have hac : a.cfg = true := by rw [State.deriveH0_frame ha]; exact hc
  have hbc : b.cfg = true := by rw [(State.seedMatrix_frame hb).1]; exact hac
  have hcc : c.cfg = true := by rw [State.fillMatrix_frame hcm]; exact hbc
  exact ((((h.deriveH0 ha).seedMatrix hac hb).fillMatrix hbc hcm).finalize hcc hd).cleanup

theorem State.Inv.effect (h : s.Inv) (hu : s.Effect i u) : u.Inv := by
  cases hu with
  | nop => exact h
  | config hc => exact h.configure hc
  | derive hc hu => exact (h.configure hc).deriveBody rfl hu
  | zeroize => exact h.zeroize
  | block _ hn hd C =>
    refine (h.recorded hn).writeBlock (fun k hk => ?_) C
    subst hk
    rw [hn.frame]
    exact lt_of_lt_of_le (State.destBlock_lt hd) h.memBlocks_le
  | obuf _ hn hlen => exact (h.recorded hn).writeObuf (by rw [hn.frame]; exact hlen)
  | res _ hn r => exact (h.recorded hn).setRes r
  | working _ hn w => exact (h.recorded hn).setWb w
  | fseg hc hs hl hu => exact h.fillSegment hc hs hl hu
  | fmatrix hc hu => exact h.fillMatrix hc hu
  | h0 _ hu => exact h.deriveH0 hu
  | seed hc hu => exact State.Inv.seedMatrix (s := s.noteH0) { h with } hc hu
  | final hc hu => exact h.finalize hc hu

/-! ### Every step -/

theorem State.Inv.ends (h : s.Inv) (hb : s.busy = true) (ht : s.Ends i t) : t.Inv := by
  cases ht with
  | error he => exact h.raiseError hb he
  | badConfig he => exact h.clearConfig.raiseError hb he
  | complete hu => exact (h.effect hu).complete (by rw [hu.frame]; exact hb)

theorem State.Inv.answers (h : s.Inv) (ht : s.Answers t) : t.Inv := by
  cases ht with
  | idle => exact h
  | illegal hv => exact h.raiseError (State.busy_eq_true.2 ⟨_, hv⟩) (by decide)
  | command hv ht => exact h.ends (State.busy_eq_true.2 ⟨_, hv⟩) (exec_ends ht)
  | read off => exact h.hostRead off
  | write off v => exact h.hostWrite off v
  | reset => exact h.hardReset

/-- Settles O3: a step is an input answered (`step_answers`), a command that answers comes to one of three ends
(`exec_ends`), and each of these keeps the invariant. -/
theorem stepKeepsTheInvariant : Obligations.StepKeepsTheInvariant := by
  intro s t h ht
  obtain ⟨l, hl⟩ := step_answers ht
  exact (h.setAgenda l).answers hl

end Sys2Proof.Machine
end

section
/-! PROOF. The registers as the host sees them: the CMD, STATUS and parameter registers and the rest of the register
map (spec/10_state.md R31-R35, R44-R49; spec/60_exceptions.md R311, R319). -/

namespace Sys2Proof.Machine

variable {s : State} {l : List Event}

/-! ### The register map, offset by offset (R32) -/

theorem hostReg_arg (n : Fin 6) : hostReg (0x080 + 8 * n.val) = .arg n := by
  revert n
  decide

theorem hostReg_resN (n : Fin 4) : hostReg (0x0B0 + 8 * n.val) = .res n := by
  revert n
  decide

/-- Below the buffer windows an offset names the register of its word number. -/
theorem hostReg_low {off : Nat} (h : off < 0x10000) : hostReg off = lowReg (off / 8) := by
  unfold hostReg
  rw [if_neg (by omega), if_neg (by omega)]

theorem hostReg_reserved {off : Nat} (h : 0x0E8 ≤ off) (hlt : off < 0x10000) : hostReg off = .reserved := by
  rw [hostReg_low hlt]
  exact lowReg_ge (by omega)

theorem paramOffset_aligned (p : ParamReg) : paramOffset p % 8 = 0 ∧ paramOffset p < 0x30000 := by
  cases p <;> decide

/-- The registers a host write can change: all but the geometry, RES and CAP registers and the reserved offsets (R31,
R32). -/
def HostReg.writable : HostReg → Bool
  | .ctrl | .status | .cmd | .param _ | .arg _ | .msg _ | .obuf _ => true
  | .memBlocks | .segLen | .laneLen | .res _ | .capBlocks | .capMsg | .capObuf | .reserved => false

theorem State.writeIdle_of_not_writable (s : State) (v : Word) {r : HostReg} (h : r.writable = false) :
    s.writeIdle v r = s := by
  cases r with
  | memBlocks | segLen | laneLen | res | capBlocks | capMsg | capObuf | reserved => rfl
  | ctrl | status | cmd | param | arg | msg | obuf => cases h

theorem hostReg_not_writable {off : Nat} (h8 : off % 8 = 0)
    (h : 0x068 ≤ off ∧ off < 0x080 ∨ 0x0B0 ≤ off ∧ off < 0x10000) : (hostReg off).writable = false := by
  rcases Nat.lt_or_ge off 0x0E8 with hlt | hge
  · obtain ⟨n, rfl⟩ : ∃ n, off = 8 * n := ⟨off / 8, by omega⟩
    have hn : 13 ≤ n ∧ n < 16 ∨ 22 ≤ n ∧ n < 29 := by omega
    rcases hn with ⟨h1, h2⟩ | ⟨h1, h2⟩ <;> interval_cases n <;> rfl
  · rw [hostReg_reserved hge (by omega)]
    rfl

/-! ### One access -/

theorem step_write_idle {off : Nat} {v : Word} (hb : s.busy = false) (h : s.agenda = .host (.write off 8 v) :: l)
    (h8 : off % 8 = 0) (hw : off < 0x30000) : step s = .next ((s.setAgenda l).writeIdle v (hostReg off)) := by
  rw [step_write h h8 hw, hb]
  rfl

theorem step_write_busy {off : Nat} {v : Word} (hb : s.busy = true) (h : s.agenda = .host (.write off 8 v) :: l)
    (h8 : off % 8 = 0) (hw : off < 0x30000) : step s = .next ((s.setAgenda l).writeBusy v (hostReg off)) := by
  rw [step_write h h8 hw, hb]
  rfl

/-- A write of STATUS is the same whether BUSY or not (R92). -/
theorem step_write_status {v : Word} (h : s.agenda = .host (.write 0x008 8 v) :: l) :
    step s = .next ((s.setAgenda l).writeStatus v) := by
  cases hb : s.busy with
  | true => exact step_write_busy hb h rfl (by decide)
  | false => exact step_write_idle hb h rfl (by decide)

/-- Settles O8: CMD names the issue while BUSY = 0, is ignored while BUSY = 1, and reads 0. -/
theorem cmdWriteIssues : Obligations.CmdWriteIssues :=
  ⟨fun _ _ _ hb h => step_write_idle hb h rfl (by decide), fun _ _ _ hb h => step_write_busy hb h rfl (by decide),
    fun _ _ h => step_read h rfl (by decide)⟩

/-! ### Parameter registers -/

theorem Params.get_set (p : Params) (r q : ParamReg) (v : Half) :
    (p.set r v).get q = if q = r then v else p.get q := by
  cases r <;> cases q <;> rfl

/-- Settles O10: the offset of a parameter names it (`hostReg_param`), whatever was stored. -/
theorem parameterWriteClearsConfig : Obligations.ParameterWriteClearsConfig := by
  intro s p l hb
  obtain ⟨h8, hw⟩ := paramOffset_aligned p
  refine ⟨fun v h => ?_, fun v q => s.params.get_set p q v, fun h => ?_⟩
  · rw [step_write_idle hb h h8 hw, hostReg_param]
    rfl
  · rw [step_read h h8 hw, State.hostRead, hostReg_param]
    rfl

/-! ### STATUS -/

/-- Settles O11: each W1C bit of the value clears its own bits of STATUS and no others. -/
theorem statusWriteReturnsFromError : Obligations.StatusWriteReturnsFromError := by
  intro s v l h
  refine ⟨_, step_write_status h, rfl, ?_, ?_, ?_, ?_, ?_, ?_⟩ <;> intro hv <;>
    simp only [State.writeStatus_done, State.writeStatus_err, State.writeStatus_errCode, State.writeStatus_wign, hv] <;>
    simp

/-- Bit k of STATUS (R32, R35). -/
theorem State.statusWord_getLsbD (s : State) (k : Nat) : s.statusWord.getLsbD k =
    if k = 0 then s.latch.isSome
    else if k = 1 then s.done
    else if k = 2 then s.err
    else if k = 3 then s.wign
    else if k = 4 then s.cfg
    else if 8 ≤ k ∧ k < 16 then s.errCode.code.getLsbD (k - 8)
    else false := by
  simp only [State.statusWord, State.busy, BitVec.getLsbD_append, BitVec.getLsbD_ofBool, BitVec.getLsbD_zero]
  rcases Nat.lt_or_ge k 16 with hk | hk
  · interval_cases k <;> simp
  · grind

/-- Settles O12: the eight fields of STATUS one after another, and the code of every error. -/
theorem statusWordBits : Obligations.StatusWordBits := by
  refine ⟨State.statusWord_getLsbD, fun e => ?_⟩
  cases e <;> simp [ErrCode.code]

/-! ### The rest of the map while BUSY = 0 -/

/-- Settles O16: every offset below the buffer windows names its register, and an idle access reads or writes that
register alone. -/
theorem registerMapWhenIdle : Obligations.RegisterMapWhenIdle := by
  intro s l hb
  refine ⟨fun v h => step_write_idle hb h rfl (by decide), fun n v h => ?_, fun off v h8 hoff h => ?_,
    fun off h8 hoff h => ⟨_, step_read h h8 (by omega), rfl, ?_⟩⟩
  · rw [step_write_idle hb h (by omega) (by omega), hostReg_arg]
    rfl
  · rw [step_write_idle hb h h8 (by omega), State.writeIdle_of_not_writable _ _ (hostReg_not_writable h8 hoff)]
    rfl
  · rw [State.hostRead_rdata]
    refine ⟨?_, ?_, ?_, ?_, ?_, fun n hn => ?_, fun n hn => ?_, ?_, ?_, ?_, fun hres => ?_⟩
    case refine_6 => rw [hn, hostReg_arg]; rfl
    case refine_7 =>
      rw [hn, hostReg_resN]
      simp [State.regValue, hb]
    case refine_11 => rw [hostReg_reserved hres hoff]; rfl
    all_goals rintro rfl; rfl

end Sys2Proof.Machine
end

section
/-! PROOF. Which commands can write which state (spec/10_state.md R46, R47, R54, R56, R62). -/

namespace Sys2Proof.Machine

/-- Settles O24: each end of a command (`exec_ends`) and each effect writes what its frame names. -/
theorem onlyNamedCommandsWrite : Obligations.OnlyNamedCommandsWrite := by
  intro i s t h
  cases exec_ends h with
  | error => simp
  | badConfig _ hi => simp [hi]
  | complete hu =>
    cases hu with
    | nop | zeroize | config => simp
    | derive _ hu =>
      rw [State.deriveBody_frame hu]
      simp
    | block hi hn =>
      rw [State.writeBlock_frame, hn.frame]
      fin_cases hi <;> simp +contextual [hn.only, hn.mono]
    | obuf hi hn | res hi hn | working hi hn =>
      rw [hn.frame]
      fin_cases hi <;> simp +contextual [hn.only, hn.mono]
    | fseg _ hs hl hu =>
      rw [State.fillSegment_frame hs hl hu]
      simp
    | fmatrix _ hu =>
      rw [State.fillMatrix_frame hu]
      simp
    | h0 _ hu =>
      rw [State.deriveH0_frame hu]
      simp
    | seed _ hu =>
      rw [(State.seedMatrix_frame hu).1]
      simp +contextual [State.noteH0]
    | final _ hu =>
      rw [State.finalize_frame hu]
      simp

/-! ### WB0 (R53) -/

/-- The selector of WB0 (R116). -/
theorem blockOfSelector_zero (memBlocks : Nat) {sel : Word} (h : sel.toNat = 2 ^ 63) :
    blockOfSelector memBlocks sel = some (.wb .zero) := by
  obtain rfl : sel = 0x8000000000000000#64 := BitVec.eq_of_toNat_eq h
  rfl

/-- WB0 is no destination (R117). -/
theorem State.destBlock_zero {s : State} (h : s.args[0].toNat = 2 ^ 63) : s.destBlock 0 = none := by
  have hs : s.sourceBlock 0 = some (.wb .zero) := blockOfSelector_zero _ h
  simp [State.destBlock, hs]

/-- A command whose destination selector is not valid ends with BAD_OPERAND (R117, R312). -/
theorem exec_of_destBlock_none {s : State} {i : Instr}
    (hi : i ∈ [Instr.bxor, .bclear, .bfrombytes, .pround, .fblock, .fblockx]) (hd : s.destBlock 0 = none) :
    exec i s = .next (s.raiseError .badOperand) := by
  fin_cases hi <;>
    simp only [exec, execBxor, execBclear, execBfrombytes, execPround, execFblock, execFblockx, hd] <;> rfl

/-- Settles O26: WB0 holds the zero block, and its selector 2^63 is no destination. -/
theorem zeroBlockIsHardwired : Obligations.ZeroBlockIsHardwired :=
  ⟨fun _ => ⟨zeroBlock, rfl, rfl, zeroBlock_getElem⟩,
    fun _ _ hi h => exec_of_destBlock_none hi (State.destBlock_zero h)⟩

end Sys2Proof.Machine
end

section
/-! PROOF. Reads of unspecified state: what a command that answers has read, so that it stops where a memory it reads is
unspecified, and the record that is left where a register is (spec/10_state.md R61, spec/60_exceptions.md R327). -/

namespace Sys2Proof.Machine

variable {s t u n : State} {i : Instr}

/-! ### Blocks a command reads -/

/-- A block is read exactly when it holds a value. -/
theorem State.readBlock_eq_ok {r : BlockRef} {B : Block} :
    s.readBlock r = .ok B ↔ ∃ A, s.holding r = some A ∧ A.value = B := by
  cases r with
  | mtx k => simp [State.readBlock, State.holding, Held.written]
  | wb r => simp [State.readBlock, State.holding, State.readWb]

/-- u comes after a read of block r of s: the block held a value, and the read is recorded if it was unspecified. -/
def State.HasRead (s : State) (r : BlockRef) (u : State) : Prop :=
  ∃ A, s.holding r = some A ∧ (A.specified = false → u.unspecRead = true)

theorem State.HasRead.mono {r : BlockRef} (h : s.HasRead r n) (hm : n.unspecRead = true → u.unspecRead = true) :
    s.HasRead r u := by
  obtain ⟨A, hA, hn⟩ := h
  exact ⟨A, hA, fun hf => hm (hn hf)⟩

theorem State.HasRead.holding_ne_none {r : BlockRef} (h : s.HasRead r u) : s.holding r ≠ none := by
  obtain ⟨A, hA, -⟩ := h
  simp [hA]

theorem State.HasRead.unspecRead {r : BlockRef} {A : Held Block} (h : s.HasRead r u) (hA : s.holding r = some A)
    (hf : A.specified = false) : u.unspecRead = true := by
  obtain ⟨A', hA', hn⟩ := h
  obtain rfl : A' = A := by simpa [hA'] using hA
  exact hn hf

/-- Recording a read never clears the record. -/
theorem State.noteBlock_unspecRead_mono (r : BlockRef) (h : n.unspecRead = true) :
    (n.noteBlock r).unspecRead = true := by
  cases r with
  | mtx k => exact h
  | wb r => simp [State.noteBlock, State.noteWb, h]

/-- Recording a read touches no working block. -/
@[simp] theorem State.noteBlock_wb (s : State) (r : BlockRef) : (s.noteBlock r).wb = s.wb := by
  cases r <;> rfl

@[simp] theorem State.writeBlock_unspecRead (s : State) (d : BlockRef) (B : Block) :
    (s.writeBlock d B).unspecRead = s.unspecRead := by
  cases d <;> rfl

theorem State.hasRead_noteBlock {r : BlockRef} {B : Block} (h : s.readBlock r = .ok B) (hw : n.wb = s.wb) :
    s.HasRead r (n.noteBlock r) := by
  obtain ⟨A, hA, -⟩ := State.readBlock_eq_ok.1 h
  refine ⟨A, hA, fun hf => ?_⟩
  rw [State.noteBlock_of_holding hA hw]
  simp [hf]

theorem State.HasRead.noteBlock {r : BlockRef} (h : s.HasRead r n) (q : BlockRef) : s.HasRead r (n.noteBlock q) :=
  h.mono (State.noteBlock_unspecRead_mono q)

theorem State.HasRead.writeBlock {r : BlockRef} (h : s.HasRead r n) (d : BlockRef) (B : Block) :
    s.HasRead r (n.writeBlock d B) :=
  h.mono (by simp)

/-- BXOR, FBLOCK and FBLOCKX read both sources, and FBLOCKX its destination too (R161, R189, R190). -/
theorem exec_twoSources {d a b : BlockRef} (hi : i ∈ [Instr.bxor, .fblock, .fblockx]) (hd : s.destBlock 0 = some d)
    (ha : s.sourceBlock 1 = some a) (hb : s.sourceBlock 2 = some b) :
    ∃ x, exec i s = finish x ∧
      ∀ u, x = .ok u → s.HasRead a u ∧ s.HasRead b u ∧ (i = .fblockx → s.HasRead d u) := by
  fin_cases hi
  · refine ⟨_, by simp only [exec, execBxor, hd, ha, hb]; rfl, fun u hu => ?_⟩
    simp only [bind_eq_ok, pure_eq_ok] at hu
    obtain ⟨A, hA, B, hB, rfl⟩ := hu
    exact ⟨((State.hasRead_noteBlock hA rfl).noteBlock b).writeBlock d _,
      (State.hasRead_noteBlock hB (by simp)).writeBlock d _, nofun⟩
  · refine ⟨_, by simp only [exec, execFblock, hd, ha, hb]; rfl, fun u hu => ?_⟩
    simp only [bind_eq_ok, pure_eq_ok] at hu
    obtain ⟨A, hA, B, hB, rfl⟩ := hu
    exact ⟨((State.hasRead_noteBlock hA rfl).noteBlock b).writeBlock d _,
      (State.hasRead_noteBlock hB (by simp)).writeBlock d _, nofun⟩
  · refine ⟨_, by simp only [exec, execFblockx, hd, ha, hb]; rfl, fun u hu => ?_⟩
    simp only [bind_eq_ok, pure_eq_ok] at hu
    obtain ⟨A, hA, B, hB, D, hD, rfl⟩ := hu
    exact ⟨(((State.hasRead_noteBlock hA rfl).noteBlock b).noteBlock d).writeBlock d _,
      ((State.hasRead_noteBlock hB (by simp)).noteBlock d).writeBlock d _,
      fun _ => (State.hasRead_noteBlock hD (by simp)).writeBlock d _⟩

theorem exec_btobytes {a : BlockRef} (ha : s.sourceBlock 0 = some a) :
    ∃ x, exec .btobytes s =
        requireOperands s (rangeOk (s.argNat 1) Config.blockBytes s.caps.obufBytes) (finish x) ∧
      ∀ u, x = .ok u → s.HasRead a u := by
  refine ⟨_, by simp only [exec, execBtobytes, ha]; rfl, fun u hu => ?_⟩
  simp only [bind_eq_ok, pure_eq_ok] at hu
  obtain ⟨B, hB, rfl⟩ := hu
  exact (State.hasRead_noteBlock hB rfl).mono id

theorem exec_pround {d : BlockRef} (hd : s.destBlock 0 = some d) :
    ∃ x, exec .pround s = requireOperands s (groupOk (s.argNat 1)) (finish x) ∧
      ∀ u, x = .ok u → s.HasRead d u := by
  refine ⟨_, by simp only [exec, execPround, hd]; rfl, fun u hu => ?_⟩
  simp only [bind_eq_ok, pure_eq_ok] at hu
  obtain ⟨B, hB, rfl⟩ := hu
  exact (State.hasRead_noteBlock hB rfl).writeBlock d _

/-- WB0 is always specified (R53). -/
theorem ne_zero_of_unspecified {d : BlockRef} {A : Held Block} (h : s.holding d = some A) (hf : A.specified = false) :
    d ≠ .wb .zero := by
  rintro rfl
  cases h
  cases hf

theorem ne_zero_of_holding_none {d : BlockRef} (h : s.holding d = none) : d ≠ .wb .zero := by
  rintro rfl
  cases h

/-- A command with operand checks that does not end in error has passed them and completed. -/
theorem requireOperands_completes {ok : Bool} {x : Except Fault State} (h : requireOperands s ok (finish x) = .next t)
    (he : t.err = false) : ∃ u, x = .ok u ∧ t = u.complete := by
  rw [requireOperands_eq] at h
  split at h
  · exact finish_eq_next.1 h
  · cases h
    cases he

/-- A command whose operand checks pass and whose computation cannot answer stops with UNSPEC_READ. -/
theorem requireOperands_faults {ok : Bool} {x : Except Fault State} (hok : ok = true) (hx : ∀ u, x ≠ .ok u) :
    ∃ src, requireOperands s ok (finish x) = .fault (.unspecRead src) := by
  rw [requireOperands_eq, if_pos hok]
  exact finish_faults hx

/-- A guarded command, with CFG = 1, whose computation cannot answer stops with UNSPEC_READ. -/
theorem requireConfigured_faults {x : Except Fault State} (hc : s.cfg = true) (hx : ∀ u, x ≠ .ok u) :
    ∃ src, requireConfigured s (finish x) = .fault (.unspecRead src) := by
  rw [requireConfigured_eq, if_pos hc]
  exact finish_faults hx

/-! ### MSG bytes a command reads -/

theorem State.msgSpecified_append {off m k : Nat} (h1 : s.msgSpecified off m) (h2 : s.msgSpecified (off + m) k) :
    s.msgSpecified off (m + k) := by
  intro j hj
  rcases Nat.lt_or_ge j m with hlt | hge
  · exact h1 j hlt
  · have := h2 (j - m) (by omega)
    rwa [show off + m + (j - m) = off + j by omega] at this

/-- The H0 body answers only with the four input strings specified (R282). -/
theorem State.msgSpecified_of_deriveH0 (h : s.deriveH0 = .ok t) : s.msgSpecified 0 s.inputBytes := by
  obtain ⟨pwd, salt, secret, ad, h1, h2, h3, h4, -⟩ := State.deriveH0_eq_ok.1 h
  have hpwd := State.readMsg_isOk.1 ⟨pwd, h1⟩
  have hsalt := State.readMsg_isOk.1 ⟨salt, h2⟩
  have hsecret := State.readMsg_isOk.1 ⟨secret, h3⟩
  have had := State.readMsg_isOk.1 ⟨ad, h4⟩
  refine State.msgSpecified_append (State.msgSpecified_append (State.msgSpecified_append hpwd ?_) ?_) ?_ <;>
    rwa [Nat.zero_add]

/-- A MSG range with an unspecified byte is not specified. -/
theorem State.not_msgSpecified {off len j : Nat} (hj : j < len) (h : s.msg.read (off + j) = none) :
    ¬s.msgSpecified off len := fun hs => by
  have := hs j hj
  simp [h] at this

theorem exec_hprime_faults (hok : s.args[0].toNat + s.args[1].toNat ≤ s.caps.msgBytes) (h1 : 1 ≤ s.args[2].toNat)
    (h2 : s.args[2].toNat ≤ s.caps.obufBytes) (hn : ¬s.msgSpecified s.args[0].toNat s.args[1].toNat) :
    ∃ src, exec .hprime s = .fault (.unspecRead src) := by
  refine requireOperands_faults ?_ fun u hu => ?_
  · simp only [rangeOk, State.hprimeLenOk, Bool.and_eq_true, decide_eq_true_eq]
    exact ⟨hok, h1, h2⟩
  · obtain ⟨bs, hbs, -⟩ := bind_eq_ok.1 hu
    exact hn (State.readMsg_isOk.1 ⟨bs, hbs⟩)

theorem exec_bfrombytes_faults {d : BlockRef} (hd : s.destBlock 0 = some d)
    (hok : s.args[1].toNat + 1024 ≤ s.caps.msgBytes) (hn : ¬s.msgSpecified s.args[1].toNat 1024) :
    ∃ src, exec .bfrombytes s = .fault (.unspecRead src) := by
  simp only [exec, execBfrombytes, hd]
  refine requireOperands_faults (by simpa [rangeOk, State.argNat, State.arg] using hok) fun u hu => ?_
  obtain ⟨bs, hbs, -⟩ := bind_eq_ok.1 hu
  exact hn (State.readMsg_isOk.1 ⟨bs, hbs⟩)

theorem exec_derive_faults (hc : checkConfig s.params s.caps = none) (hn : ¬s.msgSpecified 0 s.inputBytes) :
    ∃ src, exec .derive s = .fault (.unspecRead src) := by
  simp only [exec, execDerive, hc]
  refine finish_faults fun u hu => ?_
  obtain ⟨a, -, -, -, ha, -⟩ := State.deriveBody_eq_ok.1 hu
  exact hn (State.msgSpecified_of_deriveH0 (s := s.configure _) ha)

/-! ### Blocks a fill reads -/

/-- A loop that answers has come to every one of its indices, and gone on. -/
theorem forRange_reaches {σ : Type} {a n i : Nat} {body : Nat → σ → Except Fault σ} {s t : σ} (h1 : a ≤ i)
    (h2 : i < a + n) (h : forRange a n body s = .ok t) :
    ∃ u v, forRange a (i - a) body s = .ok u ∧ body i u = .ok v := by
  rw [show n = (i - a) + ((a + n - i - 1) + 1) by omega, forRange_add, bind_eq_ok] at h
  obtain ⟨u, hu, hrest⟩ := h
  rw [show a + (i - a) = i by omega, forRange_succ, bind_eq_ok] at hrest
  obtain ⟨v, hv, -⟩ := hrest
  exact ⟨u, v, hu, hv⟩

variable {pass slice lane k : Nat}

/-- A segment's fill that answers has computed the block at every index of the segment. -/
theorem State.fillSegment_reaches (hk : startIndex pass slice ≤ k) (hk' : k < s.segLen)
    (h : s.fillSegment pass slice lane = .ok t) :
    ∃ u v, s.beforeIndex pass slice lane k = .ok u ∧ u.fillBlock pass slice lane k = .ok v :=
  forRange_reaches hk (by omega) h

/-- What the computation of a block in a segment of s has read, when it answers (R241): its previous block, the
reference block for J of R233 and R240, and under the XOR policy the current block. -/
theorem State.fillBlock_reads (hk : startIndex pass slice ≤ k) (hu : s.beforeIndex pass slice lane k = .ok u)
    (hb : u.fillBlock pass slice lane k = .ok t) :
    ∃ X Y, u.mtx.read (flatIndex s.laneLen lane (previousColumn s.laneLen s.segLen slice k)) = some X ∧
      u.mtx.read (s.referenceOf pass slice lane k (if s.dataIndependent pass slice = true
        then wordOf (addressBlock (s.segmentInput pass slice lane (1 + k / 128))) k else wordOf X 0)).flat = some Y ∧
      (s.xorPolicy pass = true →
        ∃ D, u.mtx.read (flatIndex s.laneLen lane (currentColumn s.segLen slice k)) = some D) := by
  obtain ⟨hf, hw⟩ := State.beforeIndex_wb hk hu
  obtain ⟨J, X, Y, D, hJ, hX, hY, hD, -⟩ := State.fillBlock_eq_ok.1 hb
  rw [hf.laneLen, hf.segLen] at hX hD
  rw [hf.referenceOf] at hY
  rw [hf.xorPolicy] at hD
  rw [State.pseudoRandom_eq hf hw hk hX hJ] at hY
  exact ⟨X, Y, hX, hY, fun hx => ⟨D, hD hx⟩⟩

/-- The blocks of a segment before index k leave the block at k as it was. -/
theorem State.beforeIndex_read_current (hw : Memory.wf s.mtx) (hk : startIndex pass slice ≤ k)
    (hu : s.beforeIndex pass slice lane k = .ok u) :
    u.mtx.read (flatIndex s.laneLen lane (currentColumn s.segLen slice k)) =
      s.mtx.read (flatIndex s.laneLen lane (currentColumn s.segLen slice k)) := by
  obtain ⟨hef, hem, -⟩ := s.enterSegment_frame pass slice lane
  refine (forRange_invariant (P := fun _ v => FillFrame s v ∧ Memory.wf v.mtx ∧
    v.mtx.read (flatIndex s.laneLen lane (currentColumn s.segLen slice k)) =
      s.mtx.read (flatIndex s.laneLen lane (currentColumn s.segLen slice k))) ?_
    ⟨hef, hem ▸ hw, by rw [hem]⟩ hu).2.2
  rintro j v v' hj hjk ⟨hf, hvw, hvk⟩ hb
  obtain ⟨hvf, ⟨B, hB⟩, -⟩ := State.fillBlock_frame hb
  refine ⟨hf.trans hvf, hB ▸ Memory.wf_write hvw _ _, ?_⟩
  rw [hB, Memory.read_write_ne hvw, hvk]
  rw [hf.laneLen, hf.segLen]
  unfold flatIndex currentColumn
  omega

/-- The XOR policy of R243. -/
theorem State.xorPolicy_eq_true (hp : 0 < pass) (hv : s.params.version = 0x13) : s.xorPolicy pass = true := by
  simp [State.xorPolicy, hp, hv]

/-- The XOR of the last column answers only with the last block of every lane specified (R292). -/
theorem State.lastColumnSpecified_of_ok {B : Block} (h : s.lastColumn = .ok B) : s.lastColumnSpecified := by
  obtain ⟨B0, h0, hloop⟩ := bind_eq_ok.1 h
  have hB0 : s.blockSpecified 0 (s.laneLen - 1) := by simp [State.blockSpecified, State.readMtx_eq_ok.1 h0]
  have hall := forRange_invariant (P := fun n _ => ∀ l, l < n → s.blockSpecified l (s.laneLen - 1)) ?_ ?_ hloop
  · exact fun l hl => hall l (by omega)
  · rintro l A A' - - hP hb l' hl'
    obtain ⟨C, hC, -⟩ := bind_eq_ok.1 hb
    rcases Nat.lt_succ_iff_lt_or_eq.1 hl' with hlt | rfl
    · exact hP l' hlt
    · simp [State.blockSpecified, State.readMtx_eq_ok.1 hC]
  · intro l hl
    obtain rfl : l = 0 := by omega
    exact hB0

/-! ### The record stays -/

theorem exec_keeps_record (h : exec i s = .next t) (hs : s.unspecRead = true) : t.unspecRead = true := by
  obtain ⟨-, -, -, -, -, -, -, -, hmono⟩ := onlyNamedCommandsWrite i s t h
  exact hmono hs

@[simp] theorem State.hostWrite_unspecRead (s : State) (off : Nat) (v : Word) :
    (s.hostWrite off v).unspecRead = s.unspecRead := by
  unfold State.hostWrite
  split <;> cases hostReg off <;> rfl

theorem State.Answers.keeps_record (h : s.Answers t) (hs : s.unspecRead = true) : t.unspecRead = true := by
  cases h with
  | idle => exact hs
  | illegal | read | write | reset => simpa using hs
  | command _ h => exact exec_keeps_record h hs

/-- A state with the record is no valid end of a run (R355). -/
theorem State.ended_of_record (h : s.unspecRead = true) : s.ended = false := by simp [State.ended, h]

/-! ### The statement, command by command -/

theorem exec_twoSources_faults {d a b : BlockRef} (hi : i ∈ [Instr.bxor, .fblock, .fblockx])
    (hd : s.destBlock 0 = some d) (ha : s.sourceBlock 1 = some a) (hb : s.sourceBlock 2 = some b)
    (hn : s.holding a = none ∨ s.holding b = none ∨ (i = .fblockx ∧ s.holding d = none)) :
    ∃ src, exec i s = .fault (.unspecRead src) := by
  obtain ⟨x, hx, hread⟩ := exec_twoSources hi hd ha hb
  rw [hx]
  refine finish_faults fun u hu => ?_
  obtain ⟨ra, rb, rd⟩ := hread u hu
  rcases hn with h | h | ⟨hf, h⟩
  · exact ra.holding_ne_none h
  · exact rb.holding_ne_none h
  · exact (rd hf).holding_ne_none h

theorem exec_twoSources_records {d a b : BlockRef} {A B : Held Block} (hi : i ∈ [Instr.bxor, .fblock, .fblockx])
    (hd : s.destBlock 0 = some d) (ha : s.sourceBlock 1 = some a) (hb : s.sourceBlock 2 = some b)
    (hA : s.holding a = some A) (hB : s.holding b = some B)
    (hn : A.specified = false ∨ B.specified = false ∨
      (i = .fblockx ∧ ∃ D, s.holding d = some D ∧ D.specified = false))
    (h : exec i s = .next t) : t.unspecRead = true := by
  obtain ⟨x, hx, hread⟩ := exec_twoSources hi hd ha hb
  obtain ⟨u, hu, rfl⟩ := finish_eq_next.1 (hx ▸ h)
  obtain ⟨ra, rb, rd⟩ := hread u hu
  rcases hn with hf | hf | ⟨hi, D, hD, hf⟩
  · exact ra.unspecRead hA hf
  · exact rb.unspecRead hB hf
  · exact (rd hi).unspecRead hD hf

theorem exec_btobytes_faults {a : BlockRef} (ha : s.sourceBlock 0 = some a) (hn : s.holding a = none)
    (hok : s.args[1].toNat + 1024 ≤ s.caps.obufBytes) : ∃ src, exec .btobytes s = .fault (.unspecRead src) := by
  obtain ⟨x, hx, hread⟩ := exec_btobytes ha
  rw [hx]
  exact requireOperands_faults (by simpa [rangeOk, State.argNat, State.arg] using hok)
    fun u hu => (hread u hu).holding_ne_none hn

theorem exec_pround_faults {d : BlockRef} (hd : s.destBlock 0 = some d) (hn : s.holding d = none)
    (hok : s.args[1].toNat < 16) : ∃ src, exec .pround s = .fault (.unspecRead src) := by
  obtain ⟨x, hx, hread⟩ := exec_pround hd
  rw [hx]
  exact requireOperands_faults (by simpa [groupOk, State.argNat, State.arg] using hok)
    fun u hu => (hread u hu).holding_ne_none hn

theorem exec_oneBlock_records {a : BlockRef} {A : Held Block} (hi : i ∈ [Instr.btobytes, .pround])
    (ha : blockOfSelector s.memBlocks s.args[0] = some a) (hA : s.holding a = some A) (hf : A.specified = false)
    (h : exec i s = .next t) (he : t.err = false) : t.unspecRead = true := by
  have hread : ∃ ok x, exec i s = requireOperands s ok (finish x) ∧ ∀ u, x = .ok u → s.HasRead a u := by
    fin_cases hi
    · exact ⟨_, exec_btobytes ha⟩
    · exact ⟨_, exec_pround (State.destBlock_eq ha (ne_zero_of_unspecified hA hf))⟩
  obtain ⟨ok, x, hx, hread⟩ := hread
  obtain ⟨u, hu, rfl⟩ := requireOperands_completes (hx ▸ h) he
  exact (hread u hu).unspecRead hA hf

/-- FSEG stops where its loop comes to a block it cannot compute (R241, R245). -/
theorem exec_fseg_faults (hc : s.cfg = true) (h0 : s.args[0].toNat < s.iter) (h1 : s.args[1].toNat < 4)
    (h2 : s.args[2].toNat < s.lanes) (hk : startIndex s.args[0].toNat s.args[1].toNat ≤ k) (hk' : k < s.segLen)
    (hn : ∀ u v, s.beforeIndex s.args[0].toNat s.args[1].toNat s.args[2].toNat k = .ok u →
      u.fillBlock s.args[0].toNat s.args[1].toNat s.args[2].toNat k ≠ .ok v) :
    ∃ src, exec .fseg s = .fault (.unspecRead src) := by
  rw [exec_fseg hc h0 h1 h2]
  refine finish_faults fun t ht => ?_
  obtain ⟨u, v, hu, hv⟩ := State.fillSegment_reaches hk hk' ht
  exact hn u v hu hv

theorem exec_fmatrix_faults (hc : s.cfg = true) (hn : ¬s.seeded) :
    ∃ src, exec .fmatrix s = .fault (.unspecRead src) := by
  refine requireConfigured_faults hc fun u hu => ?_
  obtain ⟨v, hv, -⟩ := bind_eq_ok.1 hu
  exact hn (State.checkSeeds_eq_ok.1 hv).1

theorem exec_final_faults (hc : s.cfg = true) (hn : ¬s.lastColumnSpecified) :
    ∃ src, exec .final s = .fault (.unspecRead src) := by
  refine requireConfigured_faults hc fun u hu => ?_
  obtain ⟨B, hB, -⟩ := State.finalize_eq_ok.1 hu
  exact hn (State.lastColumnSpecified_of_ok hB)

theorem exec_seed_records (hc : s.cfg = true) (hf : s.h0.specified = false) (h : exec .seed s = .next t) :
    t.unspecRead = true := by
  have hs : exec .seed s = finish s.noteH0.seedMatrix := if_pos hc
  obtain ⟨u, hu, rfl⟩ := finish_eq_next.1 (hs ▸ h)
  rw [(State.seedMatrix_frame hu).1]
  simp [State.noteH0, hf]

/-- Settles O25, command by command: what a command that answers has read (`HasRead`, `msgSpecified`,
`fillBlock_reads`) is neither an unspecified memory nor an unrecorded unspecified register, and every step keeps the
record. -/
theorem unspecifiedReadsFault : Obligations.UnspecifiedReadsFault := by
  refine ⟨fun s i d a b hi hd hz ha hb hn => exec_twoSources_faults hi (State.destBlock_eq hd hz) ha hb hn,
    fun s a ha hn hok => exec_btobytes_faults ha hn hok,
    fun s d hd hn hok => exec_pround_faults (State.destBlock_eq hd (ne_zero_of_holding_none hn)) hn hok,
    fun s j hok h1 h2 hj hn => exec_hprime_faults hok h1 h2 (State.not_msgSpecified hj hn),
    fun s d j hd hz hok hj hn =>
      exec_bfrombytes_faults (State.destBlock_eq hd hz) hok (State.not_msgSpecified hj hn),
    fun s k hc hk hn => ?h0, fun s k hc hk hn => ?derive, fun s u k hc h0 h1 h2 => ?fseg,
    fun s k hw hc h0 h1 h2 hk hp hver hn => ?fsegCurrent, fun s hc hn => exec_fmatrix_faults hc hn,
    fun s hc ⟨l, hl, hn⟩ => exec_final_faults hc fun h => hn (h l hl), fun s t hf h => ?anext, fun s t hf h => ?aword,
    fun s t hc hf h => exec_seed_records hc hf h,
    fun s t i d a b A B hi hd hz ha hb hA hB hn h =>
      exec_twoSources_records hi (State.destBlock_eq hd hz) ha hb hA hB hn h,
    fun s t i a A hi ha hA hf h he => exec_oneBlock_records hi ha hA hf h he, fun s t hs h => ?record⟩
  case h0 =>
    rw [← Nat.zero_add k] at hn
    exact requireConfigured_faults hc fun u hu => State.not_msgSpecified hk hn (State.msgSpecified_of_deriveH0 hu)
  case derive =>
    rw [← Nat.zero_add k] at hn
    exact exec_derive_faults hc (State.not_msgSpecified hk hn)
  case fseg =>
    intro pass slice lane prev cur input J hk hk' hu hn
    refine exec_fseg_faults hc h0 h1 h2 hk hk' fun u' v hu' hv => ?_
    obtain rfl : u' = u := Except.ok.inj (hu'.symm.trans hu)
    obtain ⟨X, Y, hX, hY, hD⟩ := State.fillBlock_reads hk hu hv
    rcases hn with hn | ⟨X', hX', hn⟩ | ⟨hp, hver, hn⟩
    · cases hX.symm.trans hn
    · cases hX.symm.trans hX'
      cases hY.symm.trans hn
    · obtain ⟨D, hD⟩ := hD (State.xorPolicy_eq_true hp hver)
      cases hD.symm.trans hn
  case fsegCurrent =>
    have hstart : startIndex s.args[0].toNat s.args[1].toNat ≤ k := by
      unfold startIndex
      rw [if_neg (by omega)]
      exact Nat.zero_le k
    refine exec_fseg_faults hc h0 h1 h2 hstart hk fun u v hu hv => ?_
    obtain ⟨-, -, -, -, hD⟩ := State.fillBlock_reads hstart hu hv
    obtain ⟨D, hD⟩ := hD (State.xorPolicy_eq_true hp hver)
    rw [State.beforeIndex_read_current hw hstart hu, hn] at hD
    cases hD
  case anext =>
    cases h
    simp [State.noteWb, Working.held, State.generate, hf]
  case aword =>
    cases h
    simp [State.noteWb, Working.held, hf]
  case record =>
    obtain ⟨l, hl⟩ := step_answers h
    have ht := hl.keeps_record hs
    exact ⟨ht, State.ended_of_record ht⟩

end Sys2Proof.Machine
end

section
/-! PROOF. The host's accesses one by one: what is refused, what a read changes and answers, what an access does while
BUSY = 1, and the byte lanes of the buffer windows (spec/20_memory.md R82, R84, R87, R88, R92). -/

namespace Sys2Proof.Machine

variable {s t u : State} {l : List Event}

/-! ### Refused accesses (R84, R88) -/

/-- Settles O13: the shape of an access is looked at first, then its offset. -/
theorem otherAccessesAreRefused : Obligations.OtherAccessesAreRefused := by
  intro s a l h
  rw [step_cons h]
  refine ⟨fun hshape => ?_, fun hw h8 hoff => ?_⟩
  · have ha : a.aligned = false := by
      simp only [HostAccess.aligned, Bool.and_eq_false_iff, beq_eq_false_iff_ne]
      exact hshape
    simp [State.event, State.hostAccess, ha]
  · have ha : a.aligned = true := by simp [HostAccess.aligned, hw, h8]
    have hin : a.inWindow = false := by simp [HostAccess.inWindow, hoff]
    simp [State.event, State.hostAccess, ha, hin]

/-! ### Reads (R87) -/

/-- The registers whose reads are draws while BUSY = 1 (R92), and the buffer windows, whose reads can hold draws in any
state (R61). -/
def HostReg.drawn (busy : Bool) : HostReg → Bool
  | .res _ => busy
  | .msg _ | .obuf _ => true
  | _ => false

/-- A read of any other register does not look at its draw. -/
theorem State.regValue_of_not_drawn {r : HostReg} (h : r.drawn s.busy = false) (d e : Word) :
    s.regValue d r = s.regValue e r := by
  cases r with
  | res n =>
    have hb : s.busy = false := h
    simp [State.regValue, hb]
  | msg k | obuf k => cases h
  | _ => rfl

/-- Below the buffer windows only RES, at the offsets 0x0B0 .. 0x0CF (R32), is drawn, and only while BUSY = 1. -/
theorem hostReg_not_drawn {busy : Bool} {off : Nat} (hlt : off < 0x10000)
    (h : off < 0x0B0 ∨ 0x0D0 ≤ off ∨ busy = false) : (hostReg off).drawn busy = false := by
  rcases Nat.lt_or_ge off 0x0E8 with hlow | hge
  · rw [hostReg_low hlt]
    have hn : off / 8 < 29 := by omega
    rcases h with h | h | rfl
    · have h1 : off / 8 < 22 := by omega
      interval_cases off / 8 <;> rfl
    · have h1 : 26 ≤ off / 8 := by omega
      interval_cases off / 8 <;> rfl
    · interval_cases off / 8 <;> rfl
  · rw [hostReg_reserved hge hlt]
    rfl

/-- Settles O14: the second read finds the state of the first but for the draw counter, and below the buffer windows
only RES while BUSY = 1 looks at the draw. -/
theorem hostReadsHaveNoSideEffects : Obligations.HostReadsHaveNoSideEffects := by
  intro s off l h8 hw h
  have h1 := step_read h h8 hw
  have h2 : step ((s.setAgenda (.host (.read off 8) :: l)).hostRead off) = _ := step_read rfl h8 hw
  refine ⟨_, _, h1, h2, rfl, fun hlt hcase => ?_⟩
  rw [State.hostRead_rdata, State.hostRead_rdata]
  exact State.regValue_of_not_drawn (s := s) (hostReg_not_drawn hlt hcase) _ _

/-! ### Accesses while BUSY = 1 (R92) -/

/-- A write to any register but CTRL and STATUS is ignored and sets WIGN. -/
theorem State.writeBusy_ignored (s : State) (v : Word) {r : HostReg} (hc : r ≠ .ctrl) (hs : r ≠ .status) :
    s.writeBusy v r = s.ignoreWrite := by
  cases r with
  | ctrl => exact absurd rfl hc
  | status => exact absurd rfl hs
  | _ => rfl

/-- A read of RES, MSG or OBUF is a draw. -/
theorem State.regValue_busy (hb : s.busy = true) (d : Word) {r : HostReg}
    (h : (∃ n, r = .res n) ∨ (∃ k, r = .msg k) ∨ (∃ k, r = .obuf k)) : s.regValue d r = d := by
  rcases h with ⟨n, rfl⟩ | ⟨k, rfl⟩ | ⟨k, rfl⟩ <;> simp [State.regValue, hb]

/-- Settles O9: the two writes that take effect, the ignored ones (`writeBusy_ignored`), and a read register by
register, of which RES, MSG and OBUF are draws (`regValue_busy`). -/
theorem accessesWhileBusy : Obligations.AccessesWhileBusy := by
  intro s l hb
  refine ⟨fun v h => step_write_busy hb h rfl (by decide), fun v h => step_write_status h,
    fun off v h8 hge hw h => ?_, fun off h8 hw h => ⟨_, step_read h h8 hw, rfl, ?_⟩⟩
  · obtain ⟨hc, hs⟩ := hostReg_ge hge h8
    rw [step_write_busy hb h h8 hw, State.writeBusy_ignored _ _ hc hs]
    rfl
  · rw [State.hostRead_rdata]
    refine ⟨?_, ?_, fun p hp => ?_, ?_, ?_, ?_, ?_, ?_, ?_, fun hdraw => ?_⟩
    case refine_3 => rw [hp, hostReg_param]; rfl
    case refine_10 => exact State.regValue_busy (s := s.setAgenda l) hb _ (hostReg_res h8 hdraw)
    all_goals rintro rfl; rfl

/-! ### The latched command and its operands (R92, R354) -/

/-- t is s but for what the host may change while BUSY = 1: CTRL, the W1C bits and ERRCODE of STATUS, and the model's
own last read value and draw counter. -/
def State.HostFrame (s t : State) : Prop :=
  t = { s with
    ie := t.ie, done := t.done, err := t.err, errCode := t.errCode, wign := t.wign,
    rdata := t.rdata, draws := t.draws }

theorem State.HostFrame.refl (s : State) : s.HostFrame s := rfl

theorem State.HostFrame.trans (h : s.HostFrame t) (h' : t.HostFrame u) : s.HostFrame u := by
  rw [State.HostFrame, h', h]

theorem State.HostFrame.setAgenda (h : s.HostFrame t) (l : List Event) :
    (s.setAgenda l).HostFrame (t.setAgenda l) := by
  rw [State.HostFrame, h]
  rfl

theorem State.HostFrame.latch (h : s.HostFrame t) : t.latch = s.latch := by rw [h]

theorem State.HostFrame.agenda (h : s.HostFrame t) : t.agenda = s.agenda := by rw [h]

/-- A host write while BUSY = 1 stays inside the frame. -/
theorem State.hostFrame_hostWrite (hb : s.busy = true) (off : Nat) (v : Word) : s.HostFrame (s.hostWrite off v) := by
  rw [State.hostWrite, if_pos hb]
  rcases s.writeBusy_cases v (hostReg off) with h | h | h <;> rw [h] <;> rfl

/-- A legal access while BUSY = 1 answers, and stays inside the frame. -/
theorem step_access_busy {a : HostAccess} (hb : s.busy = true) (h : s.agenda = .host a :: l)
    (ha : a.wellFormed = true) : ∃ t, step s = .next t ∧ (s.setAgenda l).HostFrame t := by
  refine ⟨_, (step_cons h).trans (State.hostAccess_eq_next.2 ⟨ha, rfl⟩), ?_⟩
  cases a with
  | read off w => rfl
  | write off w v => exact State.hostFrame_hostWrite (s := s.setAgenda l) hb off v

/-- One step, then the rest of a run. -/
theorem coreRun_succ (M : Host.Core) {s t : M.State} (k : Nat) (h : M.step s = .next t) :
    M.run (k + 1) s = M.run k t := by
  rw [Host.Core.run, h]

/-- Legal accesses while BUSY = 1, one after another, all answer and stay inside the frame. -/
theorem run_accesses_busy (as : List HostAccess) (hb : s.busy = true) (h : s.agenda = as.map Event.host)
    (hwf : ∀ a ∈ as, a.wellFormed = true) :
    ∃ t, core.run as.length s = .next t ∧ (s.setAgenda []).HostFrame t := by
  induction as generalizing s with
  | nil =>
    have hs : s.setAgenda [] = s := by
      rw [← show s.agenda = [] from h]
      rfl
    exact ⟨s, rfl, hs ▸ .refl s⟩
  | cons a as ih =>
    obtain ⟨t, ht, hst⟩ := step_access_busy hb h (hwf a List.mem_cons_self)
    have htb : t.busy = true := by rw [State.busy, hst.latch]; exact hb
    obtain ⟨u, hu, htu⟩ := ih htb hst.agenda fun b hb => hwf b (List.mem_cons_of_mem a hb)
    exact ⟨u, (coreRun_succ core as.length ht).trans hu, (hst.setAgenda []).trans htu⟩

/-- Settles O18: every access keeps the latch and the operands (`run_accesses_busy`), and on the empty agenda the core
takes its turn. -/
theorem operandsHeldUntilPerformed : Obligations.OperandsHeldUntilPerformed := by
  intro s v as hv hag hwf
  obtain ⟨t, ht, hf⟩ := run_accesses_busy as (State.busy_eq_true.2 ⟨v, hv⟩) hag hwf
  refine ⟨t, ht, ?_, hf⟩
  rw [step_nil hf.agenda, State.coreTurn_busy (hf.latch.trans hv)]

/-! ### Byte lanes (R82) -/

/-- Byte j of a word's little-endian bytes is its byte lane j (R12). -/
theorem le64_getElem? (w : Word) {j : Nat} (hj : j < 8) : (le64 w)[j]? = some (w.extractLsb' (8 * j) 8) := by
  rw [le64, leBytes_getElem 8 _ j hj]
  congr 1
  apply BitVec.eq_of_toNat_eq
  rw [BitVec.toNat_ofNat, BitVec.extractLsb'_toNat, Nat.shiftRight_eq_div_pow, Nat.pow_mul]

/-- Byte lane j of the word of eight bytes is byte j. -/
theorem leWord_lane {bs : List Byte} (h : bs.length = 8) {j : Nat} (hj : j < 8) :
    some ((leWord bs).extractLsb' (8 * j) 8) = bs[j]? := by
  rw [← le64_getElem? _ hj, le64_leWord h]

/-- Byte lane j of a window read. -/
theorem windowRead_lane (m : Memory Byte) (cap k : Nat) (d : Word) {j : Nat} (hj : j < 8) :
    (windowRead m cap k d).extractLsb' (8 * j) 8 = windowByte m cap k d j := by
  apply Option.some.inj
  rw [windowRead, leWord_lane (by simp) hj]
  simp [hj]

theorem windowByte_of_read {m : Memory Byte} {cap k j : Nat} {b : Byte} (d : Word) (hj : k + j < cap)
    (h : m.read (k + j) = some b) : windowByte m cap k d j = b := by
  rw [windowByte, if_neg (by omega), h]

theorem windowByte_beyond (m : Memory Byte) {cap k j : Nat} (d : Word) (hj : cap ≤ k + j) :
    windowByte m cap k d j = 0 := if_pos hj

/-- Reading after a window write: the written lane inside the window's word and the capacity, the old byte elsewhere. -/
theorem read_windowWrite {m : Memory Byte} (h : m.wf) (cap k : Nat) (v : Word) (a : Nat) :
    (windowWrite m cap k v).read a =
      if k ≤ a ∧ a < k + 8 ∧ a < cap then some (v.extractLsb' (8 * (a - k)) 8) else m.read a := by
  rw [windowWrite, Memory.read_writeRange h, List.length_take, le64_length]
  by_cases ha : k ≤ a ∧ a < k + 8 ∧ a < cap
  · rw [if_pos ha, if_pos (by omega), List.getElem?_take_of_lt (by omega), le64_getElem? v (by omega)]
  · rw [if_neg ha, if_neg (by omega)]

theorem read_windowWrite_lane {m : Memory Byte} (h : m.wf) {cap k j : Nat} (v : Word) (hj : j < 8) (hc : k + j < cap) :
    (windowWrite m cap k v).read (k + j) = some (v.extractLsb' (8 * j) 8) := by
  rw [read_windowWrite h, if_pos (by omega), Nat.add_sub_cancel_left]

theorem read_windowWrite_outside {m : Memory Byte} (h : m.wf) {cap k a : Nat} (v : Word)
    (ha : a < k ∨ k + 8 ≤ a ∨ cap ≤ a) : (windowWrite m cap k v).read a = m.read a := by
  rw [read_windowWrite h, if_neg (by omega)]

/-- What a window read returns in its lanes: each specified byte below the capacity, and zero from the capacity on. -/
theorem windowRead_lanes (m : Memory Byte) (cap k : Nat) (d : Word) :
    (∀ j b, j < 8 → k + j < cap → m.read (k + j) = some b → (windowRead m cap k d).extractLsb' (8 * j) 8 = b) ∧
      (∀ j, j < 8 → cap ≤ k + j → (windowRead m cap k d).extractLsb' (8 * j) 8 = 0) :=
  ⟨fun _ _ hj hc hr => (windowRead_lane m cap k d hj).trans (windowByte_of_read d hc hr),
    fun _ hj hc => (windowRead_lane m cap k d hj).trans (windowByte_beyond m d hc)⟩

/-- A read of the MSG window while BUSY = 0. -/
theorem State.regValue_msg_idle (hb : s.busy = false) (d : Word) (k : Nat) :
    s.regValue d (.msg k) = windowRead s.msg s.caps.msgBytes k d := by
  simp [State.regValue, hb]

/-- A read of the OBUF window while BUSY = 0. -/
theorem State.regValue_obuf_idle (hb : s.busy = false) (d : Word) (k : Nat) :
    s.regValue d (.obuf k) = windowRead s.obuf s.caps.obufBytes k d := by
  simp [State.regValue, hb]

theorem hostReg_msg {k : Nat} (h : k < 0x10000) : hostReg (0x10000 + k) = .msg k := by
  rw [hostReg, if_neg (by omega), if_pos (by omega), Nat.add_sub_cancel_left]

theorem hostReg_obuf (k : Nat) : hostReg (0x20000 + k) = .obuf k := by
  rw [hostReg, if_pos (by omega), Nat.add_sub_cancel_left]

/-- Settles O15: an idle access of a buffer window is a window write (`read_windowWrite`) or a window read
(`windowRead_lane`) of its buffer. -/
theorem bufferWindowsAreLittleEndian : Obligations.BufferWindowsAreLittleEndian := by
  intro s k l hb hmsg hobuf h8 hk
  refine ⟨fun v h => ⟨_, step_write_idle hb h (by omega) (by omega), ?_⟩,
    fun v h => ⟨_, step_write_idle hb h (by omega) (by omega), ?_⟩,
    fun h => ⟨_, step_read h (by omega) (by omega), rfl, ?_⟩,
    fun h => ⟨_, step_read h (by omega) (by omega), rfl, ?_⟩⟩
  case refine_1 =>
    rw [hostReg_msg hk]
    exact ⟨rfl, fun j hj hc => read_windowWrite_lane hmsg v hj hc, fun a ha => read_windowWrite_outside hmsg v ha⟩
  case refine_2 =>
    rw [hostReg_obuf]
    exact ⟨rfl, fun j hj hc => read_windowWrite_lane hobuf v hj hc, fun a ha => read_windowWrite_outside hobuf v ha⟩
  case refine_3 =>
    rw [State.hostRead_rdata, hostReg_msg hk, State.regValue_msg_idle (s := s.setAgenda l) hb]
    exact windowRead_lanes s.msg s.caps.msgBytes k _
  case refine_4 =>
    rw [State.hostRead_rdata, hostReg_obuf, State.regValue_obuf_idle (s := s.setAgenda l) hb]
    exact windowRead_lanes s.obuf s.caps.obufBytes k _

end Sys2Proof.Machine
end

section
/-! PROOF. The bounds of the geometry in every state of the invariant (spec/20_memory.md R90,
45_engine.md R276, R277). -/

namespace Sys2Proof.Machine

/-- MEMBLOCKS and MEMKIB differ by the remainder of MEMKIB modulo 4p (R276, R277). -/
theorem memBlocksOf_add_mod (p : Params) :
    memBlocksOf p + p.memKib.toNat % (4 * p.lanes.toNat) = p.memKib.toNat :=
  Nat.div_add_mod _ _

/-- With CFG = 1 the MEMBLOCKS register holds the rounded memory size (R276): it fits 32 bits, as MEMKIB does. -/
theorem State.Inv.memBlocks_eq {s : State} (h : s.Inv) (hc : s.cfg = true) : s.memBlocks = memBlocksOf s.params := by
  obtain ⟨-, hg⟩ := h.configured hc
  rw [State.memBlocks, hg]
  exact Nat.mod_eq_of_lt (lt_of_le_of_lt (memBlocksOf_le s.params) s.params.memKib.isLt)

/-- Settles O30: the numbers of a configuration (`State.Inv.geom`), and the remainder that MEMBLOCKS leaves of MEMKIB
(`memBlocksOf_add_mod`). -/
theorem geometryBounds : Obligations.GeometryBounds := by
  refine fun s h => ⟨fun hc => ?_, fun hc => ?_⟩
  · have hg := h.geom hc
    have hrem : s.memBlocks + s.params.memKib.toNat % (4 * s.lanes) = s.params.memKib.toNat := by
      rw [h.memBlocks_eq hc]
      exact memBlocksOf_add_mod s.params
    have hlt : s.params.memKib.toNat % (4 * s.lanes) < 4 * s.lanes :=
      Nat.mod_lt _ (by have := hg.lanes_pos; omega)
    have hlane : 8 ≤ s.laneLen := by have := hg.laneLen_eq; have := hg.seg_ge; omega
    have hmul : s.memBlocks = s.laneLen * s.lanes := hg.memBlocks_eq.trans (Nat.mul_comm _ _)
    refine ⟨hg.memBlocks_le, hmul, hg.laneLen_eq, by omega, by omega, by omega, hg.seg_ge, hlane, ?_⟩
    rw [hmul]
    exact Nat.mul_le_mul_right _ hlane
  · have hz := h.unconfigured hc
    simp [State.memBlocks, State.laneLen, State.segLen, hz, Geometry.zero]

end Sys2Proof.Machine
end

section
/-! PROOF. Commands and operands as the host encodes them: the opcode map and the CMD value, block selectors, and the
commands that need a configuration (spec/30_encoding.md R110-R112, R116). -/

namespace Sys2Proof.Machine

/-! ### The opcode map and the CMD value (R110-R112) -/

/-- The opcode map lists the opcode of every command. -/
theorem decodeOpcode_opcode (i : Instr) : decodeOpcode (opcode i).toNat = some i := by
  cases i <;> rfl

/-- The opcode map lists a command under its own opcode and under no other. -/
theorem decodeOpcode_eq_some {n : Nat} {i : Instr} : decodeOpcode n = some i ↔ n = (opcode i).toNat := by
  refine ⟨fun h => ?_, fun h => h ▸ decodeOpcode_opcode i⟩
  unfold decodeOpcode at h
  split at h <;> cases h <;> rfl

/-- A value decodes to a command exactly when its reserved bits are zero and its OPC field holds the command's opcode
(R111). -/
theorem decode_eq_command {v : Word} {i : Instr} :
    decode v = .command i ↔ cmdReserved v = 0 ∧ cmdOpc v = opcode i := by
  have hopc : decodeOpcode (cmdOpc v).toNat = some i ↔ cmdOpc v = opcode i :=
    decodeOpcode_eq_some.trans BitVec.toNat_inj
  rw [← hopc]
  unfold decode
  by_cases hr : cmdReserved v = 0
  · rw [if_pos hr]
    cases decodeOpcode (cmdOpc v).toNat <;> simp [hr]
  · rw [if_neg hr]
    exact ⟨nofun, fun h => absurd h.1 hr⟩

/-- A CMD value is a byte exactly when its reserved bits are zero and its OPC field holds that byte (R110). -/
theorem eq_setWidth_iff_fields {v : Word} {b : Byte} : v = b.setWidth 64 ↔ cmdReserved v = 0 ∧ cmdOpc v = b := by
  have hv := v.isLt
  have hb := b.isLt
  simp only [cmdReserved, cmdOpc, ← BitVec.toNat_inj, BitVec.toNat_setWidth, BitVec.extractLsb'_toNat,
    BitVec.ofNat_eq_ofNat, BitVec.toNat_ofNat, Nat.shiftRight_eq_div_pow]
  omega

/-- Settles O5: decoding and encoding both pin the two fields of a CMD value (`decode_eq_command`,
`eq_setWidth_iff_fields`). -/
theorem decodeEncodeAgree : Obligations.DecodeEncodeAgree :=
  fun _ _ => decode_eq_command.trans eq_setWidth_iff_fields.symm

@[simp] theorem decode_encode (i : Instr) : decode (encode i) = .command i := (decodeEncodeAgree _ i).2 rfl

/-- Settles O4: each assigned value is its command's encoding, and the three others fail a check of the decoder. -/
theorem opcodeMapSamples : Obligations.OpcodeMapSamples :=
  ⟨decode_encode .nop, decode_encode .zeroize, decode_encode .hprime, decode_encode .bfrombytes,
    decode_encode .fblockx, decode_encode .aword, decode_encode .fmatrix, decode_encode .seed, rfl, rfl, rfl⟩

/-! ### Block selectors (R116) -/

/-- Bit 63 tells a working block's selector from a matrix block's. -/
theorem selector_bit63 (sel : Word) : sel.getLsbD 63 = decide (2 ^ 63 ≤ sel.toNat) := sel.msb_eq_decide

theorem blockOfSelector_mtx (memBlocks : Nat) {sel : Word} (h : sel.toNat < 2 ^ 63) :
    blockOfSelector memBlocks sel = if sel.toNat < memBlocks then some (.mtx sel.toNat) else none := by
  rw [blockOfSelector, if_pos (by rw [selector_bit63, decide_eq_false_iff_not]; omega)]

/-- The selector the assembler writes for a working block names it. -/
theorem blockOfSelector_wb (memBlocks : Nat) (r : WbReg) :
    blockOfSelector memBlocks (selectorOf (.wb r)) = some (.wb r) := by
  cases r <;> rfl

/-- Beyond the eight working blocks a bit of [62:3] is set, so the selector is not valid. -/
theorem blockOfSelector_beyond (memBlocks : Nat) {sel : Word} (h : 2 ^ 63 + 8 ≤ sel.toNat) :
    blockOfSelector memBlocks sel = none := by
  have hbit : sel.getLsbD 63 = true := by rw [selector_bit63, decide_eq_true_iff]; omega
  have hmid : sel.extractLsb' 3 60 ≠ 0#60 := by
    have hlt := sel.isLt
    rw [Ne, ← BitVec.toNat_inj, BitVec.extractLsb'_toNat, BitVec.toNat_ofNat, Nat.shiftRight_eq_div_pow]
    omega
  rw [blockOfSelector, hbit, if_neg (by decide)]
  exact if_neg hmid

/-- Settles O20: a selector below 2^63 is looked up below MEMBLOCKS, and from 2^63 on only the eight that the assembler
writes for working blocks are valid. -/
theorem blockSelectorNames : Obligations.BlockSelectorNames := by
  refine fun memBlocks sel => ⟨fun h hlt => ?_, fun h hge => ?_, fun r h => ?_, blockOfSelector_beyond memBlocks⟩
  · rw [blockOfSelector_mtx _ h, if_pos hlt]
  · rw [blockOfSelector_mtx _ h, if_neg (by omega)]
  · have hsel : sel = selectorOf (.wb r) := by
      rw [selectorOf, ← h, BitVec.ofNat_toNat, BitVec.setWidth_eq]
    rw [hsel, blockOfSelector_wb]

/-! ### Commands that need CFG = 1 (R112) -/

theorem requireConfigured_unconfigured {s : State} (hc : s.cfg = false) (b : Step) :
    requireConfigured s b = .next (s.raiseError .notConfigured) := by
  rw [requireConfigured_eq, hc]
  rfl

/-- Settles O19: each of the seven commands looks at CFG first. -/
theorem notConfiguredCommands : Obligations.NotConfiguredCommands := by
  intro s i hc hi
  fin_cases hi <;> exact requireConfigured_unconfigured hc _

end Sys2Proof.Machine
end

section
/-! PROOF. Host statements: the accesses a statement stands for, and how a command statement and LOADMSG run from an
idle core (spec/30_encoding.md R122, R123). -/

namespace Sys2Proof.Machine

variable {s t u : State} {l : List Event} {i : Instr}

/-! ### The accesses of a statement -/

theorem argEvents_eq (n : Nat) (ops : List Word) :
    argEvents n ops = (ops.zipIdx n).map fun v => Event.host (.write (0x080 + 8 * v.2) 8 v.1) := by
  induction ops generalizing n with
  | nil => rfl
  | cons v vs ih => rw [argEvents, ih, List.zipIdx_cons, List.map_cons, hostSet]

/-- Word j of a byte string, its missing bytes zero (R123). -/
def loadWord (bytes : List Byte) (j : Nat) : Word := leWord ((bytes.drop (8 * j)).take 8)

theorem loadEvents_eq (words off : Nat) (bytes : List Byte) :
    loadEvents words off bytes =
      (List.range words).map fun j => Event.host (.write (0x10000 + off + 8 * j) 8 (loadWord bytes j)) := by
  induction words generalizing off bytes with
  | zero => rfl
  | succ words ih =>
    rw [loadEvents, ih, List.range_succ_eq_map, List.map_cons, List.map_map]
    refine congrArg₂ _ rfl (List.map_congr_left fun j _ => ?_)
    simp only [Function.comp_apply, loadWord, List.drop_drop]
    rw [show 0x10000 + (off + 8) + 8 * j = 0x10000 + off + 8 * j.succ by omega,
      show 8 + 8 * j = 8 * j.succ by omega]

/-- Byte j of the number a byte string stands for is its byte j, or zero past its end. -/
theorem leNat_byte (bs : List Byte) (j : Nat) : leNat bs / 256 ^ j % 256 = (bs[j]?.getD 0).toNat := by
  induction bs generalizing j with
  | nil => simp [leNat]
  | cons b bs ih =>
    have hb := b.isLt
    cases j with
    | zero =>
      simp only [leNat, List.getElem?_cons_zero, Option.getD_some]
      omega
    | succ j =>
      have hdiv : (b.toNat + 256 * leNat bs) / 256 = leNat bs := by omega
      rw [leNat, Nat.pow_succ', ← Nat.div_div_eq_div_mul, hdiv, List.getElem?_cons_succ, ih]

/-- Byte lane j of the word of at most eight bytes is byte j, or zero where it is missing (R12). -/
theorem leWord_lane_padded {bs : List Byte} (h : bs.length ≤ 8) (j : Nat) :
    (leWord bs).extractLsb' (8 * j) 8 = bs[j]?.getD 0 := by
  have hlt : leNat bs < 2 ^ 64 :=
    lt_of_lt_of_le (leNat_lt bs) (le_trans (Nat.pow_le_pow_right (by omega) h) (by norm_num))
  apply BitVec.eq_of_toNat_eq
  rw [BitVec.extractLsb'_toNat, leWord, BitVec.toNat_ofNat, Nat.mod_eq_of_lt hlt, Nat.shiftRight_eq_div_pow,
    Nat.pow_mul, ← leNat_byte bs j]

theorem leWord_take_lane (bytes : List Byte) {b : Nat} (hb : b < 8) :
    (leWord (bytes.take 8)).extractLsb' (8 * b) 8 = bytes[b]?.getD 0 := by
  rw [leWord_lane_padded (List.length_take_le 8 _), List.getElem?_take_of_lt hb]

theorem loadWord_lane (bytes : List Byte) (j : Nat) {b : Nat} (hb : b < 8) :
    (loadWord bytes j).extractLsb' (8 * b) 8 = bytes[8 * j + b]?.getD 0 := by
  rw [loadWord, leWord_take_lane _ hb, List.getElem?_drop]

/-- The numbers of the OBUF words that hold one of the n bytes from an offset on (R123). -/
def readoutWords (off n : Nat) : List Nat :=
  (List.range (if n = 0 then 0 else (off + n + 7) / 8 - off / 8)).map (off / 8 + ·)

theorem readoutWords_pairwise (off n : Nat) : (readoutWords off n).Pairwise (· < ·) :=
  List.pairwise_map.2 (List.pairwise_lt_range.imp fun h => by omega)

theorem mem_readoutWords {off n q : Nat} : q ∈ readoutWords off n ↔ ∃ j, j < n ∧ (off + j) / 8 = q := by
  simp only [readoutWords, List.mem_map, List.mem_range]
  constructor
  · rintro ⟨i, hi, rfl⟩
    split at hi
    · omega
    · exact ⟨8 * (off / 8 + i) - off, by omega, by omega⟩
  · rintro ⟨j, hj, rfl⟩
    rw [if_neg (by omega)]
    exact ⟨(off + j) / 8 - off / 8, by omega, by omega⟩

theorem stmtEvents_readout (off n : Nat) :
    stmtEvents (.readout off n) = (readoutWords off n).map fun q => Event.host (.read (0x20000 + 8 * q) 8) := by
  rw [readoutWords, List.map_map]
  rfl

/-! ### The ARG writes of a command statement (R122) -/

/-- The argument registers after operands have been written from ARGn on. -/
def argsFrom (args : Vector Word 6) (n : Nat) (ops : List Word) : Vector Word 6 :=
  Vector.ofFn fun m => if n ≤ m.val then ops[m.val - n]?.getD args[m] else args[m]

theorem argsFrom_getElem (args : Vector Word 6) (n : Nat) (ops : List Word) {m : Nat} (hm : m < 6) :
    (argsFrom args n ops)[m] = if n ≤ m then ops[m - n]?.getD args[m] else args[m] := by
  simp [argsFrom]

theorem argsFrom_nil (args : Vector Word 6) (n : Nat) : argsFrom args n [] = args :=
  Vector.ext fun m hm => by simp [argsFrom_getElem]

theorem argsFrom_cons (args : Vector Word 6) {n : Nat} (hn : n < 6) (v : Word) (vs : List Word) :
    argsFrom (args.set n v) (n + 1) vs = argsFrom args n (v :: vs) := by
  refine Vector.ext fun m hm => ?_
  rw [argsFrom_getElem, argsFrom_getElem, Vector.getElem_set]
  rcases Nat.lt_trichotomy m n with h | rfl | h
  · rw [if_neg (by omega : ¬n + 1 ≤ m), if_neg (by omega : ¬n = m), if_neg (by omega : ¬n ≤ m)]
  · simp
  · rw [if_pos (by omega : n + 1 ≤ m), if_neg (by omega : ¬n = m), if_pos (by omega : n ≤ m),
      show m - n = m - (n + 1) + 1 by omega, List.getElem?_cons_succ]

theorem argsFrom_zero (args : Vector Word 6) (ops : List Word) :
    argsFrom args 0 ops = Vector.ofFn fun n : Fin 6 => ops[n.val]?.getD args[n] := by
  simp [argsFrom]

/-- The operands of a statement written to ARGn and the registers after it. -/
def State.writeArgs (s : State) (n : Nat) (ops : List Word) : State := { s with args := argsFrom s.args n ops }

/-- The ARG writes, one step each, then the rest of a run (R46). -/
theorem run_argEvents {n : Nat} (ops : List Word) (hn : n + ops.length ≤ 6) (hb : s.busy = false)
    (h : s.agenda = argEvents n ops ++ l) (k : Nat) :
    core.run (ops.length + k) s = core.run k ((s.writeArgs n ops).setAgenda l) := by
  induction ops generalizing s n with
  | nil =>
    have hs : (s.writeArgs n []).setAgenda l = s := by
      rw [State.writeArgs, argsFrom_nil, ← show s.agenda = l from h]
      rfl
    rw [hs, List.length_nil, Nat.zero_add]
  | cons v vs ih =>
    rw [List.length_cons] at hn ⊢
    have hstep := step_write_idle hb h (by omega) (by omega)
    rw [hostReg_arg ⟨n, by omega⟩] at hstep
    rw [Nat.add_right_comm, State.writeArgs, ← argsFrom_cons s.args (by omega)]
    exact (coreRun_succ core _ hstep).trans
      (ih (s := (s.setAgenda (argEvents (n + 1) vs ++ l)).writeArg ⟨n, by omega⟩ v) (by omega) hb rfl)

/-! ### The command of a command statement -/

/-- A fault ends a run. -/
theorem coreRun_fault (M : Host.Core) {s : M.State} {f : M.Fault} (k : Nat) (h : M.step s = .fault f) :
    M.run (k + 1) s = .fault f := by
  rw [Host.Core.run, h]

/-- A command that answers leaves the core idle, and the inputs to come and the draw counter as they were. -/
theorem exec_ends_idle (h : exec i s = .next t) : t.busy = false ∧ t.agenda = s.agenda ∧ t.draws = s.draws := by
  cases exec_ends h with
  | error | badConfig => exact ⟨rfl, rfl, rfl⟩
  | complete hu => rw [hu.frame]; exact ⟨rfl, rfl, rfl⟩

/-- No command has more than five operands (R113), so its operands fit the six ARG registers. -/
theorem operandCount_le (i : Instr) : i.operandCount ≤ 5 := by
  cases i <;> decide

/-- The state a command statement's command runs in: its ARG and CMD writes done, WAIT's STATUS read to come. -/
def State.issued (s : State) (i : Instr) (ops : List Word) : State :=
  ((s.writeArgs 0 ops).issue (encode i)).setAgenda [.host (.read 0x008 8)]

theorem State.issued_eq (s : State) (i : Instr) (ops : List Word) :
    s.issued i ops = { s with
      args := Vector.ofFn fun n : Fin 6 => ops[n.val]?.getD s.args[n]
      latch := some (encode i), done := false, err := false, errCode := .none
      agenda := [.host (.read 0x008 8)] } := by
  rw [State.issued, State.writeArgs, argsFrom_zero]
  rfl

/-- The CMD write of an idle core (R44). -/
theorem step_cmd {v : Word} (hb : s.busy = false) (h : s.agenda = hostSet 0x010 v :: l) :
    step s = .next ((s.setAgenda l).issue v) := step_write_idle hb h rfl (by decide)

/-- A command statement from an idle core runs to the core's turn (R122). -/
theorem run_command_issue {ops : List Word} (hb : s.busy = false)
    (hwf : (Stmt.command i ops).wellFormed = true) :
    core.run (ops.length + 3) (s.setAgenda (stmtEvents (.command i ops))) =
      core.run 2 ((s.issued i ops).setAgenda waitEvents) := by
  have hlen : ops.length = i.operandCount := eq_of_beq hwf
  have hcount := operandCount_le i
  calc core.run (ops.length + 3) (s.setAgenda (stmtEvents (.command i ops)))
    _ = core.run 3 ((s.writeArgs 0 ops).setAgenda (hostSet 0x010 (encode i) :: waitEvents)) :=
      run_argEvents (s := s.setAgenda (stmtEvents (.command i ops))) (n := 0) ops (by omega) hb rfl 3
    _ = core.run 2 ((s.issued i ops).setAgenda waitEvents) :=
      coreRun_succ core 2 (step_cmd (s := (s.writeArgs 0 ops).setAgenda _) hb rfl)

/-- The core's turn of WAIT runs the issued command (R122). -/
theorem step_issued (s : State) (i : Instr) (ops : List Word) :
    step ((s.issued i ops).setAgenda waitEvents) = exec i (s.issued i ops) :=
  calc step ((s.issued i ops).setAgenda waitEvents)
    _ = (s.issued i ops).coreTurn := step_cons (s := (s.issued i ops).setAgenda waitEvents) rfl
    _ = (s.issued i ops).perform (encode i) := State.coreTurn_busy rfl
    _ = exec i (s.issued i ops) := State.perform_command (decode_encode i)

/-- A command that answers is followed by WAIT's STATUS read (R122, R123). -/
theorem run_command_next {ops : List Word} (hb : s.busy = false)
    (hwf : (Stmt.command i ops).wellFormed = true) (h : exec i (s.issued i ops) = .next u) :
    core.run (ops.length + 3) (s.setAgenda (stmtEvents (.command i ops))) =
      .next { u with agenda := [], rdata := u.statusWord, draws := s.draws + 1 } := by
  obtain ⟨-, hagenda, hdraws⟩ := exec_ends_idle h
  calc core.run (ops.length + 3) (s.setAgenda (stmtEvents (.command i ops)))
    _ = core.run 2 ((s.issued i ops).setAgenda waitEvents) := run_command_issue hb hwf
    _ = core.run 1 u := coreRun_succ core 1 ((step_issued s i ops).trans h)
    _ = .next ((u.setAgenda []).hostRead 0x008) := coreRun_succ core 0 (step_read hagenda rfl (by decide))
    _ = .next { u with agenda := [], rdata := u.statusWord, draws := s.draws + 1 } := by
      rw [← show u.draws = s.draws from hdraws]
      rfl

theorem run_command_fault {ops : List Word} {f : Fault} (hb : s.busy = false)
    (hwf : (Stmt.command i ops).wellFormed = true) (h : exec i (s.issued i ops) = .fault f) :
    core.run (ops.length + 3) (s.setAgenda (stmtEvents (.command i ops))) = .fault f :=
  (run_command_issue hb hwf).trans (coreRun_fault core 1 ((step_issued s i ops).trans h))

/-! ### LOADMSG -/

/-- Byte a of MSG after a byte string has been written from an offset on, in words whose missing bytes are zero. -/
def loadedByte (m : Memory Byte) (cap words off : Nat) (bytes : List Byte) (a : Nat) : Option Byte :=
  if off ≤ a ∧ a < off + 8 * words ∧ a < cap then some (bytes[a - off]?.getD 0) else m.read a

/-- The first word's write, and then the other words'. -/
theorem loadedByte_succ {m : Memory Byte} (hm : m.wf) (cap words off : Nat) (bytes : List Byte) (a : Nat) :
    loadedByte (windowWrite m cap off (leWord (bytes.take 8))) cap words (off + 8) (bytes.drop 8) a =
      loadedByte m cap (words + 1) off bytes a := by
  rw [loadedByte, loadedByte, read_windowWrite hm]
  by_cases hlater : off + 8 ≤ a ∧ a < off + 8 + 8 * words ∧ a < cap
  · rw [if_pos hlater, if_pos (by omega), List.getElem?_drop, show 8 + (a - (off + 8)) = a - off by omega]
  · rw [if_neg hlater]
    by_cases hfirst : off ≤ a ∧ a < off + 8 ∧ a < cap
    · rw [if_pos hfirst, if_pos (by omega), leWord_take_lane _ (by omega)]
    · rw [if_neg hfirst, if_neg (by omega)]

/-- The writes of a byte string to the MSG window fill its padded bytes below the capacity and nothing else. -/
theorem run_loadEvents (words : Nat) {off : Nat} {bytes : List Byte} (hb : s.busy = false) (hm : s.msg.wf)
    (h8 : off % 8 = 0) (hoff : off + 8 * words ≤ 0x10000) (h : s.agenda = loadEvents words off bytes) :
    ∃ t, core.run words s = .next t ∧ t = { s with agenda := [], msg := t.msg } ∧
      ∀ a, t.msg.read a = loadedByte s.msg s.caps.msgBytes words off bytes a := by
  induction words generalizing s off bytes with
  | zero =>
    refine ⟨s, rfl, ?_, fun a => (if_neg (by omega)).symm⟩
    rw [← show s.agenda = [] from h]
  | succ words ih =>
    have hstep := step_write_idle hb h (by omega) (by omega)
    rw [hostReg_msg (by omega)] at hstep
    obtain ⟨t, hrun, hframe, hread⟩ := ih
      (s := (s.setAgenda (loadEvents words (off + 8) (bytes.drop 8))).writeIdle (leWord (bytes.take 8)) (.msg off))
      hb (Memory.wf_writeRange hm _ _) (off := off + 8) (by omega) (by omega) rfl
    exact ⟨t, (coreRun_succ core words hstep).trans hrun, hframe,
      fun a => (hread a).trans (loadedByte_succ hm _ words off bytes a)⟩

/-! ### BLAMKA -/

/-- ARG0 and ARG1 written, the others kept. -/
theorem argsFrom_two (args : Vector Word 6) (a b : Word) : argsFrom args 0 [a, b] = (args.set 0 a).set 1 b := by
  rw [← argsFrom_cons args (by omega), ← argsFrom_cons _ (by omega), argsFrom_nil]

/-- What BLAMKA's statement leaves in the core (R186). -/
theorem exec_blamka_issued (s : State) (a b : Word) :
    exec .blamka (s.issued .blamka [a, b]) =
      .next ((s.issued .blamka [a, b]).writeRes 0 (blaMka a b)).complete := rfl

/-- Settles O60: the accesses of each statement (`argEvents_eq`, `loadEvents_eq`, `stmtEvents_readout`), the run of a
command statement up to its command's end (`run_command_next`, `run_command_fault`), and that of LOADMSG word by word
(`run_loadEvents`). -/
theorem statementRunsToItsEnd : Obligations.StatementRunsToItsEnd := by
  refine ⟨fun i ops => ?command, rfl, fun _ _ => rfl, ⟨fun _ _ => rfl, rfl⟩, rfl, fun off bytes => ?loadmsg,
    fun off n => ⟨readoutWords off n, stmtEvents_readout off n, readoutWords_pairwise off n, fun _ => mem_readoutWords⟩,
    fun s i ops hb hwf => ?runCommand, fun s off bytes hb hm hwf => ?runLoadmsg, fun s a b hb => ?runBlamka⟩
  case command =>
    exact congrArg (· ++ [.host (.write 0x010 8 (encode i)), .core, .host (.read 0x008 8)]) (argEvents_eq 0 ops)
  case loadmsg =>
    exact ⟨loadWord bytes, loadEvents_eq _ off bytes, fun j b _ hb => loadWord_lane bytes j hb⟩
  case runCommand =>
    intro before run
    have hbefore : before = s.issued i ops := (s.issued_eq i ops).symm
    rw [hbefore]
    exact ⟨fun u hu => ⟨run_command_next hb hwf hu, (exec_ends_idle hu).1⟩,
      fun f hf => run_command_fault hb hwf hf⟩
  case runLoadmsg =>
    simp only [Stmt.wellFormed, Bool.and_eq_true, beq_iff_eq, decide_eq_true_eq] at hwf
    obtain ⟨h8, hoff⟩ := hwf
    obtain ⟨t, hrun, hframe, hread⟩ := run_loadEvents (s := s.setAgenda (stmtEvents (.loadmsg off bytes)))
      ((bytes.length + 7) / 8) hb hm h8 (by omega) rfl
    simp only [State.setAgenda_msg, State.setAgenda_caps] at hread
    refine ⟨t, hrun, hframe, fun k hk hcap => ?_, fun k hk => ?_⟩
    · rw [hread, loadedByte, if_pos ⟨by omega, by omega, hcap⟩, Nat.add_sub_cancel_left]
    · exact (hread k).trans (if_neg (by omega))
  case runBlamka =>
    exact ⟨_, run_command_next hb rfl (exec_blamka_issued s a b), rfl, rfl, rfl, rfl, rfl, argsFrom_two s.args a b,
      rfl⟩

end Sys2Proof.Machine
end

section
/-! PROOF. The variable-length hash H' and its command HPRIME (spec/40_vlhash.md R140-R142). -/

namespace Sys2Proof.Machine

/-! ### The length of H' and its chunks (R140, R141) -/

/-- Settles O31: `hprime_length`, which counts the single digest or the chain of chunks. -/
theorem hprimeLength : Obligations.HprimeLength := fun X T _ => hprime_length X T

/-- The model's chain unrolled: V and its iterated 64-byte digests give 32 bytes each, and the last of them is digested
to the last chunk. -/
theorem hprimeChain_eq_flatMap (more last : Nat) (V : List Byte) :
    hprimeChain more last V =
      (List.range (more + 1)).flatMap (fun k => ((fun W => blake2b W 64)^[k] V).take 32) ++
        blake2b ((fun W => blake2b W 64)^[more] V) last := by
  induction more generalizing V with
  | zero => simp [hprimeChain]
  | succ more ih =>
    rw [hprimeChain, ih, List.range_succ_eq_map (n := more + 1), List.flatMap_cons, List.flatMap_map, List.append_assoc]
    rfl

theorem hprime_of_le {T : Nat} (X : List Byte) (h : T ≤ 64) : hprime X T = blake2b (le32 T ++ X) T := if_pos h

theorem hprime_of_lt {T : Nat} (X : List Byte) (h : 64 < T) :
    hprime X T = hprimeChain (hprimeChunks T - 1) (T - 32 * hprimeChunks T) (blake2b (le32 T ++ X) 64) :=
  if_neg (Nat.not_le.2 h)

/-- For T > 64 some chunk precedes the last one, whose length lies in 33..64 (R141). -/
theorem hprimeChunks_bounds {T : Nat} (h : 64 < T) :
    1 ≤ hprimeChunks T ∧ 33 ≤ T - 32 * hprimeChunks T ∧ T - 32 * hprimeChunks T ≤ 64 := by
  unfold hprimeChunks
  omega

/-- Settles O32: a single digest up to 64 bytes, and beyond them the chain unrolled by `hprimeChain_eq_flatMap`. -/
theorem hprimeChunksChain : Obligations.HprimeChunks := by
  refine fun X T => ⟨hprime_of_le X, fun hT => ?_⟩
  obtain ⟨hr, hlow, hhigh⟩ := hprimeChunks_bounds hT
  refine ⟨hr, hlow, hhigh, ?_⟩
  rw [hprime_of_lt X hT, hprimeChain_eq_flatMap, Nat.sub_add_cancel hr]
  rfl

/-! ### The command HPRIME (R142) -/

/-- HPRIME with its operands in range and its MSG range specified writes H' of the range to OBUF and completes. -/
theorem exec_hprime {s : State} {X : List Byte} (hmsg : s.args[0].toNat + s.args[1].toNat ≤ s.caps.msgBytes)
    (h1 : 1 ≤ s.args[2].toNat) (hT : s.args[2].toNat ≤ s.caps.obufBytes)
    (hX : s.readMsg s.args[0].toNat s.args[1].toNat = .ok X) :
    exec .hprime s = .next (s.writeObuf 0 (hprime X s.args[2].toNat)).complete := by
  have hok : (rangeOk (s.argNat 0) (s.argNat 1) s.caps.msgBytes && s.hprimeLenOk (s.argNat 2)) = true := by
    simp only [rangeOk, State.hprimeLenOk, Bool.and_eq_true, decide_eq_true_eq]
    exact ⟨hmsg, h1, hT⟩
  have hread : s.readMsg (s.argNat 0) (s.argNat 1) = .ok X := hX
  rw [exec, execHprime, requireOperands_eq, if_pos hok, hread]
  rfl

/-- What a byte string written from OBUF's start on leaves at each address: its own bytes, then what stood there. -/
theorem State.writeObuf_zero_read {s : State} (hw : s.obuf.wf) (bs : List Byte) (k : Nat) :
    (s.writeObuf 0 bs).obuf.read k = if k < bs.length then bs[k]? else s.obuf.read k := by
  simp [Memory.read_writeRange hw]

/-- Settles O33: the run of `exec_hprime` on the bytes of the range, and the H' bytes, `hprime_length` of them, at the
start of OBUF. -/
theorem hprimeCommand : Obligations.HprimeCommand := by
  intro s X hw hmsg h1 hT hlen hbytes
  have hX : s.readMsg s.args[0].toNat s.args[1].toNat = .ok X :=
    State.readMsg_eq_ok.2 (Memory.readRange_eq_ok.2 ⟨hlen, hlen ▸ hbytes⟩)
  have hread (k : Nat) := State.writeObuf_zero_read hw (hprime X s.args[2].toNat) k
  simp only [hprime_length] at hread
  exact ⟨_, exec_hprime hmsg h1 hT hX, rfl, fun k hk => (hread k).trans (if_pos hk),
    fun k hk => (hread k).trans (if_neg (Nat.not_lt.2 hk))⟩

end Sys2Proof.Machine
end

section
/-! PROOF. The Block functions and the block commands BXOR, BCLEAR, BTOBYTES and BFROMBYTES (spec/41_block.md
R160-R164). -/

namespace Sys2Proof.Machine

/-! ### The Block functions (R160) -/

/-- Byte b of a 1024-byte string is byte b mod 8 of word b / 8 of its block. -/
theorem fromBytes_byte {bs : List Byte} (hlen : bs.length = 1024) {b : Nat} (hb : b < 1024) :
    bs[b]? = some ((fromBytes bs)[b / 8].extractLsb' (8 * (b % 8)) 8) := by
  have hword : (fromBytes bs)[b / 8] = loadWord bs (b / 8) := fromBytes_getElem bs (b / 8) (by omega)
  rw [hword, loadWord_lane bs _ (Nat.mod_lt b (by decide)), Nat.div_add_mod, List.getElem?_eq_getElem (by omega)]
  rfl

theorem toBytes_fromBytes {bs : List Byte} (hlen : bs.length = 1024) : toBytes (fromBytes bs) = bs := by
  refine List.ext_getElem? fun b => ?_
  by_cases hb : b < 1024
  · rw [toBytes_getElem _ b hb, fromBytes_byte hlen hb]
  · rw [List.getElem?_eq_none (by simpa using hb), List.getElem?_eq_none (by omega)]

/-- The eight bytes of word k stand at 8k in the bytes of its block. -/
theorem toBytes_word (B : Block) {k : Nat} (hk : k < 128) : ((toBytes B).drop (8 * k)).take 8 = le64 B[k] := by
  refine List.ext_getElem? fun j => ?_
  by_cases hj : j < 8
  · have hdiv : (8 * k + j) / 8 = k := by omega
    have hmod : (8 * k + j) % 8 = j := by omega
    rw [List.getElem?_take_of_lt hj, List.getElem?_drop, toBytes_getElem _ _ (by omega), le64_getElem _ j hj]
    simp only [hdiv, hmod]
  · rw [List.getElem?_eq_none (by simp; omega), List.getElem?_eq_none (by simpa using hj)]

@[simp] theorem fromBytes_toBytes (B : Block) : fromBytes (toBytes B) = B := by
  ext1 k hk
  rw [fromBytes_getElem, toBytes_word B hk, leWord_le64]

/-- The number that the first n bytes stand for, as the sum R160 writes; a missing byte counts as zero. -/
theorem leNat_take_eq_sum (bs : List Byte) (n : Nat) :
    leNat (bs.take n) = ((List.range n).map fun j => (bs[j]?.getD 0).toNat * 2 ^ (8 * j)).sum := by
  induction n generalizing bs with
  | zero => simp [leNat]
  | succ n ih =>
    cases bs with
    | nil => simp [leNat]
    | cons b bs =>
      have hshift (j : Nat) :
          256 * ((bs[j]?.getD 0).toNat * 2 ^ (8 * j)) = (bs[j]?.getD 0).toNat * 2 ^ (8 * (j + 1)) := by ring
      rw [List.take_succ_cons, leNat, ih, List.range_succ_eq_map, List.map_cons, List.sum_cons, List.map_map,
        ← List.sum_map_mul_left]
      simp only [hshift]
      simp [Function.comp_def]

theorem fromBytes_toNat (bs : List Byte) {k : Nat} (hk : k < 128) :
    (fromBytes bs)[k].toNat = ((List.range 8).map fun j => (bs[8 * k + j]?.getD 0).toNat * 2 ^ (8 * j)).sum := by
  have hlt : leNat ((bs.drop (8 * k)).take 8) < 2 ^ 64 :=
    lt_of_lt_of_le (leNat_lt _) (Nat.pow_le_pow_right (n := 256) (by decide) (List.length_take_le 8 _))
  rw [fromBytes_getElem, leWord, BitVec.toNat_ofNat, Nat.mod_eq_of_lt hlt, leNat_take_eq_sum]
  simp only [List.getElem?_drop]

theorem xorInto_assoc (A B C : Block) : xorInto (xorInto A B) C = xorInto A (xorInto B C) := by
  ext1 k hk
  simp only [xorInto_getElem, BitVec.xor_assoc]

/-- Settles O34: the word and byte lemmas of each Block function. -/
theorem blockFunctions : Obligations.BlockFunctions :=
  ⟨fun B => ⟨toBytes_length B, fromBytes_toBytes B⟩, fun _ hlen => toBytes_fromBytes hlen, toBytes_getElem,
    fun A B k hk => ⟨xorInto_getElem A B k hk, zeroBlock_getElem k hk⟩, fun bs _ hk _ => fromBytes_toNat bs hk,
    fun A B C => ⟨xorInto_comm A B, xorInto_assoc A B C, xorInto_zero A, xorInto_self A⟩⟩

/-! ### The block commands (R161-R164) -/

@[simp] theorem State.note_note (s : State) (b c : Bool) : (s.note b).note c = s.note (b && c) := by
  simp [State.note, Bool.or_assoc]

/-- Recording the reads of two blocks records whether both are specified. -/
theorem State.noteBlock_noteBlock {s : State} {a b : BlockRef} {A B : Held Block} (ha : s.holding a = some A)
    (hb : s.holding b = some B) : (s.noteBlock a).noteBlock b = s.note (A.specified && B.specified) := by
  rw [State.noteBlock_of_holding ha rfl, State.noteBlock_of_holding (u := s.note A.specified) hb rfl, State.note_note]

/-- BXOR with valid selectors and sources that hold a value writes the XOR of what they hold (R161). -/
theorem exec_bxor {s : State} {d a b : BlockRef} {A B : Held Block} (hd : s.destBlock 0 = some d)
    (hsa : s.sourceBlock 1 = some a) (hsb : s.sourceBlock 2 = some b) (ha : s.holding a = some A)
    (hb : s.holding b = some B) :
    exec .bxor s =
      finish (.ok ((s.note (A.specified && B.specified)).writeBlock d (xorInto A.value B.value))) := by
  simp only [exec, execBxor, hd, hsa, hsb, State.readBlock_of_holding ha, State.readBlock_of_holding hb,
    State.noteBlock_noteBlock ha hb, ok_bind]
  rfl

/-- Settles O35: the run of `exec_bxor`, whose write and record `finish_writeBlock` describes. -/
theorem bxorCommand : Obligations.BxorCommand := by
  intro s d a b A B hw hd hne hsa hsb ha hb
  obtain ⟨t, ht, hframe, hdest, hrest⟩ :=
    finish_writeBlock hw hne (A.specified && B.specified) (xorInto A.value B.value)
  refine ⟨t, _, (exec_bxor (State.destBlock_eq hd hne) hsa hsb ha hb).trans ht, ?_, hdest,
    xorInto_getElem A.value B.value, hrest⟩
  rwa [Bool.not_and, ← Bool.or_assoc] at hframe

/-- Everything a command does whose whole effect is one block written, when it has read no unspecified register. -/
theorem finish_writeBlock_specified {s : State} {d : BlockRef} (hw : s.mtx.wf) (hd : d ≠ .wb .zero) (C : Block) :
    ∃ t, finish (.ok (s.writeBlock d C)) = .next t ∧
      t = { s with mtx := t.mtx, wb := t.wb, done := true, latch := none } ∧
      t.holding d = some (.written C) ∧ ∀ r, r ≠ d → t.holding r = s.holding r := by
  simpa using finish_writeBlock hw hd true C

/-- BCLEAR with a valid destination writes the zero block (R164). -/
theorem exec_bclear {s : State} {d : BlockRef} (hd : s.destBlock 0 = some d) :
    exec .bclear s = finish (.ok (s.writeBlock d zeroBlock)) := by
  simp only [exec, execBclear, hd]

/-- Settles O36: the run of `exec_bclear`, whose write `finish_writeBlock_specified` describes. -/
theorem bclearCommand : Obligations.BclearCommand := by
  intro s d hw hd hne
  obtain ⟨t, ht, hframe, hdest, hrest⟩ := finish_writeBlock_specified hw hne zeroBlock
  exact ⟨t, _, (exec_bclear (State.destBlock_eq hd hne)).trans ht, hframe, hdest, zeroBlock_getElem, hrest⟩

/-- BTOBYTES with a source that holds a value and its range inside OBUF writes the bytes of what it holds (R162). -/
theorem exec_btobytes_of_holding {s : State} {a : BlockRef} {B : Held Block} (hsa : s.sourceBlock 0 = some a)
    (ha : s.holding a = some B) (hrange : s.args[1].toNat + 1024 ≤ s.caps.obufBytes) :
    exec .btobytes s =
      .next ((s.note B.specified).writeObuf s.args[1].toNat (toBytes B.value)).complete := by
  have hok : rangeOk (s.argNat 1) Config.blockBytes s.caps.obufBytes = true := decide_eq_true hrange
  simp only [exec, execBtobytes, hsa, requireOperands_eq, hok, State.readBlock_of_holding ha,
    State.noteBlock_of_holding ha rfl, ok_bind]
  rfl

/-- Settles O37: the run of `exec_btobytes_of_holding`, and the 1024 bytes of `toBytes_getElem` in its range. -/
theorem btobytesCommand : Obligations.BtobytesCommand := by
  intro s a B hw hsa ha hrange
  have hread (k : Nat) := Memory.read_writeRange hw s.args[1].toNat (toBytes B.value) k
  simp only [toBytes_length] at hread
  refine ⟨_, exec_btobytes_of_holding hsa ha hrange, rfl, fun b hb => ?_, fun k hk => ?_⟩
  · refine (hread _).trans ?_
    rw [if_pos (by omega), Nat.add_sub_cancel_left, toBytes_getElem _ b hb]
  · exact (hread k).trans (if_neg (by omega))

/-- BFROMBYTES with a valid destination and a specified range inside MSG writes the block of its bytes (R163). -/
theorem exec_bfrombytes {s : State} {d : BlockRef} {bs : List Byte} (hd : s.destBlock 0 = some d)
    (hrange : s.args[1].toNat + 1024 ≤ s.caps.msgBytes) (hbs : s.readMsg s.args[1].toNat 1024 = .ok bs) :
    exec .bfrombytes s = finish (.ok (s.writeBlock d (fromBytes bs))) := by
  have hok : rangeOk (s.argNat 1) Config.blockBytes s.caps.msgBytes = true := decide_eq_true hrange
  have hread : s.readMsg (s.argNat 1) Config.blockBytes = .ok bs := hbs
  simp only [exec, execBfrombytes, hd, requireOperands_eq, hok, hread, ok_bind]
  rfl

/-- Settles O38: the run of `exec_bfrombytes`, whose write `finish_writeBlock_specified` describes, and the bytes of the
block written by `fromBytes_byte`. -/
theorem bfrombytesCommand : Obligations.BfrombytesCommand := by
  intro s d bs hw hd hne hrange hlen hbytes
  have hbs : s.readMsg s.args[1].toNat 1024 = .ok bs :=
    State.readMsg_eq_ok.2 (Memory.readRange_eq_ok.2 ⟨hlen, hbytes⟩)
  obtain ⟨t, ht, hframe, hdest, hrest⟩ := finish_writeBlock_specified hw hne (fromBytes bs)
  exact ⟨t, _, (exec_bfrombytes (State.destBlock_eq hd hne) hrange hbs).trans ht, hframe, hdest,
    fun _ hb => fromBytes_byte hlen hb, hrest⟩

end Sys2Proof.Machine
end

section
/-! PROOF. The compressor: its functions against R180-R185 and R191 and the commands BLAMKA, GMIX, PROUND, FBLOCK and
FBLOCKX (spec/42_compressor.md R186-R190). -/

namespace Sys2Proof.Machine

/-! ### BlaMka and G (R180, R181) -/

@[simp] theorem lo32_toNat (x : Word) : (lo32 x).toNat = x.toNat % 2 ^ 32 := by
  have hx := x.isLt
  rw [lo32_eq, BitVec.toNat_setWidth, BitVec.toNat_setWidth]
  omega

/-- BlaMka as the sum of R180, taken modulo 2^64. -/
theorem blaMka_toNat (a b : Word) :
    (blaMka a b).toNat =
      (a.toNat + b.toNat + 2 * ((a.toNat % 2 ^ 32) * (b.toNat % 2 ^ 32))) % 2 ^ 64 := by
  simp [blaMka, BitVec.toNat_add, BitVec.toNat_mul]

/-- Settles O39: BLAMKA writes `blaMka` of its operands, whose value `blaMka_toNat` gives. -/
theorem blamkaCommand : Obligations.BlamkaCommand := fun s => ⟨_, rfl, blaMka_toNat s.args[0] s.args[1]⟩

/-- The four result registers written one after the other (R47). -/
theorem set_four (res : Vector Word 4) (a b c d : Word) :
    (((res.set 0 a).set 1 b).set 2 c).set 3 d = #v[a, b, c, d] := by
  ext1 k hk
  interval_cases k <;> simp

/-- GMIX writes the four words of G, as R180 and R181 write it (R187). -/
theorem exec_gmix (s : State) :
    let w := writtenG s.args[0] s.args[1] s.args[2] s.args[3]
    exec .gmix s = .next { s with res := #v[w.1, w.2.1, w.2.2.1, w.2.2.2], done := true, latch := none } := by
  intro w
  rw [← set_four s.res, show w = _ from writtenG_eq ..]
  rfl

/-- Settles O40: `exec_gmix`, the statement's lines being those of `writtenG`. -/
theorem gmixCommand : Obligations.GmixCommand := exec_gmix

/-! ### PROUND (R182, R183, R188) -/

/-- Word j of a group after the round: word j of P of the group's words (R183). -/
theorem applyGroup_groupIndex {g : Nat} (hg : g < 16) (Z : Block) (j : Fin 16) :
    (applyGroup g Z)[groupIndex g j]? =
      some (writtenP (Vector.ofFn fun i : Fin 16 => Z[groupIndex g i]?.getD 0))[j] := by
  have hwords (i : Fin 16) : Z[groupWord g i] = (Vector.ofFn fun i : Fin 16 => Z[groupIndex g i]?.getD 0)[i] := by
    simp [← groupWord_val hg]
  rw [← groupWord_val hg, Vector.getElem?_eq_getElem (groupWord g j).isLt, ← roundOn_id]
  exact congrArg some
    (roundOn_rel Z _ (groupWord g) id (groupWord_inj g hg) Function.injective_id hwords j)

/-- A word outside the group is left alone (R183). -/
theorem applyGroup_of_ne_groupIndex {g : Nat} (hg : g < 16) (Z : Block) {k : Nat} (hk : k < 128)
    (h : ∀ j, j < 16 → groupIndex g j ≠ k) : (applyGroup g Z)[k] = Z[k] :=
  roundOn_getElem_ne _ Z k hk fun j => by
    rw [groupWord_val hg]
    exact h j j.isLt

/-- PROUND with a valid destination that holds a value and a group in range applies the group to it (R188). -/
theorem exec_pround_of_holding {s : State} {d : BlockRef} {Z : Held Block} (hd : s.destBlock 0 = some d)
    (hZ : s.holding d = some Z) (hg : s.args[1].toNat < 16) :
    exec .pround s = finish (.ok ((s.note Z.specified).writeBlock d (applyGroup s.args[1].toNat Z.value))) := by
  have hok : groupOk (s.argNat 1) = true := decide_eq_true hg
  simp only [exec, execPround, hd, requireOperands_eq, hok, State.readBlock_of_holding hZ,
    State.noteBlock_of_holding hZ rfl, ok_bind]
  rfl

/-- Settles O41: the run of `exec_pround_of_holding`, whose write and record `finish_writeBlock` describes, and the
words inside and outside the group. -/
theorem proundCommand : Obligations.ProundCommand := by
  intro s d Z hw hsel hne hZ hg
  obtain ⟨t, ht, hframe, hdest, hrest⟩ := finish_writeBlock hw hne Z.specified (applyGroup s.args[1].toNat Z.value)
  exact ⟨t, _, (exec_pround_of_holding (State.destBlock_eq hsel hne) hZ hg).trans ht, hframe, hdest, hrest,
    fun _ hk => applyGroup_of_ne_groupIndex hg Z.value hk, applyGroup_groupIndex hg Z.value⟩

/-! ### The compression function (R184, R191) -/

/-- F with the groups applied as R183 writes them. -/
theorem compressF_eq_writtenF (X Y : Block) : compressF X Y = writtenF X Y := by
  have hgroups (R : Block) : (List.range 16).foldl (fun Z g => applyGroup g Z) R =
      (List.range 16).foldl (fun Z g => writtenGroup g Z) R :=
    List.foldl_ext _ _ R fun Z _ hg => applyGroup_eq (List.mem_range.1 hg) Z
  rw [compressF, hgroups]
  rfl

theorem compressF_comm (X Y : Block) : compressF X Y = compressF Y X := by
  simp only [compressF, xorInto_comm X Y]

@[simp] theorem compressF_self (X : Block) : compressF X X = zeroBlock := by
  simp only [compressF, xorInto_self, applyGroups_zero]

theorem compressF_zeroBlock_left (Y : Block) :
    compressF zeroBlock Y = xorInto Y ((List.range 16).foldl (fun Z g => applyGroup g Z) Y) := by
  simp only [compressF, zero_xorInto]

/-- Settles O44: `compressF_eq_writtenF` and the algebra of F. -/
theorem compressorProperties : Obligations.CompressorProperties :=
  ⟨compressF_eq_writtenF, compressF_comm, compressF_self, compressF_self zeroBlock, compressF_zeroBlock_left⟩

/-! ### FBLOCK and FBLOCKX (R189, R190) -/

/-- FBLOCK with valid selectors and sources that hold a value writes F of what they hold (R189). -/
theorem exec_fblock {s : State} {d x y : BlockRef} {X Y : Held Block} (hd : s.destBlock 0 = some d)
    (hsx : s.sourceBlock 1 = some x) (hsy : s.sourceBlock 2 = some y) (hX : s.holding x = some X)
    (hY : s.holding y = some Y) :
    exec .fblock s =
      finish (.ok ((s.note (X.specified && Y.specified)).writeBlock d (compressF X.value Y.value))) := by
  simp only [exec, execFblock, hd, hsx, hsy, State.readBlock_of_holding hX, State.readBlock_of_holding hY,
    State.noteBlock_noteBlock hX hY, ok_bind]
  rfl

/-- Settles O42: the run of `exec_fblock`, whose write and record `finish_writeBlock` describes. -/
theorem fblockCommand : Obligations.FblockCommand := by
  intro s d x y X Y hw hsel hne hsx hsy hX hY
  obtain ⟨t, ht, hframe, hdest, hrest⟩ :=
    finish_writeBlock hw hne (X.specified && Y.specified) (compressF X.value Y.value)
  refine ⟨t, (exec_fblock (State.destBlock_eq hsel hne) hsx hsy hX hY).trans ht, ?_, hdest, hrest⟩
  rwa [Bool.not_and, ← Bool.or_assoc] at hframe

/-- FBLOCKX with valid selectors and three blocks that hold a value writes F of the sources XORed with what the
destination held (R190). -/
theorem exec_fblockx {s : State} {d x y : BlockRef} {X Y D : Held Block} (hd : s.destBlock 0 = some d)
    (hsx : s.sourceBlock 1 = some x) (hsy : s.sourceBlock 2 = some y) (hX : s.holding x = some X)
    (hY : s.holding y = some Y) (hD : s.holding d = some D) :
    exec .fblockx s = finish (.ok ((s.note (X.specified && Y.specified && D.specified)).writeBlock d
      (compressFx X.value Y.value D.value))) := by
  have hnote : ((s.noteBlock x).noteBlock y).noteBlock d =
      s.note (X.specified && Y.specified && D.specified) := by
    rw [State.noteBlock_noteBlock hX hY, State.noteBlock_of_holding (u := s.note _) hD rfl,
      State.note_note]
  simp only [exec, execFblockx, hd, hsx, hsy, State.readBlock_of_holding hX, State.readBlock_of_holding hY,
    State.readBlock_of_holding hD, hnote, ok_bind]
  rfl

/-- `Fx` of three equal blocks is that block, F of two equal blocks being zero (R185, R191). -/
@[simp] theorem compressFx_self (D : Block) : compressFx D D D = D := by
  rw [compressFx, compressF_self, zero_xorInto]

/-- Settles O43: the run of `exec_fblockx`, whose write and record `finish_writeBlock` describes; with one block for all
three operands the block is kept by `compressFx_self`. -/
theorem fblockxCommand : Obligations.FblockxCommand := by
  intro s d x y X Y D hw hsel hne hsx hsy hX hY hD
  obtain ⟨t, ht, hframe, hdest, hrest⟩ := finish_writeBlock hw hne
    (X.specified && Y.specified && D.specified) (compressFx X.value Y.value D.value)
  refine ⟨t, _, (exec_fblockx (State.destBlock_eq hsel hne) hsx hsy hX hY hD).trans ht, ?frame, hdest,
    xorInto_getElem _ D.value, hrest, ?aliased⟩
  case frame => rwa [Bool.not_and, Bool.not_and, ← Bool.or_assoc, ← Bool.or_assoc] at hframe
  case aliased =>
    rintro rfl rfl
    obtain rfl : X = D := Option.some.inj (hX.symm.trans hD)
    obtain rfl : Y = X := Option.some.inj (hY.symm.trans hX)
    exact compressFx_self Y.value

end Sys2Proof.Machine
end

section
/-! PROOF. The address generator: its input block and counter (spec/43_address.md R210, R211) and the commands AINIT,
ANEXT and AWORD (R212-R214). -/

namespace Sys2Proof.Machine

/-! ### AINIT (R210, R212) -/

/-- The counter and the padding of the input block are zero (R210). -/
theorem inputBlock_getElem_of_six_le (pass lane slice memBlocks iter type : Nat) {k : Nat} (hk : k < 128)
    (h : 6 ≤ k) : (inputBlock pass lane slice memBlocks iter type)[k] = 0 := by
  obtain ⟨j, rfl⟩ := Nat.exists_eq_add_of_le' h
  simp [inputBlock]

/-- The frame of a command whose whole effect is AIN written. -/
theorem State.complete_writeWb_ain (s : State) (A : Block) :
    (s.writeWb .ain A).complete = { s with wb := { s.wb with ain := .written A }, done := true, latch := none } := rfl

/-- AINIT configured and with its operands in range writes the input block of the segment to AIN (R212). -/
theorem exec_ainit {s : State} (hcfg : s.cfg = true) (hpass : s.args[0].toNat < s.iter)
    (hlane : s.args[1].toNat < s.lanes) (hslice : s.args[2].toNat < 4) :
    exec .ainit s = .next (s.writeWb .ain
      (inputBlock s.args[0].toNat s.args[1].toNat s.args[2].toNat s.memBlocks s.iter s.type)).complete := by
  have hok : (s.passOk (s.argNat 0) && s.laneOk (s.argNat 1) && sliceOk (s.argNat 2)) = true := by
    simp only [Bool.and_eq_true]
    exact ⟨⟨decide_eq_true hpass, decide_eq_true hlane⟩, decide_eq_true hslice⟩
  rw [exec, execAinit, requireConfigured_eq, if_pos hcfg, requireOperands_eq, if_pos hok]
  rfl

/-- Settles O45: the run of `exec_ainit`, and the words of the input block: 0 to 5 hold registers, which fit in 64 bits,
and `inputBlock_getElem_of_six_le` gives the rest. -/
theorem ainitCommand : Obligations.AinitCommand := by
  intro s hcfg hpass hlane hslice
  refine ⟨_, (exec_ainit hcfg hpass hlane hslice).trans (congrArg _ (s.complete_writeWb_ain _)),
    ?pass, ?lane, ?slice, ?memBlocks, ?iter, ?type, fun _ hk => inputBlock_getElem_of_six_le _ _ _ _ _ _ hk⟩
  case pass | lane | slice => simp [inputBlock]
  case memBlocks => simp [inputBlock, State.memBlocks]
  case iter => simp [inputBlock, State.iter]
  case type => simp [inputBlock, State.type]

/-! ### ANEXT (R211, R213) -/

/-- A generation adds 1 to the counter modulo 2^64 (R211). -/
theorem bumpCounter_counter_toNat (A : Block) : (bumpCounter A)[6].toNat = (A[6].toNat + 1) % 2 ^ 64 := by
  simp [bumpCounter, BitVec.toNat_add]

/-- A generation keeps the other words of the input block (R211). -/
theorem bumpCounter_getElem_of_ne (A : Block) {k : Nat} (hk : k < 128) (h : k ≠ 6) : (bumpCounter A)[k] = A[k] :=
  Vector.getElem_set_ne (by decide) hk h.symm

/-- ANEXT records its read of AIN and makes one generation, in every state (R213). -/
theorem exec_anext (s : State) : exec .anext s = .next (s.noteWb .ain).generate.complete := rfl

/-- Settles O46: the run of `exec_anext`, and the input block after its counter is incremented. -/
theorem anextCommand : Obligations.AnextCommand := fun s =>
  ⟨bumpCounter s.wb.ain.value, exec_anext s, bumpCounter_counter_toNat _, fun _ => bumpCounter_getElem_of_ne _⟩

/-! ### AWORD (R214) -/

/-- AWORD records its read of ABLK and writes the word the index names, modulo 128, to RES0, in every state (R214). -/
theorem exec_aword (s : State) :
    exec .aword s =
      .next ((s.noteWb .ablk).writeRes 0 (wordOf (s.readWb .ablk) s.args[0].toNat)).complete := rfl

/-- Settles O47: the run of `exec_aword`, whose writes the statement spells out field by field. -/
theorem awordCommand : Obligations.AwordCommand := exec_aword

end Sys2Proof.Machine
end

section
/-! PROOF. Reference blocks: where they lie (spec/44_filler.md R242) and the command REFINDEX (R234-R238, R244). -/

namespace Sys2Proof.Machine

variable {s : State} {pass slice lane i j : Nat}

/-! ### Where the blocks of a position lie -/

/-- The flat index of the block at segment index i (R232). -/
abbrev State.currentFlat (s : State) (slice lane i : Nat) : Nat :=
  flatIndex s.laneLen lane (currentColumn s.segLen slice i)

/-- The flat index of its previous block (R232). -/
abbrev State.previousFlat (s : State) (slice lane i : Nat) : Nat :=
  flatIndex s.laneLen lane (previousColumn s.laneLen s.segLen slice i)

theorem flatIndex_eq_iff {q l c l' c' : Nat} (hc : c < q) (hc' : c' < q) :
    flatIndex q l c = flatIndex q l' c' ↔ l = l' ∧ c = c' :=
  ⟨flatIndex_inj hc hc', by rintro ⟨rfl, rfl⟩; rfl⟩

/-- The previous column is one less, or the last of the lane at column 0, which only pass > 0 computes (R231, R232). -/
theorem previousColumn_cases (hg : s.Geom) (hi : startIndex pass slice ≤ i) :
    previousColumn s.laneLen s.segLen slice i + 1 = slice * s.segLen + i ∨
      pass ≠ 0 ∧ slice = 0 ∧ i = 0 ∧ previousColumn s.laneLen s.segLen slice i + 1 = s.laneLen := by
  have hseg := hg.seg_ge
  have hq := hg.laneLen_eq
  unfold previousColumn currentColumn
  split
  · left; omega
  · next h0 =>
    have hslice : slice = 0 := by
      by_contra hne
      have : s.segLen ≤ slice * s.segLen := Nat.le_mul_of_pos_left _ (by omega)
      omega
    subst hslice
    have hi0 : i = 0 := by omega
    refine .inr ⟨?_, rfl, hi0, by omega⟩
    rintro rfl
    simp [startIndex, hi0] at hi

/-- The columns of the current slice end inside the lane. -/
theorem slice_end_le (hg : s.Geom) (hs : slice < 4) : slice * s.segLen + s.segLen ≤ s.laneLen := by
  have := hg.laneLen_eq
  interval_cases slice <;> omega

theorem State.referenceOf_lane_lt (hl : lane < s.lanes) (J : Word) :
    (s.referenceOf pass slice lane i J).lane < s.lanes :=
  referenceLane_lt hl J

theorem State.referenceOf_col_lt (hg : s.Geom) (J : Word) : (s.referenceOf pass slice lane i J).col < s.laneLen :=
  reference_col_lt (by have := hg.laneLen_eq; have := hg.seg_ge; omega) J

theorem State.referenceOf_flat_lt (hg : s.Geom) (hl : lane < s.lanes) (J : Word) :
    (s.referenceOf pass slice lane i J).flat < s.memBlocks :=
  hg.memBlocks_eq ▸ flatIndex_lt (referenceLane_lt hl J) (s.referenceOf_col_lt hg J)

/-- A reference lies below the previous block in its own segment, before the current slice, or, from pass 1 on, behind
the current slice and not at the block before column 0 (R242). -/
theorem State.referenceOf_place (hg : s.Geom) (hpos : s.legalPosition pass slice lane i) (J : Word) :
    let r := s.referenceOf pass slice lane i J
    (r.lane = lane ∧ r.col + 1 < slice * s.segLen + i) ∨ (r.lane ≠ lane ∧ r.col < slice * s.segLen) ∨
      (pass ≠ 0 ∧ slice * s.segLen + s.segLen ≤ r.col ∧
        (r.lane = lane → slice = 0 → i = 0 → r.col + 1 < s.laneLen)) := by
  intro r
  obtain ⟨-, hs, -, hi, hi'⟩ := hpos
  by_cases hp : pass = 0
  · subst hp
    obtain ⟨hsame, hother⟩ := reference_pass0 (p := s.lanes) (lane := lane) hg.seg_ge hg.laneLen_eq hs hi hi' J
    by_cases hr : r.lane = lane
    · exact .inl ⟨hr, hsame hr⟩
    · exact .inr (.inl ⟨hr, hother hr⟩)
  · obtain ⟨hother, hsame⟩ := reference_later (p := s.lanes) (lane := lane) hp hg.seg_ge hg.laneLen_eq hs hi' J
    by_cases hr : r.lane = lane
    · rcases hsame hr with h | ⟨h, hwrap⟩
      · exact .inl ⟨hr, h⟩
      · exact .inr (.inr ⟨hp, h, fun _ => hwrap⟩)
    · rcases hother hr with h | h
      · exact .inr (.inl ⟨hr, h⟩)
      · exact .inr (.inr ⟨hp, h, fun h' => absurd h' hr⟩)

/-- The previous block is none of the blocks the segment computes from here on. -/
theorem State.previousFlat_ne_currentFlat (hg : s.Geom) (hs : slice < 4) (hi : startIndex pass slice ≤ i) (hij : i ≤ j)
    (hj : j < s.segLen) : s.previousFlat slice lane i ≠ s.currentFlat slice lane j := by
  have hq := hg.laneLen_eq
  rw [State.previousFlat, State.currentFlat, Ne,
    flatIndex_eq_iff (previousColumn_lt hg hs (by omega)) (currentColumn_lt hg hs hj)]
  rintro ⟨-, h⟩
  unfold currentColumn at h
  rcases previousColumn_cases hg hi with hprev | ⟨-, rfl, rfl, hprev⟩ <;> omega

/-- The reference block is none of the blocks the segment computes from here on. -/
theorem State.referenceOf_flat_ne_currentFlat (hg : s.Geom) (hpos : s.legalPosition pass slice lane i) (hij : i ≤ j)
    (hj : j < s.segLen) (J : Word) : (s.referenceOf pass slice lane i J).flat ≠ s.currentFlat slice lane j := by
  have hplace := s.referenceOf_place hg hpos J
  obtain ⟨-, hs, -, -, -⟩ := hpos
  show flatIndex s.laneLen (s.referenceOf pass slice lane i J).lane (s.referenceOf pass slice lane i J).col ≠ _
  rw [State.currentFlat, Ne, flatIndex_eq_iff (s.referenceOf_col_lt hg J) (currentColumn_lt hg hs hj)]
  rintro ⟨hlane, hcol⟩
  unfold currentColumn at hcol
  rcases hplace with ⟨-, h⟩ | ⟨h, -⟩ | ⟨-, h, -⟩
  · omega
  · exact h hlane
  · omega

/-- The reference block is not the previous block (R242 (c)). -/
theorem State.referenceOf_flat_ne_previousFlat (hg : s.Geom) (hpos : s.legalPosition pass slice lane i) (J : Word) :
    (s.referenceOf pass slice lane i J).flat ≠ s.previousFlat slice lane i := by
  have hplace := s.referenceOf_place hg hpos J
  obtain ⟨-, hs, -, hi, hi'⟩ := hpos
  show flatIndex s.laneLen (s.referenceOf pass slice lane i J).lane (s.referenceOf pass slice lane i J).col ≠ _
  rw [State.previousFlat, Ne, flatIndex_eq_iff (s.referenceOf_col_lt hg J) (previousColumn_lt hg hs hi')]
  rintro ⟨hlane, hcol⟩
  rcases previousColumn_cases hg hi with hprev | ⟨-, hslice, hi0, hprev⟩ <;>
    rcases hplace with ⟨-, h⟩ | ⟨h, -⟩ | ⟨-, h, hwrap⟩
  · omega
  · exact h hlane
  · omega
  · subst hslice hi0; omega
  · exact h hlane
  · have := hwrap hlane hslice hi0; omega

/-- Settles O49: (a) and (b) from the sizes of R235-R238, (c) from `referenceOf_flat_ne_currentFlat` and
`referenceOf_flat_ne_previousFlat`, (d)-(f) by the three places of `referenceOf_place`. -/
theorem referenceInvariants : Obligations.ReferenceInvariants := by
  intro s pass slice lane i J hinv hcfg hpos
  have hg := hinv.geom hcfg
  have hplace := s.referenceOf_place hg hpos J
  have ⟨_, hs, hl, hi, hi'⟩ := hpos
  have hA : 1 ≤ (s.referenceOf pass slice lane i J).area := areaSize_pos hg.seg_ge hg.laneLen_eq hs hi
  refine ⟨hA, Nat.le_sub_one_of_lt (relativePosition_lt hA _), s.referenceOf_col_lt hg J, s.referenceOf_lane_lt hl J,
    s.referenceOf_flat_lt hg hl J, s.referenceOf_flat_ne_currentFlat hg hpos le_rfl hi' J,
    s.referenceOf_flat_ne_previousFlat hg hpos J, ?otherLane, ?sameLane, ?computed⟩
  case otherLane =>
    rintro hne ⟨hge, hlt⟩
    rcases hplace with ⟨h, -⟩ | ⟨-, h⟩ | ⟨-, h, -⟩
    · exact hne h
    · omega
    · omega
  case sameLane =>
    intro hlane hge hlt
    rcases hplace with ⟨-, h⟩ | ⟨h, -⟩ | ⟨-, h, -⟩
    · exact h
    · exact absurd hlane h
    · omega
  case computed =>
    intro hp
    rcases hplace with ⟨hlane, h⟩ | ⟨-, h⟩ | ⟨h, -, -⟩
    · exact .inr (.inr ⟨hlane, by omega⟩)
    · exact .inr (.inl h)
    · exact absurd hp h

/-! ### REFINDEX -/

@[simp] theorem hi32_toNat (x : Word) : (hi32 x).toNat = x.toNat / 2 ^ 32 := by
  simp [hi32, Nat.shiftRight_eq_div_pow]

/-- REFINDEX configured and with its operands in range puts the coordinates of the reference block in RES0 .. RES3
(R244). -/
theorem exec_refindex (hcfg : s.cfg = true) (hpass : s.args[1].toNat < s.iter) (hslice : s.args[2].toNat < 4)
    (hlane : s.args[3].toNat < s.lanes) (hi : s.args[4].toNat < s.segLen)
    (hstart : ¬(s.args[1].toNat = 0 ∧ s.args[2].toNat = 0 ∧ s.args[4].toNat < 2)) :
    let r := s.referenceOf s.args[1].toNat s.args[2].toNat s.args[3].toNat s.args[4].toNat s.args[0]
    exec .refindex s = .next { s with
      res := (((s.res.set 0 (BitVec.ofNat 64 r.lane)).set 1 (BitVec.ofNat 64 r.col)).set 2
        (BitVec.ofNat 64 r.flat)).set 3 (BitVec.ofNat 64 r.area)
      done := true, latch := none } := by
  have hindex : s.indexOk (s.argNat 1) (s.argNat 2) (s.argNat 4) = true := by
    simp only [State.indexOk, Bool.and_eq_true, Bool.not_eq_true', Bool.and_eq_false_iff, decide_eq_true_eq,
      beq_eq_false_iff_ne, decide_eq_false_iff_not]
    refine ⟨hi, ?_⟩
    simp only [State.argNat, State.arg, Fin.getElem_fin] at hstart ⊢
    tauto
  have hok : (s.passOk (s.argNat 1) && sliceOk (s.argNat 2) && s.laneOk (s.argNat 3) &&
      s.indexOk (s.argNat 1) (s.argNat 2) (s.argNat 4)) = true := by
    simp only [Bool.and_eq_true]
    exact ⟨⟨⟨decide_eq_true hpass, decide_eq_true hslice⟩, decide_eq_true hlane⟩, hindex⟩
  rw [exec, execRefindex, requireConfigured_eq, if_pos hcfg, requireOperands_eq, if_pos hok]
  rfl

/-- The area size with R235's cases in the order pass 0 and slice 0, pass 0, later. -/
theorem areaSize_eq (q seg pass slice i refLane lane : Nat) :
    areaSize q seg pass slice i (refLane == lane) =
      if pass = 0 ∧ slice = 0 then i - 1
      else if pass = 0 ∧ refLane = lane then slice * seg + i - 1
      else if pass = 0 then slice * seg - (if i = 0 then 1 else 0)
      else if refLane = lane then q - seg + i - 1
      else q - seg - (if i = 0 then 1 else 0) := by
  unfold areaSize
  by_cases hp : pass = 0 <;> by_cases hs : slice = 0 <;> by_cases hr : refLane = lane <;> simp [hp, hs, hr]

/-- An area is smaller than two lanes. -/
theorem areaSize_lt (hg : s.Geom) (hs : slice < 4) (hi : i < s.segLen) (same : Bool) :
    areaSize s.laneLen s.segLen pass slice i same < 2 * s.laneLen := by
  have hend := slice_end_le hg hs
  have := hg.laneLen_eq
  unfold areaSize
  split_ifs <;> omega

/-- The start position with R236's cases joined. -/
theorem areaStart_eq (seg pass slice : Nat) :
    areaStart seg pass slice = if pass = 0 ∨ slice = 3 then 0 else (slice + 1) * seg := by
  unfold areaStart
  by_cases hp : pass = 0 <;> by_cases hs : slice = 3 <;> simp [hp, hs]

/-- Settles O48: the run of `exec_refindex`; the coordinates fit 64 bits, and are those of R234-R238 with J's halves
taken by division. -/
theorem refindexCommand : Obligations.RefindexCommand := by
  intro s hinv hcfg hpass hslice hlane hi hstart J pass slice lane i q seg refLane A start x rel refCol
  have hg := hinv.geom hcfg
  let r := s.referenceOf pass slice lane i s.args[0]
  have hrLane : r.lane = refLane := by
    show referenceLane s.lanes pass slice lane s.args[0] = refLane
    rw [referenceLane, hi32_toNat]
  have hrArea : r.area = A := by
    show areaSize q seg pass slice i (r.lane == lane) = A
    rw [hrLane, areaSize_eq]
  have hrCol : r.col = refCol := by
    show (areaStart seg pass slice + relativePosition r.area (lo32 s.args[0]).toNat) % q = refCol
    rw [hrArea, areaStart_eq, relativePosition, lo32_toNat]
  have hrFlat : r.flat = refLane * q + refCol := by
    show r.lane * q + r.col = _
    rw [hrLane, hrCol]
  have hlanes : s.lanes < 2 ^ 32 := s.params.lanes.isLt
  have hq : s.laneLen < 2 ^ 32 := s.geom.laneLen.isLt
  have hblocks : s.memBlocks < 2 ^ 32 := s.geom.memBlocks.isLt
  have hlaneLt : r.lane < s.lanes := s.referenceOf_lane_lt hlane _
  have hcolLt : r.col < s.laneLen := s.referenceOf_col_lt hg _
  have hflatLt : r.flat < s.memBlocks := s.referenceOf_flat_lt hg hlane _
  have hareaLt : r.area < 2 * s.laneLen := areaSize_lt hg hslice hi _
  have hfits : ∀ n, n < 2 ^ 64 → (BitVec.ofNat 64 n).toNat = n := fun n hn => by
    rw [BitVec.toNat_ofNat, Nat.mod_eq_of_lt hn]
  refine ⟨_, exec_refindex hcfg hpass hslice hlane hi hstart, rfl, ?res0, ?res1, ?res2, ?res3⟩
  case res0 => rw [← hrLane, ← hfits r.lane (by omega)]; simp [r]
  case res1 => rw [← hrCol, ← hfits r.col (by omega)]; simp [r]
  case res2 => rw [← hrFlat, ← hfits r.flat (by omega)]; simp [r]
  case res3 => rw [← hrArea, ← hfits r.area (by omega)]; simp [r]

end Sys2Proof.Machine
end

section
/-! PROOF. The command FSEG: what the fill of a segment leaves in the matrix and in the working blocks
(spec/44_filler.md R239-R245), and that two lanes of a slice may be filled in either order (R246). -/

namespace Sys2Proof.Machine

variable {s t u : State} {pass slice lane i j : Nat} {old m : Memory Block}

/-! ### What a segment's fill computes -/

/-- J of the block at index i of a segment of s, from its previous block X (R233, R240). -/
def State.segmentRandom (s : State) (pass slice lane i : Nat) (X : Block) : Word :=
  if s.dataIndependent pass slice = true
    then wordOf (addressBlock (s.segmentInput pass slice lane (1 + i / 128))) i else wordOf X 0

/-- In the matrix m, the block at index i is the one that R241 computes from m and, under the XOR policy, from its
contents in the matrix old. Of s only the registers matter. -/
def State.RecursAt (s : State) (pass slice lane i : Nat) (old m : Memory Block) : Prop :=
  ∃ X Y D, m.read (s.previousFlat slice lane i) = some X ∧
    m.read (s.referenceOf pass slice lane i (s.segmentRandom pass slice lane i X)).flat = some Y ∧
    (s.xorPolicy pass = true → old.read (s.currentFlat slice lane i) = some D) ∧
    m.read (s.currentFlat slice lane i) = some (s.newBlock pass X Y D)

/-- m is old with the blocks below index i of a segment computed as R241 says. -/
structure State.SegmentFilled (s : State) (pass slice lane i : Nat) (old m : Memory Block) : Prop where
  wf : Memory.wf m
  outside : ∀ k, (∀ j, startIndex pass slice ≤ j → j < i → k ≠ s.currentFlat slice lane j) → m.read k = old.read k
  recurs : ∀ j, startIndex pass slice ≤ j → j < i → s.RecursAt pass slice lane j old m

theorem State.currentFlat_ne (h : i ≠ j) : s.currentFlat slice lane i ≠ s.currentFlat slice lane j := by
  unfold State.currentFlat flatIndex currentColumn
  omega

/-- A block the fill has computed is specified. -/
theorem State.RecursAt.isSome (h : s.RecursAt pass slice lane i old m) :
    (m.read (s.currentFlat slice lane i)).isSome = true := by
  obtain ⟨_, _, _, -, -, -, h⟩ := h
  simp [h]

/-- Computing a later block of the segment does not touch what the recurrence at index j speaks of. -/
theorem State.RecursAt.write (hg : s.Geom) (hw : Memory.wf m) (hpos : s.legalPosition pass slice lane j) (hji : j < i)
    (hi : i < s.segLen) (h : s.RecursAt pass slice lane j old m) (B : Block) :
    s.RecursAt pass slice lane j old (m.write (s.currentFlat slice lane i) B) := by
  obtain ⟨X, Y, D, hX, hY, hD, hC⟩ := h
  have hprev := s.previousFlat_ne_currentFlat (lane := lane) hg hpos.2.1 hpos.2.2.2.1 hji.le hi
  have href := s.referenceOf_flat_ne_currentFlat hg hpos hji.le hi (s.segmentRandom pass slice lane j X)
  refine ⟨X, Y, D, ?_, ?_, hD, ?_⟩
  · rw [Memory.read_write_ne hw hprev.symm, hX]
  · rw [Memory.read_write_ne hw href.symm, hY]
  · rw [Memory.read_write_ne hw (State.currentFlat_ne hji.ne'), hC]

/-- What the fill may read at index i is specified: the fillable blocks, and the blocks computed so far (R242). -/
theorem State.SegmentFilled.isSome (h : s.SegmentFilled pass slice lane i old m)
    (hold : ∀ l c, l < s.lanes → c < s.laneLen → (0 < pass ∨ c < 2 ∨ c < slice * s.segLen) →
      (old.read (flatIndex s.laneLen l c)).isSome = true) {l c : Nat} (hl : l < s.lanes) (hc : c < s.laneLen)
    (hcase : 0 < pass ∨ c < 2 ∨ c < slice * s.segLen ∨ (l = lane ∧ c < slice * s.segLen + i)) :
    (m.read (flatIndex s.laneLen l c)).isSome = true := by
  by_cases hin : ∃ j, startIndex pass slice ≤ j ∧ j < i ∧ flatIndex s.laneLen l c = s.currentFlat slice lane j
  · obtain ⟨j, hj, hji, he⟩ := hin
    rw [he]
    exact (h.recurs j hj hji).isSome
  · have hout : ∀ j, startIndex pass slice ≤ j → j < i → flatIndex s.laneLen l c ≠ s.currentFlat slice lane j :=
      fun j hj hji he => hin ⟨j, hj, hji, he⟩
    rw [h.outside _ hout]
    refine hold l c hl hc ?_
    rcases hcase with hp | hc2 | hcs | ⟨rfl, hci⟩
    · exact .inl hp
    · exact .inr (.inl hc2)
    · exact .inr (.inr hcs)
    · by_contra hnot
      have hstart : startIndex pass slice ≤ c - slice * s.segLen := by
        unfold startIndex
        split
        · next h0 =>
          obtain ⟨-, rfl⟩ := h0
          omega
        · omega
      refine hout (c - slice * s.segLen) hstart (by omega) ?_
      unfold State.currentFlat currentColumn
      rw [Nat.add_sub_cancel' (by omega)]

/-- The XOR policy of R243. -/
theorem State.xorPolicy_iff : s.xorPolicy pass = true ↔ 0 < pass ∧ s.params.version = 0x13 := by
  simp [State.xorPolicy]

theorem FillFrame.newBlock (h : FillFrame s t) (X Y D : Block) : t.newBlock pass X Y D = s.newBlock pass X Y D := by
  unfold State.newBlock
  rw [h.xorPolicy]

/-- J is found where the previous block is specified (R233). -/
theorem State.pseudoRandom_total {X : Block} (hX : u.mtx.read (u.previousFlat slice lane i) = some X) :
    ∃ J, (u.regenerate pass slice i).pseudoRandom pass slice lane i = .ok J := by
  obtain ⟨hf, hm, -⟩ := u.regenerate_frame pass slice i
  unfold State.pseudoRandom
  split
  · exact ⟨_, rfl⟩
  · refine ⟨wordOf X 0, ?_⟩
    simp only [bind_eq_ok, State.readMtx_eq_ok, pure_eq_ok, hf.laneLen, hf.segLen, hm]
    exact ⟨X, hX, rfl⟩

/-! ### The working blocks of a segment -/

/-- The working blocks before index i of a segment of s: those of R240 in a data-independent segment, and s's own
otherwise. -/
def State.segmentWb (s : State) (pass slice lane i : Nat) : Working :=
  if s.dataIndependent pass slice = true then s.addressWb pass slice lane i else s.wb

theorem State.segmentWb_of_dataIndependent (hd : s.dataIndependent pass slice = true) :
    s.segmentWb pass slice lane i = s.addressWb pass slice lane i := if_pos hd

theorem State.segmentWb_of_dataDependent (hd : s.dataIndependent pass slice = false) :
    s.segmentWb pass slice lane i = s.wb := if_neg (by simp [hd])

theorem State.enterSegment_wb (s : State) (pass slice lane : Nat) :
    (s.enterSegment pass slice lane).wb = s.segmentWb pass slice lane (startIndex pass slice) := by
  cases hd : s.dataIndependent pass slice with
  | true => rw [State.segmentWb_of_dataIndependent hd, enterSegment_addressWb hd]
  | false => rw [State.segmentWb_of_dataDependent hd, (s.enterSegment_frame pass slice lane).2.2 hd]

theorem State.fillBlock_wb (hf : FillFrame s u) (hw : u.wb = s.segmentWb pass slice lane i)
    (hi : startIndex pass slice ≤ i) (h : u.fillBlock pass slice lane i = .ok t) :
    t.wb = s.segmentWb pass slice lane (i + 1) := by
  cases hd : s.dataIndependent pass slice with
  | true =>
    obtain ⟨J, X, Y, D, -, -, -, -, rfl⟩ := State.fillBlock_eq_ok.1 h
    rw [State.segmentWb_of_dataIndependent hd] at hw ⊢
    rw [State.writeMtx_wb, regenerate_addressWb hd hf hw hi]
  | false =>
    rw [State.segmentWb_of_dataDependent hd] at hw ⊢
    rw [(State.fillBlock_frame h).2.2 ((hf.dataIndependent pass slice).trans hd), hw]

/-! ### The fill of a segment -/

theorem startIndex_le_segLen (hg : s.Geom) (pass slice : Nat) : startIndex pass slice ≤ s.segLen := by
  have := hg.seg_ge
  unfold startIndex
  split <;> omega

/-- The blocks that index i reads are specified (R241, R242). -/
theorem State.SegmentFilled.reads (hg : s.Geom) (hpos : s.legalPosition pass slice lane i)
    (hf : s.fillable pass slice) (h : s.SegmentFilled pass slice lane i s.mtx m) :
    ∃ X Y D, m.read (s.previousFlat slice lane i) = some X ∧
      m.read (s.referenceOf pass slice lane i (s.segmentRandom pass slice lane i X)).flat = some Y ∧
      (s.xorPolicy pass = true → s.mtx.read (s.currentFlat slice lane i) = some D) := by
  have ⟨_, hs, hl, hi, hi'⟩ := hpos
  have hread : ∀ {l c}, l < s.lanes → c < s.laneLen →
      (0 < pass ∨ c < 2 ∨ c < slice * s.segLen ∨ (l = lane ∧ c < slice * s.segLen + i)) →
      ∃ B, m.read (flatIndex s.laneLen l c) = some B := fun hl hc hcase =>
    Option.isSome_iff_exists.1 (h.isSome hf hl hc hcase)
  obtain ⟨X, hX⟩ : ∃ X, m.read (s.previousFlat slice lane i) = some X := by
    refine hread hl (previousColumn_lt hg hs hi') ?_
    rcases previousColumn_cases hg hi with hprev | ⟨hp, -⟩
    · exact .inr (.inr (.inr ⟨rfl, by omega⟩))
    · exact .inl (Nat.pos_of_ne_zero hp)
  obtain ⟨Y, hY⟩ :
      ∃ Y, m.read (s.referenceOf pass slice lane i (s.segmentRandom pass slice lane i X)).flat = some Y := by
    have hr := s.referenceOf_lane_lt (pass := pass) (slice := slice) (i := i) hl (s.segmentRandom pass slice lane i X)
    refine hread hr (s.referenceOf_col_lt hg _) ?_
    rcases s.referenceOf_place hg hpos (s.segmentRandom pass slice lane i X) with ⟨he, hlt⟩ | ⟨-, hlt⟩ | ⟨hp, -⟩
    · exact .inr (.inr (.inr ⟨he, Nat.lt_of_succ_lt hlt⟩))
    · exact .inr (.inr (.inl hlt))
    · exact .inl (Nat.pos_of_ne_zero hp)
  refine ⟨X, Y, (s.mtx.read (s.currentFlat slice lane i)).getD X, hX, hY, fun hx => ?_⟩
  obtain ⟨D, hD⟩ := Option.isSome_iff_exists.1
    (hf lane _ hl (currentColumn_lt hg hs hi') (.inl (State.xorPolicy_iff.1 hx).1))
  rw [State.currentFlat, hD, Option.getD_some]

/-- The block of index i written, the recurrence holds below i + 1. -/
theorem State.SegmentFilled.write (hg : s.Geom) (hpos : s.legalPosition pass slice lane i)
    (h : s.SegmentFilled pass slice lane i old m) {X Y D : Block} (hX : m.read (s.previousFlat slice lane i) = some X)
    (hY : m.read (s.referenceOf pass slice lane i (s.segmentRandom pass slice lane i X)).flat = some Y)
    (hD : s.xorPolicy pass = true → old.read (s.currentFlat slice lane i) = some D) :
    s.SegmentFilled pass slice lane (i + 1) old (m.write (s.currentFlat slice lane i) (s.newBlock pass X Y D)) := by
  have ⟨hp, hs, hl, hi, hi'⟩ := hpos
  refine ⟨Memory.wf_write h.wf _ _, fun k hk => ?_, fun j hj hji => ?_⟩
  · rw [Memory.read_write_ne h.wf (hk i hi (Nat.lt_succ_self i)).symm]
    exact h.outside k fun j hj hji => hk j hj (by omega)
  · rcases Nat.lt_succ_iff_lt_or_eq.1 hji with hlt | rfl
    · exact (h.recurs j hj hlt).write hg h.wf ⟨hp, hs, hl, hj, by omega⟩ hlt hi' _
    · refine ⟨X, Y, D, ?_, ?_, hD, Memory.read_write_same h.wf _ _⟩
      · rw [Memory.read_write_ne h.wf (s.previousFlat_ne_currentFlat hg hs hi le_rfl hi').symm, hX]
      · rw [Memory.read_write_ne h.wf (s.referenceOf_flat_ne_currentFlat hg hpos le_rfl hi' _).symm, hY]

/-- The block computation at index i answers, and extends the recurrence (R241). -/
theorem State.SegmentFilled.fillBlock (hg : s.Geom) (hpos : s.legalPosition pass slice lane i)
    (hf : s.fillable pass slice) (huf : FillFrame s u) (huw : u.wb = s.segmentWb pass slice lane i)
    (h : s.SegmentFilled pass slice lane i s.mtx u.mtx) :
    ∃ t, u.fillBlock pass slice lane i = .ok t ∧ s.SegmentFilled pass slice lane (i + 1) s.mtx t.mtx := by
  obtain ⟨X, Y, D, hX, hY, hD⟩ := h.reads hg hpos hf
  have hcur : u.mtx.read (s.currentFlat slice lane i) = s.mtx.read (s.currentFlat slice lane i) :=
    h.outside _ fun j _ hji => State.currentFlat_ne hji.ne'
  have huX : u.mtx.read (u.previousFlat slice lane i) = some X := by
    rw [State.previousFlat, huf.laneLen, huf.segLen]
    exact hX
  obtain ⟨J, hJ⟩ := State.pseudoRandom_total (pass := pass) huX
  have hJX : J = s.segmentRandom pass slice lane i X :=
    State.pseudoRandom_eq huf (fun hd => by rw [huw, State.segmentWb_of_dataIndependent hd]) hpos.2.2.2.1 hX hJ
  refine ⟨_, State.fillBlock_eq_ok.2 ⟨J, X, Y, D, hJ, huX, ?_, ?_, rfl⟩, ?_⟩
  · rw [huf.referenceOf, hJX, hY]
  · rw [huf.xorPolicy, huf.laneLen, huf.segLen]
    exact fun hx => hcur.trans (hD hx)
  · rw [State.writeMtx_mtx, (u.regenerate_frame pass slice i).2.1, huf.laneLen, huf.segLen, huf.newBlock]
    exact h.write hg hpos hX hY hD

/-- The fill of a segment answers from a fillable matrix, and satisfies the recurrence of R241. -/
theorem State.fillSegment_filled (hg : s.Geom) (hw : Memory.wf s.mtx) (hp : pass < s.iter) (hs : slice < 4)
    (hl : lane < s.lanes) (hf : s.fillable pass slice) :
    ∃ t, s.fillSegment pass slice lane = .ok t ∧ FillFrame s t ∧ t.wb = s.segmentWb pass slice lane s.segLen ∧
      s.SegmentFilled pass slice lane s.segLen s.mtx t.mtx := by
  have hstart := startIndex_le_segLen hg pass slice
  obtain ⟨hef, hem, -⟩ := s.enterSegment_frame pass slice lane
  obtain ⟨t, ht, htP⟩ := forRange_total (a := startIndex pass slice) (n := s.segLen - startIndex pass slice)
    (s := s.enterSegment pass slice lane) (body := fun i s => s.fillBlock pass slice lane i)
    (P := fun i u => FillFrame s u ∧ u.wb = s.segmentWb pass slice lane i ∧
      s.SegmentFilled pass slice lane i s.mtx u.mtx)
    (fun i u hi hi' ⟨huf, huw, hu⟩ => by
      obtain ⟨v, hv, hvm⟩ := hu.fillBlock hg ⟨hp, hs, hl, hi, by omega⟩ hf huf huw
      exact ⟨v, hv, huf.trans (State.fillBlock_frame hv).1, State.fillBlock_wb huf huw hi hv, hvm⟩)
    ⟨hef, s.enterSegment_wb pass slice lane, hem ▸ hw, fun _ _ => by rw [hem], fun j hj hji => by omega⟩
  rw [Nat.add_sub_cancel' hstart] at htP
  exact ⟨t, ht, htP⟩

/-- FSEG completes from a fillable matrix: the frame, the working blocks and the recurrence. -/
theorem exec_fseg_filled (hc : s.cfg = true) (hg : s.Geom) (hw : Memory.wf s.mtx) (hp : s.args[0].toNat < s.iter)
    (hs : s.args[1].toNat < 4) (hl : s.args[2].toNat < s.lanes) (hf : s.fillable s.args[0].toNat s.args[1].toNat) :
    ∃ t, exec .fseg s = .next t ∧ t = { s with mtx := t.mtx, wb := t.wb, done := true, latch := none } ∧
      t.wb = s.segmentWb s.args[0].toNat s.args[1].toNat s.args[2].toNat s.segLen ∧
      s.SegmentFilled s.args[0].toNat s.args[1].toNat s.args[2].toNat s.segLen s.mtx t.mtx := by
  obtain ⟨u, hu, huf, huw, hum⟩ := State.fillSegment_filled hg hw hp hs hl hf
  refine ⟨u.complete, by rw [exec_fseg hc hp hs hl, hu, finish_ok], ?_, huw, hum⟩
  rw [huf]
  rfl

/-- Settles O50: `exec_fseg_filled`; the blocks of the segment are those of its indices, and the working blocks are
those of R240 at index SEGLEN. -/
theorem fsegCommand : Obligations.FsegCommand := by
  intro s hinv hcfg hp hs hl hf pass slice lane first last
  obtain ⟨t, ht, hframe, hwb, (hfilled : s.SegmentFilled pass slice lane s.segLen s.mtx t.mtx)⟩ :=
    exec_fseg_filled hcfg (hinv.geom hcfg) hinv.mtxWf hp hs hl hf
  have hcurrent : ∀ j, s.currentFlat slice lane j = flatIndex s.laneLen lane (slice * s.segLen) + j := fun j =>
    (Nat.add_assoc ..).symm
  have hfirst : first = flatIndex s.laneLen lane (slice * s.segLen) + startIndex pass slice := (Nat.add_assoc ..).symm
  have hlast : last = flatIndex s.laneLen lane (slice * s.segLen) + s.segLen := (Nat.add_assoc ..).symm
  refine ⟨t, ht, hframe, fun k hk hk' => ?_, fun k hk => hfilled.outside k fun j hj hj' => ?_,
    fun hd => hwb.trans (State.segmentWb_of_dataDependent hd), fun hd => ?_⟩
  · have := (hfilled.recurs (k - flatIndex s.laneLen lane (slice * s.segLen)) (by omega) (by omega)).isSome
    rwa [hcurrent, Nat.add_sub_cancel' (by omega)] at this
  · rw [hcurrent]
    omega
  · have hn : generationsBefore pass slice s.segLen =
        if startIndex pass slice < s.segLen then 1 + (s.segLen - 1) / 128 else 0 := by
      unfold generationsBefore
      split_ifs <;> omega
    rw [hwb, State.segmentWb_of_dataIndependent hd, State.addressWb, hn]
    rfl

/-- Settles O51: the recurrence that `exec_fseg_filled` leaves at every index, with the cases of the XOR policy
apart. -/
theorem segmentSatisfiesTheRecurrence : Obligations.SegmentSatisfiesTheRecurrence := by
  intro s hinv hcfg hp hs hl hf pass slice lane
  obtain ⟨t, ht, -, -, hfilled⟩ := exec_fseg_filled hcfg (hinv.geom hcfg) hinv.mtxWf hp hs hl hf
  refine ⟨t, ht, fun i hi hi' => ?_⟩
  obtain ⟨X, Y, D, hX, hY, hD, hC⟩ := hfilled.recurs i hi hi'
  refine ⟨X, Y, hX, hY, fun hx => ?_, fun hpos hv => ?_⟩
  · rw [hC, State.newBlock, if_neg (fun h => hx (State.xorPolicy_iff.1 h))]
  · have hx := State.xorPolicy_iff.2 ⟨hpos, hv⟩
    refine ⟨D, hD hx, ?_⟩
    rw [hC, State.newBlock, if_pos hx]
    rfl

/-! ### Two lanes of a slice (R246) -/

theorem State.newBlock_congr {X Y D D' : Block} (h : s.xorPolicy pass = true → D = D') :
    s.newBlock pass X Y D = s.newBlock pass X Y D' := by
  unfold State.newBlock
  split
  · next hx => rw [h hx]
  · rfl

/-- The fill of a lane's segment depends on the lane's own blocks and on the blocks outside the slice only (R242): two
fills from matrices that agree there compute the same blocks. -/
theorem State.SegmentFilled.read_congr {old' m' : Memory Block} (hg : s.Geom) (hp : pass < s.iter) (hs : slice < 4)
    (hl : lane < s.lanes) (h : s.SegmentFilled pass slice lane s.segLen old m)
    (h' : s.SegmentFilled pass slice lane s.segLen old' m')
    (hold : ∀ l c, c < s.laneLen → (l = lane ∨ c < slice * s.segLen ∨ slice * s.segLen + s.segLen ≤ c) →
      old.read (flatIndex s.laneLen l c) = old'.read (flatIndex s.laneLen l c))
    (hi : startIndex pass slice ≤ i) (hi' : i < s.segLen) :
    m.read (s.currentFlat slice lane i) = m'.read (s.currentFlat slice lane i) := by
  induction i using Nat.strongRecOn with
  | ind i ih =>
    have hpos : s.legalPosition pass slice lane i := ⟨hp, hs, hl, hi, hi'⟩
    have hread : ∀ l c, c < s.laneLen → (l = lane ∨ c < slice * s.segLen ∨ slice * s.segLen + s.segLen ≤ c) →
        (∀ j, i ≤ j → j < s.segLen → flatIndex s.laneLen l c ≠ s.currentFlat slice lane j) →
        m.read (flatIndex s.laneLen l c) = m'.read (flatIndex s.laneLen l c) := by
      intro l c hc hcase hlater
      by_cases hin : ∃ j, startIndex pass slice ≤ j ∧ j < s.segLen ∧
          flatIndex s.laneLen l c = s.currentFlat slice lane j
      · obtain ⟨j, hj, hj', he⟩ := hin
        have hji : j < i := Nat.lt_of_not_le fun hij => hlater j hij hj' he
        rw [he]
        exact ih j hji hj hj'
      · have hout := fun j hj hj' he => hin ⟨j, hj, hj', he⟩
        rw [h.outside _ hout, h'.outside _ hout, hold l c hc hcase]
    obtain ⟨X, Y, D, hX, hY, hD, hC⟩ := h.recurs i hi hi'
    obtain ⟨X', Y', D', hX', hY', hD', hC'⟩ := h'.recurs i hi hi'
    obtain rfl : X = X' := by
      have := hread lane _ (previousColumn_lt hg hs hi') (.inl rfl) fun j hij hj =>
        s.previousFlat_ne_currentFlat hg hs hi hij hj
      rw [hX, hX'] at this
      exact Option.some.inj this
    obtain rfl : Y = Y' := by
      have := hread _ _ (s.referenceOf_col_lt hg _) ?_ fun j hij hj =>
        s.referenceOf_flat_ne_currentFlat hg hpos hij hj (s.segmentRandom pass slice lane i X)
      · exact Option.some.inj (hY.symm.trans (this.trans hY'))
      · rcases s.referenceOf_place hg hpos (s.segmentRandom pass slice lane i X) with ⟨he, -⟩ | ⟨-, hlt⟩ | ⟨-, hge, -⟩
        · exact .inl he
        · exact .inr (.inl hlt)
        · exact .inr (.inr hge)
    have hDD : s.xorPolicy pass = true → D = D' := fun hx => by
      have := hold lane _ (currentColumn_lt hg hs hi') (.inl rfl)
      rw [hD hx, hD' hx] at this
      exact Option.some.inj this
    rw [hC, hC', State.newBlock_congr hDD]

/-- A block of another lane, or one outside the slice, is not in the lane's segment. -/
theorem State.flatIndex_ne_currentFlat (hg : s.Geom) (hs : slice < 4) {l c : Nat} (hc : c < s.laneLen)
    (hcase : l ≠ lane ∨ c < slice * s.segLen ∨ slice * s.segLen + s.segLen ≤ c) (hj : j < s.segLen) :
    flatIndex s.laneLen l c ≠ s.currentFlat slice lane j := by
  rw [State.currentFlat, Ne, flatIndex_eq_iff hc (currentColumn_lt hg hs hj)]
  rintro ⟨he, hcol⟩
  unfold currentColumn at hcol
  rcases hcase with hne | hlt | hge
  · exact hne he
  · omega
  · omega

section TwoLanes

variable {a b : Nat} {m0 ma mb mab mba : Memory Block}

/-- Filling lane a before or after lane b gives the same blocks in lane a's segment. -/
theorem State.SegmentFilled.read_first (hg : s.Geom) (hp : pass < s.iter) (hs : slice < 4) (ha : a < s.lanes)
    (hab : a ≠ b) (h1 : s.SegmentFilled pass slice a s.segLen m0 ma) (h2 : s.SegmentFilled pass slice b s.segLen ma mab)
    (h3 : s.SegmentFilled pass slice b s.segLen m0 mb) (h4 : s.SegmentFilled pass slice a s.segLen mb mba)
    (hi : startIndex pass slice ≤ i) (hi' : i < s.segLen) :
    mab.read (s.currentFlat slice a i) = mba.read (s.currentFlat slice a i) := by
  have hsame : ma.read (s.currentFlat slice a i) = mba.read (s.currentFlat slice a i) :=
    h1.read_congr hg hp hs ha h4 (fun l c hc hcase => (h3.outside _ fun j _ hj =>
      State.flatIndex_ne_currentFlat hg hs hc (hcase.imp_left fun h => h ▸ hab) hj).symm) hi hi'
  rw [← hsame]
  exact h2.outside _ fun j _ hj => State.flatIndex_ne_currentFlat hg hs (currentColumn_lt hg hs hi') (.inl hab) hj

/-- The fills of two lanes of a slice commute (R246). -/
theorem State.SegmentFilled.comm (hg : s.Geom) (hp : pass < s.iter) (hs : slice < 4) (ha : a < s.lanes)
    (hb : b < s.lanes) (hab : a ≠ b) (h1 : s.SegmentFilled pass slice a s.segLen m0 ma)
    (h2 : s.SegmentFilled pass slice b s.segLen ma mab) (h3 : s.SegmentFilled pass slice b s.segLen m0 mb)
    (h4 : s.SegmentFilled pass slice a s.segLen mb mba) : mab = mba := by
  refine Memory.ext h2.wf h4.wf fun k => ?_
  by_cases hka : ∃ j, startIndex pass slice ≤ j ∧ j < s.segLen ∧ k = s.currentFlat slice a j
  · obtain ⟨j, hj, hj', rfl⟩ := hka
    exact h1.read_first hg hp hs ha hab h2 h3 h4 hj hj'
  by_cases hkb : ∃ j, startIndex pass slice ≤ j ∧ j < s.segLen ∧ k = s.currentFlat slice b j
  · obtain ⟨j, hj, hj', rfl⟩ := hkb
    exact (h3.read_first hg hp hs hb hab.symm h4 h1 h2 hj hj').symm
  have hna := fun j hj hj' he => hka ⟨j, hj, hj', he⟩
  have hnb := fun j hj hj' he => hkb ⟨j, hj, hj', he⟩
  calc mab.read k = ma.read k := h2.outside k hnb
    _ = m0.read k := h1.outside k hna
    _ = mb.read k := (h3.outside k hnb).symm
    _ = mba.read k := (h4.outside k hna).symm

end TwoLanes

/-- Of the state that names a segment only the parameter and geometry registers matter. -/
theorem State.SegmentFilled.congr (hp : u.params = s.params) (hg : u.geom = s.geom)
    (h : u.SegmentFilled pass slice lane i old m) : s.SegmentFilled pass slice lane i old m := by
  cases s
  cases u
  subst hp hg
  exact ⟨h.wf, h.outside, h.recurs⟩

/-- u has the registers of s that a fill reads, and what a fill of segment (pass, slice, ·) may read is specified. -/
structure State.FsegReady (s : State) (pass slice : Nat) (u : State) : Prop where
  cfg : u.cfg = true
  params : u.params = s.params
  geom : u.geom = s.geom
  caps : u.caps = s.caps
  wf : Memory.wf u.mtx
  fillable : ∀ l c, l < s.lanes → c < s.laneLen → (0 < pass ∨ c < 2 ∨ c < slice * s.segLen) →
    (u.mtx.read (flatIndex s.laneLen l c)).isSome = true

theorem State.FsegReady.refl (hinv : s.Inv) (hc : s.cfg = true) (hf : s.fillable pass slice) :
    s.FsegReady pass slice s :=
  ⟨hc, rfl, rfl, rfl, hinv.mtxWf, hf⟩

/-- FSEG from a ready state completes, fills its segment, and leaves a state ready for the other lanes. -/
theorem State.FsegReady.exec_fseg {pass slice lane : Word} (hg : s.Geom) (hp : pass.toNat < s.iter)
    (hs : slice.toNat < 4) (hl : lane.toNat < s.lanes) (hu : s.FsegReady pass.toNat slice.toNat u) :
    ∃ t, exec .fseg { u with args := #v[pass, slice, lane, 0, 0, 0] } = .next t ∧
      s.FsegReady pass.toNat slice.toNat t ∧
      s.SegmentFilled pass.toNat slice.toNat lane.toNat s.segLen u.mtx t.mtx := by
  obtain ⟨hcfg, hparams, hgeom, hcaps, hwf, hfill⟩ := hu
  let v : State := { u with args := #v[pass, slice, lane, 0, 0, 0] }
  have hlanes : u.lanes = s.lanes := by rw [State.lanes, hparams]; rfl
  have hiter : u.iter = s.iter := by rw [State.iter, hparams]; rfl
  have hsegLen : u.segLen = s.segLen := by rw [State.segLen, hgeom]; rfl
  have hlaneLen : u.laneLen = s.laneLen := by rw [State.laneLen, hgeom]; rfl
  have hfillable : u.fillable pass.toNat slice.toNat := by
    unfold State.fillable State.blockSpecified
    rwa [hlanes, hlaneLen, hsegLen]
  obtain ⟨t, ht, hframe, -, hfilled⟩ := exec_fseg_filled (s := v) hcfg (hg.congr hparams hgeom hcaps) hwf
    (hiter ▸ hp) hs (hlanes ▸ hl) hfillable
  have hfilled' : s.SegmentFilled pass.toNat slice.toNat lane.toNat s.segLen u.mtx t.mtx :=
    hsegLen ▸ State.SegmentFilled.congr (u := v) hparams hgeom hfilled
  refine ⟨t, ht, ⟨?_, ?_, ?_, ?_, hfilled'.wf, fun l c hl' hc hcase => ?_⟩, hfilled'⟩
  · rw [hframe]; exact hcfg
  · rw [hframe]; exact hparams
  · rw [hframe]; exact hgeom
  · rw [hframe]; exact hcaps
  · exact hfilled'.isSome hfill hl' hc (by tauto)

/-- Settles O52: both orders run from ready states, and the fills of two lanes commute (`SegmentFilled.comm`). -/
theorem laneOrderDoesNotMatter : Obligations.LaneOrderDoesNotMatter := by
  intro s pass slice a b hinv hcfg hp hs ha hb hab hf fseg
  have hg := hinv.geom hcfg
  have h0 := State.FsegReady.refl hinv hcfg hf
  obtain ⟨u1, hu1, hr1, h1⟩ := h0.exec_fseg hg hp hs ha
  obtain ⟨u2, hu2, -, h2⟩ := hr1.exec_fseg hg hp hs hb
  obtain ⟨w1, hw1, hr3, h3⟩ := h0.exec_fseg hg hp hs hb
  obtain ⟨w2, hw2, -, h4⟩ := hr3.exec_fseg hg hp hs ha
  exact ⟨u1, u2, w1, w2, hu1, hu2, hw1, hw2, h1.comm hg hp hs ha hb (fun h => hab (BitVec.eq_of_toNat_eq h)) h2 h3 h4⟩

end Sys2Proof.Machine
end

section
/-! PROOF. The command FMATRIX: which blocks it leaves unchanged and what it leaves in the working blocks
(spec/44_filler.md R245, R247). -/

namespace Sys2Proof.Machine

variable {s t u : State} {pass slice lane i : Nat}

/-! ### The frame of every fill, and what it keeps -/

theorem State.fillSlice_frame (hs : slice < 4) (ht : s.fillSlice pass slice = .ok t) : FillFrame s t :=
  (State.fillSlice_keeps (fillKeeps_true pass) hs trivial ht).2

theorem State.fillPass_frame (ht : s.fillPass pass = .ok t) : FillFrame s t :=
  (State.fillPass_keeps (fillKeeps_true pass) trivial ht).2

/-- A loop whose body keeps the frame keeps it. -/
theorem forRange_frame {a n : Nat} {body : Nat → State → Except Fault State}
    (hbody : ∀ v u u', v < a + n → FillFrame s u → body v u = .ok u' → FillFrame u u')
    (ht : forRange a n body s = .ok t) : FillFrame s t :=
  forRange_invariant (P := fun _ u => FillFrame s u)
    (fun v u u' _ hv hu hb => hu.trans (hbody v u u' hv hu hb)) (.refl s) ht

/-- A generation step writes AIN and ABLK only (R57, R211). -/
theorem State.regenerate_wb (s : State) (pass slice i : Nat) : (s.regenerate pass slice i).wb =
    { s.wb with ain := (s.regenerate pass slice i).wb.ain, ablk := (s.regenerate pass slice i).wb.ablk } := by
  unfold State.regenerate
  split <;> rfl

theorem State.enterSegment_wb_frame (s : State) (pass slice lane : Nat) : (s.enterSegment pass slice lane).wb =
    { s.wb with ain := (s.enterSegment pass slice lane).wb.ain, ablk := (s.enterSegment pass slice lane).wb.ablk } := by
  unfold State.enterSegment
  split
  · simp only [State.seedAddress, State.writeWb, Working.set]
  · rfl

/-- What every fill of s keeps: the matrix beyond MEMBLOCKS, and the working blocks but AIN and ABLK (R245, R247). -/
structure State.FillKept (s u : State) : Prop where
  frame : FillFrame s u
  wf : Memory.wf u.mtx
  beyond : ∀ k, s.memBlocks ≤ k → u.mtx.read k = s.mtx.read k
  wb : u.wb = { s.wb with ain := u.wb.ain, ablk := u.wb.ablk }

theorem fillKeeps_fillKept (hg : s.Geom) (pass : Nat) : FillKeeps pass s.FillKept where
  block := by
    rintro u t slice lane i ⟨hf, hw, hb, hwb⟩ hs hl - hi' h
    obtain ⟨htf, ⟨B, hB⟩, -⟩ := State.fillBlock_frame h
    have hug := hf.geomNumbers hg
    have hcur := flatIndex_lt hl (currentColumn_lt hug hs hi')
    rw [← hug.memBlocks_eq, hf.memBlocks] at hcur
    refine ⟨hf.trans htf, hB ▸ Memory.wf_write hw _ _, fun k hk => ?_, ?_⟩
    · rw [hB, Memory.read_write_ne hw (by omega), hb k hk]
    · obtain ⟨J, X, Y, D, -, -, -, -, rfl⟩ := State.fillBlock_eq_ok.1 h
      rw [State.writeMtx_wb, u.regenerate_wb, hwb]
  enter := by
    rintro u slice lane ⟨hf, hw, hb, hwb⟩ - -
    obtain ⟨hef, hem, -⟩ := u.enterSegment_frame pass slice lane
    refine ⟨hf.trans hef, hem ▸ hw, hem ▸ hb, ?_⟩
    rw [u.enterSegment_wb_frame, hwb]

theorem State.fillMatrix_kept (hg : s.Geom) (hw : Memory.wf s.mtx) (ht : s.fillMatrix = .ok t) : s.FillKept t :=
  (State.fillMatrix_keeps (fillKeeps_fillKept hg) ⟨.refl s, hw, fun _ _ => rfl, rfl⟩ ht).1

/-! ### AIN and ABLK after a fill -/

theorem State.fillSegment_wb (hg : s.Geom) (ht : s.fillSegment pass slice lane = .ok t) :
    t.wb = s.segmentWb pass slice lane s.segLen := by
  have := (forRange_invariant (P := fun i u => FillFrame s u ∧ u.wb = s.segmentWb pass slice lane i)
    (fun i u u' hi _ ⟨hf, hw⟩ hb => ⟨hf.trans (State.fillBlock_frame hb).1, State.fillBlock_wb hf hw hi hb⟩)
    ⟨(s.enterSegment_frame pass slice lane).1, s.enterSegment_wb pass slice lane⟩ ht).2
  rwa [Nat.add_sub_cancel' (startIndex_le_segLen hg pass slice)] at this

/-- AIN and ABLK of u are those that a data-independent segment of s leaves when it computes a block (R240). -/
def State.LeftBySegment (s : State) (pass slice lane : Nat) (u : State) : Prop :=
  let input := s.segmentInput pass slice lane (1 + (s.segLen - 1) / 128)
  u.wb.ain = .written input ∧ u.wb.ablk = .written (addressBlock input)

theorem State.LeftBySegment.of_frame (h : u.LeftBySegment pass slice lane t) (hf : FillFrame s u) :
    s.LeftBySegment pass slice lane t := by
  rw [hf] at h
  exact h

theorem State.fillSegment_leftBySegment (hg : s.Geom) (hd : s.dataIndependent pass slice = true)
    (hstart : startIndex pass slice < s.segLen) (ht : s.fillSegment pass slice lane = .ok t) :
    s.LeftBySegment pass slice lane t := by
  have hwb := State.fillSegment_wb hg ht
  have hn : generationsBefore pass slice s.segLen = 1 + (s.segLen - 1) / 128 := if_neg (by omega)
  rw [State.segmentWb_of_dataIndependent hd, State.addressWb, hn] at hwb
  rw [State.LeftBySegment, hwb]
  exact ⟨rfl, if_neg (by omega)⟩

/-- A loop whose body keeps the frame and the working blocks keeps the working blocks. -/
theorem forRange_wb_eq {a n : Nat} {body : Nat → State → Except Fault State}
    (hbody : ∀ v u u', a ≤ v → v < a + n → FillFrame s u → body v u = .ok u' → FillFrame u u' ∧ u'.wb = u.wb)
    (ht : forRange a n body s = .ok t) : t.wb = s.wb :=
  (forRange_invariant (P := fun _ u => FillFrame s u ∧ u.wb = s.wb)
    (fun v u u' hv hv' ⟨hf, hw⟩ hb =>
      have ⟨hf', hw'⟩ := hbody v u u' hv hv' hf hb
      ⟨hf.trans hf', hw'.trans hw⟩)
    ⟨.refl s, rfl⟩ ht).2

/-- A data-dependent slice leaves the working blocks alone (R240). -/
theorem State.fillSlice_wb_eq (hg : s.Geom) (hs : slice < 4) (hd : s.dataIndependent pass slice = false)
    (ht : s.fillSlice pass slice = .ok t) : t.wb = s.wb := by
  refine forRange_wb_eq (fun lane u u' _ hl hf hb => ⟨State.fillSegment_frame hs (by rw [hf.lanes]; omega) hb, ?_⟩) ht
  rw [State.fillSegment_wb (hf.geomNumbers hg) hb,
    State.segmentWb_of_dataDependent ((hf.dataIndependent pass slice).trans hd)]

/-- A data-dependent pass leaves the working blocks alone (R240). -/
theorem State.fillPass_wb_eq (hg : s.Geom) (hd : ∀ slice, slice < 4 → s.dataIndependent pass slice = false)
    (ht : s.fillPass pass = .ok t) : t.wb = s.wb :=
  forRange_wb_eq (fun slice _ _ _ hs hf hb =>
    have hs4 : slice < 4 := by simpa using hs
    ⟨State.fillSlice_frame hs4 hb,
      State.fillSlice_wb_eq (hf.geomNumbers hg) hs4 ((hf.dataIndependent pass slice).trans (hd slice hs4)) hb⟩) ht

/-- A loop that answers, cut at one of its indices. -/
theorem forRange_split {σ : Type} {a n k : Nat} {body : Nat → σ → Except Fault σ} {x y : σ} (hk : a ≤ k)
    (hk' : k < a + n) (h : forRange a n body x = .ok y) :
    ∃ v w, forRange a (k - a) body x = .ok v ∧ body k v = .ok w ∧
      forRange (k + 1) (a + n - (k + 1)) body w = .ok y := by
  rw [show n = (k - a) + ((a + n - (k + 1)) + 1) by omega, forRange_add, bind_eq_ok] at h
  obtain ⟨v, hv, hrest⟩ := h
  rw [show a + (k - a) = k by omega, forRange_succ, bind_eq_ok] at hrest
  obtain ⟨w, hw, hrest⟩ := hrest
  exact ⟨v, w, hv, hw, hrest⟩

/-- A data-independent slice leaves AIN and ABLK of its last lane's segment (R240, R247). -/
theorem State.fillSlice_leftBySegment (hg : s.Geom) (hs : slice < 4) (hd : s.dataIndependent pass slice = true)
    (hstart : startIndex pass slice < s.segLen) (ht : s.fillSlice pass slice = .ok t) :
    s.LeftBySegment pass slice (s.lanes - 1) t := by
  have hlanes := hg.lanes_pos
  obtain ⟨u, v, hu, hv, hrest⟩ := forRange_split (Nat.zero_le (s.lanes - 1)) (by omega) ht
  rw [show 0 + s.lanes - (s.lanes - 1 + 1) = 0 by omega] at hrest
  cases hrest
  have hf : FillFrame s u := forRange_frame
    (fun lane u u' hl hf hb => State.fillSegment_frame hs (by rw [hf.lanes]; omega) hb) hu
  exact (State.fillSegment_leftBySegment (hf.geomNumbers hg) ((hf.dataIndependent pass slice).trans hd)
    (hf.segLen ▸ hstart) hv).of_frame hf

/-- The filler leaves AIN and ABLK of the last lane's segment in its last data-independent slice, if that slice computes
blocks (R240, R247). -/
theorem State.fillMatrix_leftBySegment (hg : s.Geom) (hp : pass < s.iter) (hs : slice < 4)
    (hd : s.dataIndependent pass slice = true) (hstart : startIndex pass slice < s.segLen)
    (hlast : ∀ p q, p < s.iter → q < 4 → (pass < p ∨ p = pass ∧ slice < q) → s.dataIndependent p q = false)
    (ht : s.fillMatrix = .ok t) : s.LeftBySegment pass slice (s.lanes - 1) t := by
  obtain ⟨u, v, hu, hv, hpasses⟩ := forRange_split (Nat.zero_le pass) (by omega) ht
  obtain ⟨w, x, hw, hx, hslices⟩ := forRange_split (Nat.zero_le slice) (by simpa using hs) hv
  have hu : FillFrame s u := forRange_frame (fun _ _ _ _ _ hb => State.fillPass_frame hb) hu
  have hw : FillFrame s w := hu.trans (forRange_frame
    (fun q _ _ hq _ hb => State.fillSlice_frame (by omega) hb) hw)
  have hv : FillFrame s v := hu.trans (State.fillPass_frame hv)
  have hleft : s.LeftBySegment pass slice (s.lanes - 1) x := by
    have := State.fillSlice_leftBySegment (hw.geomNumbers hg) hs ((hw.dataIndependent pass slice).trans hd)
      (hw.segLen ▸ hstart) hx
    rw [hw.lanes] at this
    exact this.of_frame hw
  have hx : FillFrame s x := hw.trans (State.fillSlice_frame hs hx)
  have hvx : v.wb = x.wb := forRange_wb_eq (fun q y _ hq hq' hf hb => by
    have hq4 : q < 4 := by simp only [Config.syncPoints] at hq'; omega
    have hy := hx.trans hf
    exact ⟨State.fillSlice_frame hq4 hb, State.fillSlice_wb_eq (hy.geomNumbers hg) hq4
      ((hy.dataIndependent pass q).trans (hlast pass q hp hq4 (.inr ⟨rfl, hq⟩))) hb⟩) hslices
  have htv : t.wb = v.wb := forRange_wb_eq (fun p y _ hpp hp' hf hb => by
    have hy := hv.trans hf
    exact ⟨State.fillPass_frame hb, State.fillPass_wb_eq (hy.geomNumbers hg) (fun q hq =>
      (hy.dataIndependent p q).trans (hlast p q (by omega) hq (.inl hpp))) hb⟩) hpasses
  rw [State.LeftBySegment, htv, hvx]
  exact hleft

/-- A filler without data-independent segments leaves the working blocks alone (R240). -/
theorem State.fillMatrix_wb_eq (hg : s.Geom) (hd : ∀ p q, s.dataIndependent p q = false)
    (ht : s.fillMatrix = .ok t) : t.wb = s.wb :=
  forRange_wb_eq (fun p _ _ _ _ hf hb => ⟨State.fillPass_frame hb,
    State.fillPass_wb_eq (hf.geomNumbers hg) (fun q _ => (hf.dataIndependent p q).trans (hd p q)) hb⟩) ht

/-! ### FMATRIX -/

theorem State.dataIndependent_iff :
    s.dataIndependent pass slice = true ↔ s.type = 1 ∨ s.type = 2 ∧ pass = 0 ∧ slice < 2 := by
  simp [State.dataIndependent, and_assoc]

theorem State.dataIndependent_eq_false_iff :
    s.dataIndependent pass slice = false ↔ s.type ≠ 1 ∧ ¬(s.type = 2 ∧ pass = 0 ∧ slice < 2) := by
  rw [← Bool.not_eq_true, State.dataIndependent_iff, not_or]

/-- A validated TYPE is 0, 1 or 2 (R36, R273). -/
theorem State.Inv.type_cases (hinv : s.Inv) (hc : s.cfg = true) : s.type = 0 ∨ s.type = 1 ∨ s.type = 2 := by
  obtain ⟨-, -, -, -, -, htype, -⟩ := checkConfig_eq_none.1 (hinv.configured hc).1
  unfold State.type
  rcases htype with h | h | h <;> simp [h]

/-- FMATRIX on a seeded matrix is the filler (R247). -/
theorem exec_fmatrix (hc : s.cfg = true) (hs : s.seeded) : exec .fmatrix s = finish s.fillMatrix := by
  rw [exec, execFmatrix, requireConfigured_eq, if_pos hc, State.checkSeeds_eq_ok.2 ⟨hs, rfl⟩, ok_bind]

/-- The last data-independent slice for TYPE 1 and TYPE 2 (R230, R247). -/
theorem State.fillMatrix_lastAddress (hg : s.Geom) (htype : s.type = 1 ∨ s.type = 2) (ht : s.fillMatrix = .ok t) :
    s.LeftBySegment (if s.type = 1 then s.iter - 1 else 0) (if s.type = 1 then 3 else 1) (s.lanes - 1) t := by
  have hiter := hg.iter_pos
  have hseg := hg.seg_ge
  rcases htype with h | h
  · rw [if_pos h, if_pos h]
    refine State.fillMatrix_leftBySegment hg (by omega) (by omega) (State.dataIndependent_iff.2 (.inl h)) ?_
      (fun p q _ _ _ => by omega) ht
    simp only [startIndex, OfNat.ofNat_ne_zero, and_false, if_false]
    omega
  · have h1 : s.type ≠ 1 := by omega
    rw [if_neg h1, if_neg h1]
    refine State.fillMatrix_leftBySegment hg (by omega) (by omega)
      (State.dataIndependent_iff.2 (.inr ⟨h, rfl, by omega⟩)) ?_
      (fun p q _ _ _ => State.dataIndependent_eq_false_iff.2 ⟨h1, by omega⟩) ht
    simp only [startIndex, Nat.one_ne_zero, and_false, if_false]
    omega

/-- Settles O53: the filler answers from a seeded matrix (`fillMatrix_total`), keeps what `fillMatrix_kept` says, leaves
the address blocks of `fillMatrix_lastAddress`, and is the FSEG commands of all segments (`fillMatrix_runFsegs`). -/
theorem fmatrixCommand : Obligations.FmatrixCommand := by
  intro s hinv hcfg hseeded
  have hg := hinv.geom hcfg
  obtain ⟨u, hu, hframe, -, hspec⟩ := State.fillMatrix_total hg hinv.mtxWf hseeded
  obtain ⟨-, -, hbeyond, hwb⟩ := State.fillMatrix_kept hg hinv.mtxWf hu
  obtain ⟨v, hv, hmtx, hvwb, -⟩ := State.fillMatrix_runFsegs hcfg hu
  refine ⟨u.complete, by rw [exec_fmatrix hcfg hseeded, hu, finish_ok], ?_, hspec, hbeyond, hwb, fun h0 => ?_,
    fun h0 => ?_, v, hv, hmtx, hvwb⟩
  · rw [hframe]
    rfl
  · exact State.fillMatrix_wb_eq (t := u) hg (fun p q => State.dataIndependent_eq_false_iff.2 ⟨by omega, by omega⟩) hu
  · exact State.fillMatrix_lastAddress (t := u) hg ((hinv.type_cases hcfg).resolve_left h0) hu

end Sys2Proof.Machine
end

section
/-! PROOF. The core's turn, and the commands NOP, CONFIG and ZEROIZE (spec/45_engine.md R270-R276, R300). -/

namespace Sys2Proof.Machine

variable {s : State} {i : Instr}

/-! ### The core's turn (R270) -/

/-- The core's turn performs the command its latch decodes to. -/
theorem State.coreTurn_command {v : Word} (hv : s.latch = some v) (hi : decode v = .command i) :
    s.coreTurn = exec i s :=
  (State.coreTurn_busy hv).trans (State.perform_command hi)

/-- The table word of a command stands for its CMD value. -/
theorem ofNat_tableValue_encode (i : Instr) : BitVec.ofNat 64 (tableValue 32 (encode i).toNat) = encode i := by
  cases i <;> rfl

/-- The step after a table word is placed is the core's turn on the state the CMD write leaves. -/
theorem step_withFetchWord (s : State) (i : Instr) :
    step (s.withFetchWord 32 (encode i).toNat) = (s.issue (encode i)).coreTurn := by
  rw [State.withFetchWord, ofNat_tableValue_encode]
  rfl

/-- Settles O7: with no input left or a core turn next a step is the core's turn, which performs what is latched
(`coreTurn_command`) or nothing (`coreTurn_idle`). -/
theorem stepRunsTheDecodedCommand : Obligations.StepRunsTheDecodedCommand :=
  ⟨fun _ _ _ hag hv hi => (step_nil hag).trans (State.coreTurn_command hv hi),
    fun s _ _ l hag hv hi => (step_cons hag).trans (State.coreTurn_command (s := s.setAgenda l) hv hi),
    fun _ hag hv => (step_nil hag).trans (State.coreTurn_idle hv),
    fun s l hag hv => (step_cons hag).trans (State.coreTurn_idle (s := s.setAgenda l) hv),
    fun s i => (step_withFetchWord s i).trans (State.coreTurn_command rfl (decode_encode i))⟩

/-- Settles O27: NOP is completion alone. -/
theorem nopDoesNothing : Obligations.NopDoesNothing := fun _ => rfl

/-! ### CONFIG (R272-R276) -/

/-- The state with the configuration that its parameters give, as CONFIG and DERIVE set it (R272, R296). -/
abbrev State.configured (s : State) : State := s.configure (geometryOf s.params)

theorem exec_config (hc : checkConfig s.params s.caps = none) : exec .config s = .next s.configured.complete := by
  rw [exec, execConfig, hc]
  rfl

/-- A CheckConfig failure ends CONFIG and DERIVE alike (R274). -/
theorem exec_of_checkConfig_some {e : ErrCode} (hi : i = .config ∨ i = .derive)
    (h : checkConfig s.params s.caps = some e) : exec i s = .next (s.clearConfig.raiseError e) := by
  rcases hi with rfl | rfl
  · rw [exec, execConfig, h]
    rfl
  · rw [exec, execDerive, h]
    rfl

/-- TYPE as a register value and as a number. -/
theorem State.type_eq_iff {n : Nat} (hn : n < 2 ^ 32) : s.type = n ↔ s.params.type = BitVec.ofNat 32 n := by
  rw [← BitVec.toNat_inj, BitVec.toNat_ofNat, Nat.mod_eq_of_lt hn, State.type]

theorem State.type_legal_iff :
    s.type = 0 ∨ s.type = 1 ∨ s.type = 2 ↔ s.params.type = 0 ∨ s.params.type = 1 ∨ s.params.type = 2 :=
  or_congr (State.type_eq_iff (by decide)) (or_congr (State.type_eq_iff (by decide)) (State.type_eq_iff (by decide)))

/-- MEMBLOCKS of a configuration is the rounded memory size (R276): it fits 32 bits, as MEMKIB does. -/
theorem State.configured_memBlocks (s : State) : s.configured.memBlocks = memBlocksOf s.params :=
  Nat.mod_eq_of_lt (lt_of_le_of_lt (memBlocksOf_le s.params) s.params.memKib.isLt)

theorem State.configured_geom (hc : checkConfig s.params s.caps = none) : s.configured.Geom :=
  geom_of_check (s := s.configured) hc rfl

/-- Settles O28: the nine checks are CheckConfig's, and the geometry it passes has the numbers of
`State.configured_geom`. -/
theorem configSetsTheGeometry : Obligations.ConfigSetsTheGeometry := by
  intro s hlanes hmem hiter hout hversion htype hblocks hinput hobuf
  have hc : checkConfig s.params s.caps = none :=
    checkConfig_eq_none.2
      ⟨hlanes, hmem, hiter, hout, hversion, State.type_legal_iff.1 (by omega), hblocks, hinput, hobuf⟩
  have hg := State.configured_geom hc
  have hseg := hg.seg_ge
  have hlaneLen := hg.laneLen_eq
  have hmul : s.configured.memBlocks = s.lanes * s.configured.laneLen := hg.memBlocks_eq
  refine ⟨_, exec_config hc, rfl, s.configured_memBlocks, ?_, ?_, hseg, ?_, ?_⟩
  · show s.configured.laneLen = s.configured.memBlocks / s.lanes
    rw [hmul, Nat.mul_div_cancel_left _ hlanes.1]
  · show s.configured.segLen = s.configured.laneLen / 4
    omega
  · show 8 ≤ s.configured.laneLen
    omega
  · show 8 * s.lanes ≤ s.configured.memBlocks
    rw [hmul, Nat.mul_comm]
    exact Nat.mul_le_mul_left _ (by omega)

/-- A row of R273 that passes leaves the answer to the rows after it. -/
theorem checkRow_pass {c : Prop} [Decidable c] {a b x : Option ErrCode} (h : c) (hb : b = x) :
    (if ¬c then a else b) = x :=
  (if_neg (not_not.2 h)).trans hb

/-- Settles O29: the rows of `checkConfig` one after another (`checkRow_pass`), up to the first that fails. -/
theorem checkConfigOrder : Obligations.CheckConfigOrder := by
  intro s i hi fails c1 c2 c3 c4 c5 c6 c7 c8 c9
  have ends {e : ErrCode} (h : checkConfig s.params s.caps = some e) : fails e := exec_of_checkConfig_some hi h
  have type_legal : c6 ↔ s.params.type = 0 ∨ s.params.type = 1 ∨ s.params.type = 2 := State.type_legal_iff
  rw [type_legal]
  exact ⟨
    fun n1 => ends (if_pos n1),
    fun h1 n2 => ends (checkRow_pass h1 (if_pos n2)),
    fun h1 h2 n3 => ends (checkRow_pass h1 (checkRow_pass h2 (if_pos n3))),
    fun h1 h2 h3 n4 => ends (checkRow_pass h1 (checkRow_pass h2 (checkRow_pass h3 (if_pos n4)))),
    fun h1 h2 h3 h4 n5 => ends (checkRow_pass h1 (checkRow_pass h2 (checkRow_pass h3 (checkRow_pass h4 (if_pos n5))))),
    fun h1 h2 h3 h4 h5 n6 => ends (checkRow_pass h1 (checkRow_pass h2 (checkRow_pass h3 (checkRow_pass h4
      (checkRow_pass h5 (if_pos n6)))))),
    fun h1 h2 h3 h4 h5 h6 n7 => ends (checkRow_pass h1 (checkRow_pass h2 (checkRow_pass h3 (checkRow_pass h4
      (checkRow_pass h5 (checkRow_pass h6 (if_pos n7))))))),
    fun h1 h2 h3 h4 h5 h6 h7 n8 => ends (checkRow_pass h1 (checkRow_pass h2 (checkRow_pass h3 (checkRow_pass h4
      (checkRow_pass h5 (checkRow_pass h6 (checkRow_pass h7 (if_pos n8)))))))),
    fun h1 h2 h3 h4 h5 h6 h7 h8 n9 => ends (checkRow_pass h1 (checkRow_pass h2 (checkRow_pass h3 (checkRow_pass h4
      (checkRow_pass h5 (checkRow_pass h6 (checkRow_pass h7 (checkRow_pass h8 (if_pos n9)))))))))⟩

/-! ### ZEROIZE (R300) -/

/-- Settles O59: each memory is filled up to its capacity (`Memory.read_fillBelow`), and the registers are written. -/
theorem zeroizeCommand : Obligations.ZeroizeCommand := by
  intro s hmtx hmsg hobuf
  refine ⟨s.zeroize.complete, rfl, rfl, fun k hk => ?_, fun r => ?_, fun k hk => ?_, fun k hk => ?_⟩
  · exact (Memory.read_fillBelow hmtx _ _ k).trans (if_pos hk)
  · cases r <;> rfl
  · exact (Memory.read_fillBelow hmsg _ _ k).trans (if_pos hk)
  · exact (Memory.read_fillBelow hobuf _ _ k).trans (if_pos hk)

end Sys2Proof.Machine
end

section
/-! PROOF. The commands H0, SEED and FINAL (spec/45_engine.md R282, R288, R292). -/

namespace Sys2Proof.Machine

variable {s t : State}

/-- A command that needs CFG = 1 runs its body with it (R112). -/
theorem requireConfigured_configured (hc : s.cfg = true) (b : Step) : requireConfigured s b = b := if_pos hc

/-! ### H0 (R282) -/

theorem exec_h0 (hc : s.cfg = true) : exec .h0 s = finish s.deriveH0 := requireConfigured_configured hc _

/-- A string that lies in MSG between others is read back. -/
theorem State.readMsg_between {before bs after : List Byte}
    (h : ∀ j, j < (before ++ bs ++ after).length → s.msg.read j = (before ++ bs ++ after)[j]?) :
    s.readMsg before.length bs.length = .ok bs := by
  refine State.readMsg_eq_ok.2 (Memory.readRange_eq_ok.2 ⟨rfl, fun j hj => ?_⟩)
  rw [h _ (by simp only [List.length_append]; omega), List.append_assoc,
    List.getElem?_append_right (by omega), Nat.add_sub_cancel_left, List.getElem?_append_left hj]

/-- The H0 body on four strings that lie one after another in MSG (R55, R282). -/
theorem State.deriveH0_of_strings {P S K X : List Byte} (hP : P.length = s.params.pwdLen.toNat)
    (hS : S.length = s.params.saltLen.toNat) (hK : K.length = s.params.secretLen.toNat)
    (hX : X.length = s.params.adLen.toNat)
    (h : ∀ j, j < s.inputBytes → s.msg.read j = (P ++ S ++ K ++ X)[j]?) :
    s.deriveH0 = .ok (s.writeH0 (Config.blake2bDigest (s.h0Input P S K X) 64)) := by
  have hall : ∀ j, j < (P ++ S ++ K ++ X).length → s.msg.read j = (P ++ S ++ K ++ X)[j]? := by
    simp only [List.length_append, hP, hS, hK, hX]
    exact h
  refine State.deriveH0_eq_ok.2 ⟨P, S, K, X, ?_, ?_, ?_, ?_, rfl⟩
  · rw [← hP]
    exact State.readMsg_between (before := []) (after := S ++ K ++ X) (by simpa using hall)
  · rw [← hP, ← hS]
    exact State.readMsg_between (before := P) (after := K ++ X) (by simpa using hall)
  · rw [← hP, ← hS, ← hK, ← List.length_append]
    exact State.readMsg_between (before := P ++ S) (after := X) hall
  · rw [← hP, ← hS, ← hK, ← hX, ← List.length_append, ← List.length_append]
    exact State.readMsg_between (before := P ++ S ++ K) (after := []) (by simpa using hall)

theorem State.h0MemValue_eq (s : State) :
    s.h0MemValue = if Config.h0MemField = .rounded then s.memBlocks else s.params.memKib.toNat := by
  unfold State.h0MemValue
  cases Config.h0MemField <;> rfl

/-- Settles O54: the run of the H0 body on the four strings (`State.deriveH0_of_strings`). -/
theorem h0Command : Obligations.H0Command := by
  intro s P S K X hcfg hP hS hK hX hmsg
  refine ⟨_, by rw [exec_h0 hcfg, State.deriveH0_of_strings hP hS hK hX hmsg]; rfl, ?_⟩
  rw [← State.h0MemValue_eq]
  rfl

/-! ### SEED (R288) -/

theorem exec_seed (hc : s.cfg = true) : exec .seed s = finish s.noteH0.seedMatrix := requireConfigured_configured hc _

theorem State.Geom.two_le_laneLen (hg : s.Geom) : 2 ≤ s.laneLen := by
  have := hg.laneLen_eq
  have := hg.seg_ge
  omega

/-- Settles O55: everything the SEED body does (`State.seedMatrix_total`), run after its read of H0 is recorded. -/
theorem seedCommand : Obligations.SeedCommand := by
  intro s hinv hcfg h
  obtain ⟨u, hu, hframe, hwb, -, hseed, hrest⟩ :=
    State.seedMatrix_total (s := s.noteH0) hinv.mtxWf (hinv.geom hcfg).two_le_laneLen
  refine ⟨u.complete, by rw [exec_seed hcfg, hu, finish_ok], ?_, hseed, hrest⟩
  rw [hframe, hwb]
  rfl

/-! ### FINAL (R292) -/

theorem exec_final (hc : s.cfg = true) : exec .final s = finish s.finalize := requireConfigured_configured hc _

/-- The XOR of the blocks of lanes 0 .. n-1 (R292). -/
def xorLanes (C : Nat → Block) (n : Nat) : Block := (List.range n).foldl (fun B l => xorInto B (C l)) zeroBlock

theorem xorLanes_succ (C : Nat → Block) (n : Nat) : xorLanes C (n + 1) = xorInto (xorLanes C n) (C n) := by
  simp [xorLanes, List.range_succ]

/-- The last column's XOR, when C l is the last block of lane l. -/
theorem State.lastColumn_eq {C : Nat → Block} (hp : 1 ≤ s.lanes)
    (hC : ∀ l, l < s.lanes → s.mtx.read (flatIndex s.laneLen l (s.laneLen - 1)) = some (C l)) :
    s.lastColumn = .ok (xorLanes C s.lanes) := by
  obtain ⟨B, hB, hfold⟩ := forRange_total (a := 1) (n := s.lanes - 1) (s := C 0)
    (body := fun lane B => do
      let D ← s.readMtx (flatIndex s.laneLen lane (s.laneLen - 1))
      return xorInto B D)
    (P := fun n B => B = xorLanes C n)
    (fun l B _ hl hPB => ⟨_, bind_eq_ok.2 ⟨C l, State.readMtx_eq_ok.2 (hC l (by omega)), rfl⟩, by
      rw [hPB, xorLanes_succ]⟩)
    (zero_xorInto (C 0)).symm
  rw [Nat.add_sub_cancel' hp] at hfold
  exact bind_eq_ok.2 ⟨C 0, State.readMtx_eq_ok.2 (hC 0 hp), hfold ▸ hB⟩

/-- What the FINAL body leaves in OBUF: the digest bytes, and what stood behind them. -/
theorem State.finalize_obuf (hw : s.obuf.wf) (ht : s.finalize = .ok t) :
    ∃ B, s.lastColumn = .ok B ∧ t.wb = { s.wb with fin := .written B } ∧
      (∀ k, k < s.outLen → t.obuf.read k = (hprime (toBytes B) s.outLen)[k]?) ∧
      ∀ k, s.outLen ≤ k → t.obuf.read k = s.obuf.read k := by
  obtain ⟨B, hB, rfl⟩ := State.finalize_eq_ok.1 ht
  have hread (k : Nat) := State.writeObuf_zero_read (s := s.writeWb .fin B) hw (hprime (toBytes B) s.outLen) k
  simp only [hprime_length] at hread
  exact ⟨B, hB, rfl, fun k hk => (hread k).trans (if_pos hk), fun k hk => (hread k).trans (if_neg (Nat.not_lt.2 hk))⟩

/-- Settles O56: the run of the FINAL body on the XOR of the last column (`State.lastColumn_eq`,
`State.finalize_obuf`). -/
theorem finalCommand : Obligations.FinalCommand := by
  intro s C hinv hcfg hC B
  have hcol : s.lastColumn = .ok B := State.lastColumn_eq (hinv.geom hcfg).lanes_pos hC
  have hfin := State.finalize_eq_ok.2 ⟨B, hcol, rfl⟩
  have hrun := exec_final hcfg
  rw [hfin, finish_ok] at hrun
  obtain ⟨B', hB', -, hdigest, hrest⟩ := State.finalize_obuf hinv.obufWf hfin
  obtain rfl : B = B' := Except.ok.inj (hcol.symm.trans hB')
  exact ⟨_, hrun, rfl, hdigest, hrest⟩

end Sys2Proof.Machine
end

section
/-! PROOF. The command DERIVE: its five bodies run one after another, as the commands CONFIG, H0, SEED, FMATRIX and
FINAL run them, and what they leave (spec/45_engine.md R296, R305). -/

namespace Sys2Proof.Machine

variable {s t u a b c d : State}

/-! ### The bodies of a derivation (R296) -/

/-- The bodies of H0, SEED, FMATRIX and FINAL lead from s by way of a, b and c to d; the filler starts from a seeded
matrix. -/
structure State.Derives (s a b c d : State) : Prop where
  h0 : s.deriveH0 = .ok a
  seed : a.seedMatrix = .ok b
  seeded : b.seeded
  fill : b.fillMatrix = .ok c
  final : c.finalize = .ok d

theorem State.msgSpecified_slice {off len off' len' : Nat} (h : s.msgSpecified off len) (hlo : off ≤ off')
    (hhi : off' + len' ≤ off + len) : s.msgSpecified off' len' := fun j hj => by
  have := h (off' + j - off) (by omega)
  rwa [show off + (off' + j - off) = off' + j by omega] at this

/-- The H0 body answers with the four input strings specified. -/
theorem State.deriveH0_total (hmsg : s.msgSpecified 0 s.inputBytes) : ∃ t, s.deriveH0 = .ok t := by
  have hread (off len : Nat) (h : off + len ≤ s.inputBytes) : ∃ bs, s.readMsg off len = .ok bs :=
    State.readMsg_isOk.2 (State.msgSpecified_slice hmsg (Nat.zero_le off) (by omega))
  unfold State.inputBytes at hread
  obtain ⟨pwd, hpwd⟩ := hread 0 s.params.pwdLen.toNat (by omega)
  obtain ⟨salt, hsalt⟩ := hread s.params.pwdLen.toNat s.params.saltLen.toNat (by omega)
  obtain ⟨secret, hsecret⟩ := hread (s.params.pwdLen.toNat + s.params.saltLen.toNat) s.params.secretLen.toNat (by omega)
  obtain ⟨ad, had⟩ := hread (s.params.pwdLen.toNat + s.params.saltLen.toNat + s.params.secretLen.toNat)
    s.params.adLen.toNat (le_refl _)
  exact ⟨_, State.deriveH0_eq_ok.2 ⟨pwd, salt, secret, ad, hpwd, hsalt, hsecret, had, rfl⟩⟩

theorem State.lastColumnSpecified_of_matrixSpecified (hg : s.Geom) (h : s.matrixSpecified) :
    s.lastColumnSpecified := fun lane hl => by
  have hq := hg.two_le_laneLen
  exact h _ (hg.memBlocks_eq ▸ flatIndex_lt hl (by omega))

/-- The bodies of a derivation all answer from a configured state with its input strings specified. -/
theorem State.Inv.derives (hinv : s.Inv) (hc : s.cfg = true) (hmsg : s.msgSpecified 0 s.inputBytes) :
    ∃ a b c d, s.Derives a b c d := by
  obtain ⟨a, ha⟩ := State.deriveH0_total hmsg
  have hac : a.cfg = true := by rw [State.deriveH0_frame ha]; exact hc
  have hainv := hinv.deriveH0 ha
  have hag := hainv.geom hac
  obtain ⟨b, hb, hbf, -, hbw, hbseed, -⟩ := State.seedMatrix_total hainv.mtxWf hag.two_le_laneLen
  have hseeded : b.seeded := fun l hl => by
    obtain ⟨h0, h1⟩ := hbseed l (hbf.lanes ▸ hl)
    simp [State.blockSpecified, hbf.laneLen, h0, h1]
  have hbg := hbf.geomNumbers hag
  obtain ⟨c, hcm, hcf, -, hcspec⟩ := State.fillMatrix_total hbg hbw hseeded
  have hcg := hcf.geomNumbers hbg
  obtain ⟨B, hB⟩ := State.lastColumn_total hcg.lanes_pos (State.lastColumnSpecified_of_matrixSpecified hcg hcspec)
  exact ⟨a, b, c, _, ha, hb, hseeded, hcm, State.finalize_eq_ok.2 ⟨B, hB, rfl⟩⟩

theorem State.Derives.cfg (h : s.Derives a b c d) (hc : s.cfg = true) :
    a.cfg = true ∧ b.cfg = true ∧ c.cfg = true := by
  have hac : a.cfg = true := by rw [State.deriveH0_frame h.h0]; exact hc
  have hbc : b.cfg = true := by rw [(State.seedMatrix_frame h.seed).1]; exact hac
  exact ⟨hac, hbc, by rw [State.fillMatrix_frame h.fill]; exact hbc⟩

theorem State.Derives.deriveBody (h : s.Derives a b c d) : s.deriveBody = .ok d.cleanup :=
  State.deriveBody_eq_ok.2 ⟨a, b, c, d, h.h0, h.seed, h.fill, h.final, rfl⟩

theorem exec_derive (hc : checkConfig s.params s.caps = none) (h : s.configured.Derives a b c d) :
    exec .derive s = .next d.cleanup.complete := by
  rw [exec, execDerive, hc]
  show finish s.configured.deriveBody = _
  rw [h.deriveBody, finish_ok]

/-! ### The bodies read neither DONE nor the latch

So each command of the sequence, which starts from the completed state that the command before it left, computes what
DERIVE's step computes. -/

theorem State.deriveH0_complete (h : s.deriveH0 = .ok t) : s.complete.deriveH0 = .ok t.complete := by
  obtain ⟨pwd, salt, secret, ad, h1, h2, h3, h4, rfl⟩ := State.deriveH0_eq_ok.1 h
  exact State.deriveH0_eq_ok.2 ⟨pwd, salt, secret, ad, h1, h2, h3, h4, rfl⟩

theorem State.seedMatrix_complete (h : s.seedMatrix = .ok t) : s.complete.seedMatrix = .ok t.complete := by
  obtain ⟨t', ht', rfl⟩ := forRange_related (R := fun u v => v = u.complete)
    (g := fun lane u => .ok (u.seedLane s.readH0 lane))
    (fun lane u u' v _ _ huv hu => ⟨_, rfl, by cases hu; rw [huv]; rfl⟩) rfl h
  exact ht'

theorem FillSame.lanes (h : FillSame s u) : u.lanes = s.lanes := by
  obtain ⟨-, -, hp, -⟩ := h
  rw [State.lanes, hp, State.lanes]

theorem FillSame.iter (h : FillSame s u) : u.iter = s.iter := by
  obtain ⟨-, -, hp, -⟩ := h
  rw [State.iter, hp, State.iter]

/-- A fill of a slice reads and writes the same of both, as the fill of a segment does (`State.fillSegment_same`). -/
theorem State.fillSlice_same {pass slice : Nat} (h : FillSame s u) (hs : s.fillSlice pass slice = .ok t) :
    ∃ v, u.fillSlice pass slice = .ok v ∧ FillSame t v := by
  unfold State.fillSlice at hs ⊢
  rw [h.lanes]
  exact forRange_related (fun _ _ _ _ _ _ hR hf => State.fillSegment_same hR hf) h hs

theorem State.fillPass_same {pass : Nat} (h : FillSame s u) (hs : s.fillPass pass = .ok t) :
    ∃ v, u.fillPass pass = .ok v ∧ FillSame t v :=
  forRange_related (fun _ _ _ _ _ _ hR hf => State.fillSlice_same hR hf) h hs

theorem State.fillMatrix_same (h : FillSame s u) (hs : s.fillMatrix = .ok t) :
    ∃ v, u.fillMatrix = .ok v ∧ FillSame t v := by
  unfold State.fillMatrix at hs ⊢
  rw [h.iter]
  exact forRange_related (fun _ _ _ _ _ _ hR hf => State.fillPass_same hR hf) h hs

theorem State.fillMatrix_complete (h : s.fillMatrix = .ok t) : s.complete.fillMatrix = .ok t.complete := by
  obtain ⟨v, hv, hmtx, hwb, -, -⟩ := State.fillMatrix_same (s := s) (u := s.complete) ⟨rfl, rfl, rfl, rfl⟩ h
  have hvt : v = t.complete := by
    rw [State.fillMatrix_frame hv, hmtx, hwb, State.fillMatrix_frame h]
    rfl
  rw [hv, hvt]

theorem State.finalize_complete (h : s.finalize = .ok t) : s.complete.finalize = .ok t.complete := by
  obtain ⟨B, hB, rfl⟩ := State.finalize_eq_ok.1 h
  exact State.finalize_eq_ok.2 ⟨B, hB, rfl⟩

/-- Settles O57: the four commands after CONFIG run the bodies of DERIVE from completed states
(`State.deriveH0_complete` and the lemmas after it), and DERIVE's cleanup writes MTX, the working blocks and H0. -/
theorem deriveEqualsThePrimitiveSequence : Obligations.DeriveEqualsThePrimitiveSequence := by
  intro s hinv hcheck hmsg
  obtain ⟨a, b, c, d, h⟩ := (hinv.configure hcheck).derives rfl hmsg
  obtain ⟨hac, hbc, hcc⟩ := h.cfg rfl
  have hnote : a.complete.noteH0 = a.complete := by
    obtain ⟨_, _, _, _, -, -, -, -, rfl⟩ := State.deriveH0_eq_ok.1 h.h0
    exact State.note_true _
  refine ⟨s.configured.complete, a.complete, b.complete, c.complete, d.complete, d.cleanup.complete,
    exec_config hcheck, ?h0, ?seed, ?fill, ?final, exec_derive hcheck h, rfl, rfl⟩
  case h0 => rw [exec_h0 rfl, State.deriveH0_complete h.h0]; rfl
  case seed => rw [exec_seed (s := a.complete) hac, hnote, State.seedMatrix_complete h.seed]; rfl
  case fill => rw [exec_fmatrix (s := b.complete) hbc h.seeded, State.fillMatrix_complete h.fill]; rfl
  case final => rw [exec_final (s := c.complete) hcc, State.finalize_complete h.final]; rfl

/-! ### What DERIVE leaves -/

/-- SEED writes no block from MEMBLOCKS on (R288). -/
theorem State.seedMatrix_read_beyond (hg : s.Geom) (hw : Memory.wf s.mtx) (ht : s.seedMatrix = .ok t) {k : Nat}
    (hk : s.memBlocks ≤ k) : t.mtx.read k = s.mtx.read k := by
  have hq := hg.two_le_laneLen
  obtain ⟨t', ht', -, -, -, -, hrest⟩ := State.seedMatrix_total hw hq
  obtain rfl : t' = t := Except.ok.inj (ht'.symm.trans ht)
  refine hrest k fun l hl => ?_
  have h0 := flatIndex_lt (q := s.laneLen) (c := 0) hl (by omega)
  have h1 := flatIndex_lt (q := s.laneLen) (c := 1) hl (by omega)
  rw [← hg.memBlocks_eq] at h0 h1
  omega

/-- What a derivation leaves before its cleanup: a canonical matrix that is unchanged from MEMBLOCKS on, and in OBUF
the digest bytes and what stood behind them. -/
theorem State.Derives.result (hinv : s.Inv) (hc : s.cfg = true) (h : s.Derives a b c d) :
    Memory.wf d.mtx ∧ d.memBlocks = s.memBlocks ∧ (∀ k, s.memBlocks ≤ k → d.mtx.read k = s.mtx.read k) ∧
      (∀ k, k < s.outLen → (d.obuf.read k).isSome = true) ∧ ∀ k, s.outLen ≤ k → d.obuf.read k = s.obuf.read k := by
  obtain ⟨hac, hbc, hcc⟩ := h.cfg hc
  have hainv := hinv.deriveH0 h.h0
  have hbinv := hainv.seedMatrix hac h.seed
  have hcinv := hbinv.fillMatrix hbc h.fill
  have hsa := State.deriveH0_frame h.h0
  have hab := (State.seedMatrix_frame h.seed).1
  have hframe := hab.trans (State.fillMatrix_frame h.fill)
  have hcd := State.finalize_frame h.final
  have hmtx : d.mtx = c.mtx := by rw [hcd]
  have hobuf : c.obuf = s.obuf := by rw [hframe, hsa]
  have hout : c.outLen = s.outLen := by rw [hframe, hsa]; rfl
  have hma : a.memBlocks = s.memBlocks := by rw [hsa]; rfl
  obtain ⟨B, -, -, hdigest, hrest⟩ := State.finalize_obuf hcinv.obufWf h.final
  rw [hout] at hdigest hrest
  refine ⟨hmtx ▸ hcinv.mtxWf, ?_, fun k hk => ?_, fun k hk => ?_, fun k hk => hobuf ▸ hrest k hk⟩
  · rw [hcd, hframe, hsa]
    rfl
  · rw [hmtx, (State.fillMatrix_kept (hbinv.geom hbc) hbinv.mtxWf h.fill).beyond k (by rw [hab.memBlocks]; omega),
      State.seedMatrix_read_beyond (hainv.geom hac) hainv.mtxWf h.seed (by omega), hsa]
  · rw [hdigest k hk]
    simpa using hk

/-- Settles O58: the bodies of the derivation all answer (`State.Inv.derives`), their result is that of
`State.Derives.result`, and the cleanup zeroizes every block below MEMBLOCKS. -/
theorem deriveCompletesAndZeroizes : Obligations.DeriveCompletesAndZeroizes := by
  intro s hinv hcheck hmsg
  have hconf : s.configured.Inv := hinv.configure hcheck
  obtain ⟨a, b, c, d, h⟩ := hconf.derives rfl hmsg
  obtain ⟨hw, hblocks, hbeyond, hdigest, hrest⟩ := h.result hconf rfl
  have hread (k : Nat) := Memory.read_fillBelow hw d.memBlocks zeroBlock k
  refine ⟨d.cleanup.complete, exec_derive hcheck h, ?_, ?_, fun k hk => (hread k).trans (if_pos hk), fun k hk => ?_,
    fun r => by cases r <;> rfl, hdigest, hrest⟩
  · rw [State.deriveBody_frame h.deriveBody]
    rfl
  · exact hblocks.trans s.configured_memBlocks
  · exact (hread k).trans ((if_neg (Nat.not_lt.2 hk)).trans (hbeyond k (hblocks ▸ hk)))

end Sys2Proof.Machine
end

section
/-! PROOF. How a command ends: ILLEGAL_CMD and BAD_OPERAND, precise errors and the exactly one end of a command, and the
interrupt that tells of it (spec/60_exceptions.md R310-R320, spec/30_encoding.md R111, R116-R119). -/

namespace Sys2Proof.Machine

variable {s t u : State} {i : Instr} {l : List Event} {v : Word}

/-! ### ILLEGAL_CMD (R111, R314) -/

/-- R112 lists the opcodes of the 23 commands and no others. -/
theorem mem_assignedOpcodes {n : Nat} : n ∈ assignedOpcodes ↔ ∃ i, (opcode i).toNat = n := by
  constructor
  · intro h
    have hsome : ∀ m ∈ assignedOpcodes, (decodeOpcode m).isSome = true := by decide
    obtain ⟨i, hi⟩ := Option.isSome_iff_exists.1 (hsome n h)
    exact ⟨i, (decodeOpcode_eq_some.1 hi).symm⟩
  · rintro ⟨i, rfl⟩
    cases i <;> decide

/-- A command's encoding is its opcode as a number (R110). -/
theorem encode_toNat (i : Instr) : (encode i).toNat = (opcode i).toNat := by
  cases i <;> rfl

/-- A CMD value decodes to a command exactly when it is the command's opcode, bits [63:8] zero included (R111). -/
theorem decode_eq_command_iff_toNat : decode v = .command i ↔ (opcode i).toNat = v.toNat := by
  rw [decodeEncodeAgree, ← BitVec.toNat_inj, encode_toNat, eq_comm]

/-- A nonzero bit in [63:8] or an unassigned OPC makes a CMD value illegal (R111). -/
theorem decode_illegal (h : 256 ≤ v.toNat ∨ v.toNat % 256 ∉ assignedOpcodes) : ∃ e, decode v = .illegal e := by
  cases hd : decode v with
  | illegal e => exact ⟨e, rfl⟩
  | command i =>
    have hv := decode_eq_command_iff_toNat.1 hd
    have hlt := (opcode i).isLt
    rcases h with h | h
    · omega
    · exact absurd (mem_assignedOpcodes.2 ⟨i, by omega⟩) h

/-- The core's turn on an illegal value is error entry with ILLEGAL_CMD (R314, R318). -/
theorem State.coreTurn_illegal {e : DecodeError} (hv : s.latch = some v) (he : decode v = .illegal e) :
    s.coreTurn = .next (s.raiseError .illegalCmd) :=
  (State.coreTurn_busy hv).trans (State.perform_illegal he)

/-- Settles O6: an illegal value (`decode_illegal`) ends by `coreTurn_illegal`; an assigned one is a command's opcode
(`mem_assignedOpcodes`), and the step runs that command. -/
theorem illegalCommandEndsWithError : Obligations.IllegalCommandEndsWithError := by
  refine fun s v hv => ⟨fun h => ?illegal, fun _ hmem => ?assigned⟩
  case illegal =>
    obtain ⟨e, he⟩ := decode_illegal h
    exact ⟨fun hag => (step_nil hag).trans (State.coreTurn_illegal hv he),
      fun l hag => (step_cons hag).trans (State.coreTurn_illegal (s := s.setAgenda l) hv he)⟩
  case assigned =>
    obtain ⟨i, hi⟩ := mem_assignedOpcodes.1 hmem
    obtain ⟨hnil, hcons, -⟩ := stepRunsTheDecodedCommand
    have hd : decode v = .command i := decode_eq_command_iff_toNat.2 hi
    exact ⟨i, hi, fun hag => hnil s v i hag hv hd, fun l hag => hcons s v i l hag hv hd⟩

/-! ### The interrupt (R320) -/

theorem State.ctrlWord_eq_one (s : State) : s.ctrlWord = 1 ↔ s.ie = true := by
  unfold State.ctrlWord
  cases s.ie <;> decide

theorem State.irq_eq_true (s : State) : s.irq = true ↔ s.ie = true ∧ (s.done = true ∨ s.err = true) := by
  simp [State.irq]

/-- With neither DONE nor ERR there is no interrupt. -/
theorem State.irq_eq_false (hd : s.done = false) (he : s.err = false) : s.irq = false := by
  simp [State.irq, hd, he]

/-- A write of CTRL is the same whether BUSY or not (R92). -/
theorem step_write_ctrl (h : s.agenda = .host (.write 0x000 8 v) :: l) :
    step s = .next ((s.setAgenda l).writeCtrl v) := by
  cases hb : s.busy with
  | true => exact step_write_busy hb h rfl (by decide)
  | false => exact step_write_idle hb h rfl (by decide)

/-- Settles O17: the level as CTRL and STATUS show it; a CTRL write sets IE and leaves DONE and ERR, and each of the
other three inputs leaves both of them 0 (`State.irq_eq_false`). -/
theorem interruptIsALevel : Obligations.InterruptIsALevel := by
  refine ⟨fun s => ?level, fun s v l t h ht => ?ctrl, fun s v l t hone h ht => ?status, fun s v l t hb h ht => ?issue,
    fun s l t h ht => ?reset⟩
  case level =>
    rw [s.ctrlWord_eq_one, s.irq_eq_true, s.statusWord_getLsbD, s.statusWord_getLsbD]
    rfl
  case ctrl =>
    cases (step_write_ctrl h).symm.trans ht
    rfl
  case status =>
    cases (step_write_status h).symm.trans ht
    constructor
    · intro hd hv
      have he : s.err = false := by simpa [hd] using hone
      exact State.irq_eq_false (by simp [hv]) (by simp [he])
    · intro he hv
      have hd : s.done = false := by simpa [he] using hone
      exact State.irq_eq_false (by simp [hd]) (by simp [hv])
  case issue =>
    cases (step_write_idle hb h rfl (by decide)).symm.trans ht
    exact State.irq_eq_false rfl rfl
  case reset =>
    cases (step_cons h).symm.trans ht
    exact State.irq_eq_false rfl rfl

/-! ### BAD_OPERAND: selectors (R116, R117, R312) -/

/-- What is no source is no destination (R117). -/
theorem State.destBlock_of_sourceBlock_none {n : Fin 6} (h : s.sourceBlock n = none) : s.destBlock n = none := by
  simp [State.destBlock, h]

/-- A command with an invalid source selector ends with BAD_OPERAND, whatever its destination is. -/
theorem exec_of_sourceBlock_none (hi : i ∈ [Instr.bxor, .fblock, .fblockx])
    (h : s.sourceBlock 1 = none ∨ s.sourceBlock 2 = none) : exec i s = .next (s.raiseError .badOperand) := by
  fin_cases hi
  all_goals
    simp only [exec, execBxor, execFblock, execFblockx]
    split
    · next d a b _ ha hb => simp [ha, hb] at h
    · rfl

theorem exec_btobytes_of_sourceBlock_none (h : s.sourceBlock 0 = none) :
    exec .btobytes s = .next (s.raiseError .badOperand) := by
  simp only [exec, execBtobytes, h]
  rfl

/-! ### BAD_OPERAND: ranges and scalars (R118, R119, R312) -/

/-- A failing operand check ends the command with BAD_OPERAND. -/
theorem requireOperands_fails {ok : Bool} (h : ok = false) (b : Step) :
    requireOperands s ok b = .next (s.raiseError .badOperand) := by
  rw [requireOperands_eq, h]
  rfl

theorem rangeOk_eq_false {off len cap : Nat} : rangeOk off len cap = false ↔ cap < off + len := by
  simp [rangeOk]

theorem State.hprimeLenOk_eq_false {T : Nat} :
    s.hprimeLenOk T = false ↔ T = 0 ∨ s.caps.obufBytes < T := by
  simp [State.hprimeLenOk, imp_iff_not_or]

theorem groupOk_eq_false {g : Nat} : groupOk g = false ↔ 16 ≤ g := by
  simp [groupOk]

theorem State.passOk_eq_false {pass : Nat} : s.passOk pass = false ↔ s.iter ≤ pass := by
  simp [State.passOk]

theorem sliceOk_eq_false {slice : Nat} : sliceOk slice = false ↔ 4 ≤ slice := by
  simp [sliceOk]

theorem State.laneOk_eq_false {lane : Nat} : s.laneOk lane = false ↔ s.lanes ≤ lane := by
  simp [State.laneOk]

theorem State.indexOk_eq_false {pass slice k : Nat} :
    s.indexOk pass slice k = false ↔ s.segLen ≤ k ∨ (pass = 0 ∧ slice = 0 ∧ k < 2) := by
  simp [State.indexOk, and_assoc, imp_iff_not_or]

/-- BTOBYTES past OBUF, whatever its selector is. -/
theorem exec_btobytes_past_obuf (h : s.caps.obufBytes < s.args[1].toNat + 1024) :
    exec .btobytes s = .next (s.raiseError .badOperand) := by
  cases hs : s.sourceBlock 0 with
  | none => exact exec_btobytes_of_sourceBlock_none hs
  | some a =>
    obtain ⟨x, hx, -⟩ := exec_btobytes hs
    rw [hx]
    exact requireOperands_fails (rangeOk_eq_false.2 h) _

/-- BFROMBYTES past MSG, whatever its selector is. -/
theorem exec_bfrombytes_past_msg (h : s.caps.msgBytes < s.args[1].toNat + 1024) :
    exec .bfrombytes s = .next (s.raiseError .badOperand) := by
  cases hd : s.destBlock 0 with
  | none => exact exec_of_destBlock_none (by decide) hd
  | some d =>
    simp only [exec, execBfrombytes, hd]
    exact requireOperands_fails (rangeOk_eq_false.2 h) _

/-- PROUND of no group, whatever its selector is. -/
theorem exec_pround_no_group (h : 16 ≤ s.args[1].toNat) : exec .pround s = .next (s.raiseError .badOperand) := by
  cases hd : s.destBlock 0 with
  | none => exact exec_of_destBlock_none (by decide) hd
  | some d =>
    obtain ⟨x, hx, -⟩ := exec_pround hd
    rw [hx]
    exact requireOperands_fails (groupOk_eq_false.2 h) _

/-- HPRIME with its MSG range or its output length out of range. -/
theorem exec_hprime_badOperand (h : s.caps.msgBytes < s.args[0].toNat + s.args[1].toNat ∨ s.args[2].toNat = 0 ∨
    s.caps.obufBytes < s.args[2].toNat) : exec .hprime s = .next (s.raiseError .badOperand) := by
  refine requireOperands_fails ?_ _
  rw [Bool.and_eq_false_iff, rangeOk_eq_false, State.hprimeLenOk_eq_false]
  exact h

/-- A guarded command, with CFG = 1, whose operand check fails. -/
theorem requireConfigured_badOperand {ok : Bool} (hc : s.cfg = true) (h : ok = false) (b : Step) :
    requireConfigured s (requireOperands s ok b) = .next (s.raiseError .badOperand) := by
  rw [requireConfigured_eq, if_pos hc]
  exact requireOperands_fails h b

theorem exec_ainit_badOperand (hc : s.cfg = true)
    (h : s.iter ≤ s.args[0].toNat ∨ s.lanes ≤ s.args[1].toNat ∨ 4 ≤ s.args[2].toNat) :
    exec .ainit s = .next (s.raiseError .badOperand) := by
  refine requireConfigured_badOperand hc ?_ _
  simp only [Bool.and_eq_false_iff, State.passOk_eq_false, State.laneOk_eq_false, sliceOk_eq_false, or_assoc]
  exact h

theorem exec_fseg_badOperand (hc : s.cfg = true)
    (h : s.iter ≤ s.args[0].toNat ∨ 4 ≤ s.args[1].toNat ∨ s.lanes ≤ s.args[2].toNat) :
    exec .fseg s = .next (s.raiseError .badOperand) := by
  refine requireConfigured_badOperand hc ?_ _
  simp only [Bool.and_eq_false_iff, State.passOk_eq_false, State.laneOk_eq_false, sliceOk_eq_false, or_assoc]
  exact h

theorem exec_refindex_badOperand (hc : s.cfg = true)
    (h : s.iter ≤ s.args[1].toNat ∨ 4 ≤ s.args[2].toNat ∨ s.lanes ≤ s.args[3].toNat ∨ s.segLen ≤ s.args[4].toNat ∨
      (s.args[1].toNat = 0 ∧ s.args[2].toNat = 0 ∧ s.args[4].toNat < 2)) :
    exec .refindex s = .next (s.raiseError .badOperand) := by
  refine requireConfigured_badOperand hc ?_ _
  simp only [Bool.and_eq_false_iff, State.passOk_eq_false, State.laneOk_eq_false, sliceOk_eq_false,
    State.indexOk_eq_false, or_assoc]
  exact h

/-- Settles O21: the selector of each operand first, then the ranges and scalars command by command; every check ends
with the same error. -/
theorem badOperandChecks : Obligations.BadOperandChecks := by
  refine fun s i => ⟨fun hi h => ?dest, ?btobytes, fun hi h => exec_of_sourceBlock_none hi h, ?obuf, ?msg, ?group,
    ?hprime, ?ainit, ?fseg, ?refindex⟩
  case dest =>
    refine exec_of_destBlock_none hi ?_
    rcases h with hnone | hzero
    · exact State.destBlock_of_sourceBlock_none hnone
    · exact State.destBlock_zero hzero
  case btobytes => rintro rfl h; exact exec_btobytes_of_sourceBlock_none h
  case obuf => rintro rfl h; exact exec_btobytes_past_obuf h
  case msg => rintro rfl h; exact exec_bfrombytes_past_msg h
  case group => rintro rfl h; exact exec_pround_no_group h
  case hprime => rintro rfl h; exact exec_hprime_badOperand h
  case ainit => rintro rfl hc h; exact exec_ainit_badOperand hc h
  case fseg => rintro rfl hc h; exact exec_fseg_badOperand hc h
  case refindex => rintro rfl hc h; exact exec_refindex_badOperand hc h

/-! ### The ends of a command (R270, R310, R317, R318) -/

theorem State.Effect.done_eq (h : s.Effect i u) : u.done = s.done := by
  rw [h.frame]

theorem State.Effect.err_eq (h : s.Effect i u) : u.err = s.err := by
  rw [h.frame]

theorem State.Effect.errCode_eq (h : s.Effect i u) : u.errCode = s.errCode := by
  rw [h.frame]

/-- Settles O22: an end with ERR = 1 is error entry (`exec_ends`), since completion keeps ERR = 0; only a CheckConfig
failure clears the configuration besides. -/
theorem errorsArePrecise : Obligations.ErrorsArePrecise := by
  intro i s t herr h ht
  cases exec_ends h with
  | error => exact .inl rfl
  | badConfig _ hi => exact .inr ⟨by simpa using hi, rfl⟩
  | complete hu => simp [hu.err_eq, herr] at ht

/-- Settles O23: error entry sets ERR and a code and leaves DONE, completion sets DONE and leaves ERR and ERRCODE as the
effect does, and both empty the latch. -/
theorem exactlyOneEnd : Obligations.ExactlyOneEnd := by
  intro i s t hdone herr hcode h
  cases exec_ends h with
  | error he => exact ⟨rfl, .inr ⟨hdone, rfl, he⟩⟩
  | badConfig he => exact ⟨rfl, .inr ⟨hdone, rfl, he⟩⟩
  | complete hu => exact ⟨rfl, .inl ⟨rfl, hu.err_eq.trans herr, hu.errCode_eq.trans hcode⟩⟩

end Sys2Proof.Machine
end

section
/-! PROOF. The state after reset: the table of R340, a later assertion of the reset input (spec/70_reset_and_hazards.md
R340, R341), and the invariant that every run starts from. -/

/-! ### The implementation parameters (R8) -/

namespace Sys2Proof.Config

theorem maxBlocks_bounds : 8 ≤ maxBlocks ∧ maxBlocks < 2 ^ 32 := by
  have h := maxBlocksOverMin.isLt
  unfold maxBlocks
  omega

theorem msgBytes_bounds : 1024 ≤ msgBytes ∧ msgBytes ≤ 65536 := by
  have h := msgBytesOverMin.isLt
  unfold msgBytes
  omega

theorem obufBytes_bounds : 1024 ≤ obufBytes ∧ obufBytes ≤ 65536 := by
  have h := obufBytesOverMin.isLt
  unfold obufBytes
  omega

end Sys2Proof.Config

namespace Sys2Proof.Machine

variable {m : Memory Byte}

/-! ### The fields of the state after reset (R340) -/

@[simp] theorem State.reset_cfg : State.reset.cfg = false := rfl
@[simp] theorem State.reset_busy : State.reset.busy = false := rfl
@[simp] theorem State.reset_mtx : State.reset.mtx = [] := rfl
@[simp] theorem State.reset_msg : State.reset.msg = [] := rfl
@[simp] theorem State.reset_obuf : State.reset.obuf = [] := rfl

/-- Every parameter register is 0 after reset. -/
theorem Params.get_reset (p : ParamReg) : Params.reset.get p = 0 := by
  cases p <;> rfl

/-- WB1 .. WB7 are unspecified after the n-th reset, each holding the free value of its number (R61). -/
theorem Working.held_atReset (n : Nat) {r : WbReg} (h : r ≠ .zero) :
    (Working.atReset n).held r = .unspecified (Config.blockAtReset n (wbNumber r)) := by
  cases r with
  | zero => exact absurd rfl h
  | ain | ablk | fin | t0 | t1 | t2 | t3 => rfl

/-- WB0 alone is specified after a reset: it is hardwired (R53). -/
theorem Working.specified_atReset (n : Nat) (r : WbReg) :
    ((Working.atReset n).held r).specified = true ↔ r = .zero := by
  constructor
  · contrapose!
    intro h
    simp [Working.held_atReset n h, Held.unspecified]
  · rintro rfl
    rfl

/-! ### Reads of unspecified memory (R61) -/

/-- A matrix block the bank does not list stops the command that reads it. -/
theorem State.readMtx_of_unspecified {s : State} {k : Nat} (h : s.mtx.read k = none) :
    s.readMtx k = .error (.unspecRead (.mtx k)) := by
  rw [State.readMtx, h, orUnspec]

/-- A MSG range stops the command that reads it at its first byte, where that one is unspecified. -/
theorem State.readMsg_of_unspecified {s : State} {off : Nat} (n : Nat) (h : s.msg.read off = none) :
    s.readMsg off (n + 1) = .error (.unspecRead (.msg off)) := by
  simp only [State.readMsg, Memory.readRange, h]

theorem windowByte_of_unspecified {cap k j : Nat} (d : Word) (hj : k + j < cap) (h : m.read (k + j) = none) :
    windowByte m cap k d j = d.extractLsb' (8 * j) 8 := by
  rw [windowByte, if_neg (by omega), h]

/-- A host read of a buffer word inside the capacity whose bytes are all unspecified is the draw: each byte lane is the
draw's. -/
theorem windowRead_of_unspecified {cap k : Nat} (d : Word) (hk : k + 8 ≤ cap)
    (h : ∀ j, j < 8 → m.read (k + j) = none) : windowRead m cap k d = d := by
  have hlanes : (List.range 8).map (windowByte m cap k d) = le64 d := by
    refine List.ext_getElem? fun j => ?_
    rcases Nat.lt_or_ge j 8 with hj | hj
    · rw [le64_getElem? d hj, List.getElem?_map, List.getElem?_range hj, Option.map_some,
        windowByte_of_unspecified d (by omega) (h j hj)]
    · rw [List.getElem?_eq_none (by simpa using hj), List.getElem?_eq_none (by simpa using hj)]
  rw [windowRead, hlanes, leWord_le64]

/-! ### Reset and the invariant -/

/-- An assertion of the reset input leaves the state of R340, whatever was outstanding (R341). -/
theorem step_reset {s : State} {l : List Event} (h : s.agenda = .reset :: l) :
    step s = .next (s.setAgenda l).hardReset := step_cons h

/-- Settles O1: the registers hold the values of the table; nothing in the memories is listed, so a core read stops
(`readMtx_of_unspecified`, `readMsg_of_unspecified`) and a host read is its draw (`windowRead_of_unspecified`); a later
reset is `step_reset`, and what the working blocks hold is `Working.held_atReset`. -/
theorem resetLeavesTheTable : Obligations.ResetLeavesTheTable := by
  refine ⟨?registers, ⟨?working, rfl, ?mtx, ?msg, ?hostMsg, ?hostObuf⟩, fun s l h => step_reset h, ?free⟩
  case registers =>
    exact ⟨rfl, rfl, rfl, rfl, Params.get_reset, rfl, fun n => Vector.getElem_replicate n.isLt,
      fun n => Vector.getElem_replicate n.isLt, rfl, rfl, rfl⟩
  case working => exact Working.specified_atReset 0
  case mtx => exact fun k => State.readMtx_of_unspecified (Memory.read_nil k)
  case msg => exact fun off n => State.readMsg_of_unspecified n (Memory.read_nil off)
  case hostMsg =>
    intro d k hk
    rw [State.regValue_msg_idle State.reset_busy]
    exact windowRead_of_unspecified d hk fun j _ => Memory.read_nil (k + j)
  case hostObuf =>
    intro d k hk
    rw [State.regValue_obuf_idle State.reset_busy]
    exact windowRead_of_unspecified d hk fun j _ => Memory.read_nil (k + j)
  case free =>
    intro n r hr
    rw [Working.held_atReset n hr]
    exact ⟨rfl, rfl⟩

/-- Settles O2: the capacities are in their ranges, the memories are empty, and STATUS and the geometry are 0. -/
theorem resetMeetsTheInvariant : Obligations.ResetMeetsTheInvariant where
  capBlocks := Config.maxBlocks_bounds
  capMsg := Config.msgBytes_bounds
  capObuf := Config.obufBytes_bounds
  mtxWf := Memory.wf_nil
  msgWf := Memory.wf_nil
  obufWf := Memory.wf_nil
  mtxBelow := by simp
  msgBelow := by simp
  obufBelow := by simp
  oneEnd := by decide
  busyClear := by simp
  errCodeNone := by decide
  configured := by simp
  unconfigured := fun _ => rfl

end Sys2Proof.Machine
end
